-- ==== Sys2Proof/Word.lean ====
section
/-! DEFINITION. The word types of the me88 (00_scope.md R12, R15, R16). -/

namespace Sys2Proof

/-- An 8-bit value: AL, AH, MBR, OPCODE, SOURCE and one bus access (R12). -/
abbrev Byte := BitVec 8

/-- A 16-bit value: DS, SS, SP, DI, CS, IP, PREV_SS, PREV_SP, DEST_SEL, DEST_OFF (R12). -/
abbrev Word := BitVec 16

/-- A 20-bit physical address: MAR (R12, R80). -/
abbrev PhysAddr := BitVec 20

end Sys2Proof
end

