-- ==== Sys2Proof/Config.lean ====
section
/-! DEFINITION. What a platform fixes: the named parameters of 00_scope.md R13 as plain data, and the
values the spec leaves free (00_scope.md R24) as constants without a body. The default values stand in
Decode.lean and Machine/Bus.lean. -/

namespace Sys2Proof

/-- The names of the 68 instructions without their operands (30_encoding.md R140), in the order of the
opcode map. OPCODE_MAP and PRIV_SET are stated over them. -/
inductive Op where
  | nop
  | hlt
  | movAlAh
  | movAhAl
  | movAxDs
  | movAxSs
  | movAxSp
  | movAxDi
  | movDsAx
  | movSsAx
  | movSpAx
  | movDiAx
  | movCsAx
  | pushAl
  | popAl
  | notAl
  | shl
  | sal
  | shr
  | sar
  | ret
  | retf
  | iret
  | cli
  | sti
  | ldpsr
  | stum
  | ldDi
  | addDi
  | subDi
  | andDi
  | orDi
  | cmpDi
  | stDi
  | ldImm
  | addImm
  | subImm
  | andImm
  | orImm
  | cmpImm
  | intImm
  | ldD16
  | addD16
  | subD16
  | andD16
  | orD16
  | cmpD16
  | inPort
  | stD16
  | outPort
  | jmp
  | je
  | jne
  | ja
  | jae
  | jb
  | jbe
  | jg
  | jge
  | jl
  | jle
  | jo
  | jno
  | js
  | jns
  | call
  | jmpf
  | callf
  deriving DecidableEq, Repr

/-- The eight instruction formats, selected by opcode bits 7:5 (30_encoding.md R130). -/
inductive Fmt where
  | f0 | f1 | f2 | f3 | f4 | f5 | f6 | f7
  deriving DecidableEq, Repr

/-- FAR_PTR_LAYOUT: the byte order of the F7 operand (30_encoding.md R137). -/
inductive FarPtrLayout where
  /-- OFF_LO, OFF_HI, SEL_LO, SEL_HI, the default. -/
  | offsetFirst
  /-- SEL_LO, SEL_HI, OFF_LO, OFF_HI. -/
  | selectorFirst
  deriving DecidableEq, Repr

/-- VECTOR_LAYOUT: which of the four descriptor bytes holds each field (60_exceptions.md R431). An ordering
of the four fields is an injective choice of positions (`VectorLayout.wf`). -/
structure VectorLayout where
  ipLo : Fin 4
  ipHi : Fin 4
  csLo : Fin 4
  csHi : Fin 4
  deriving DecidableEq, Repr

/-- FLAGS_LAYOUT: the bit of the pushed flag byte that holds each flag (10_state.md R45); an injective map
(`FlagsLayout.wf`). -/
structure FlagsLayout where
  cf : Fin 8
  zf : Fin 8
  sf : Fin 8
  ovf : Fin 8
  ie : Fin 8
  us : Fin 8
  deriving DecidableEq, Repr

/-- SUB_FLAG_MODE: how SUB forms CF and OF (42_alu.md R263). -/
inductive SubFlagMode where
  | negateThenAdd
  | invertCarryIn
  deriving DecidableEq, Repr

/-- CMP_SIGNED_MODE: how CMP forms OF (42_alu.md R264). -/
inductive CmpSignedMode where
  | cfOriented
  | subOriented
  deriving DecidableEq, Repr

/-- LOGIC_CF_OF: what AND, OR and NOT do to CF and OF (42_alu.md R266). -/
inductive LogicCfOf where
  | unchanged
  | cleared
  deriving DecidableEq, Repr

/-- JBE_COND: the condition of JBE (43_control.md R321). -/
inductive JbeCond where
  | cfAndZf
  | cfOrZf
  deriving DecidableEq, Repr

/-- IO_ROUTING: whether I/O strobes reach only isIO devices (20_memory.md R96). -/
inductive IoRouting where
  | shared
  | isolated
  deriving DecidableEq, Repr

/-- The named parameters of 00_scope.md R13. ADDRESS_MAP is not here: it is the machine's device list.
OPCODE_MAP gives the low five bits of each instruction's opcode byte (30_encoding.md R131); the top three
are its format's, so the format constraint of R141 holds by construction. -/
structure Params where
  opcodeMap : List (Op × BitVec 5)
  farPtrLayout : FarPtrLayout
  vectorLayout : VectorLayout
  flagsLayout : FlagsLayout
  resetCS : Word
  resetIP : Word
  subFlagMode : SubFlagMode
  cmpSignedMode : CmpSignedMode
  logicCfOf : LogicCfOf
  jbeCond : JbeCond
  privSet : List Op
  vecInvalidOpcode : Byte
  vecPrivViolation : Byte
  ioRouting : IoRouting
  deriving DecidableEq, Repr

/-- The draw `any8()` of 00_scope.md R24: the byte of the n-th fresh draw of a run. It has no body, so a
theorem holds for every sequence of draws (log 5). -/
opaque Config.anyByte : Nat → Byte

/-- The byte that cell `addr` of device number `dev` holds from power-on where no image gives it
(20_memory.md R88, 93_implementation_defined.md U5). It has no body, so a theorem holds for every power-on
content (log 6). -/
opaque Config.powerOnByte (dev addr : Nat) : Byte

end Sys2Proof
end

