-- ==== Sys2Proof/Syntax.lean ====
section
/-! DEFINITION. The instructions of the me88, one constructor per row of spec/opcode_table.json, in the
order of the opcode map (30_encoding.md R140). Operands are what 30_encoding.md R132 to R138 give each
format: an immediate byte (F3), a displacement or offset (F4, F5, F6), a far pointer (F7). -/

namespace Sys2Proof

/-- One instruction with its operands. -/
inductive Instr where
  /-- NOP, `nop` (45_system.md R380). -/
  | nop
  /-- HLT, `hlt` (45_system.md R381). -/
  | hlt
  /-- MOV_AL_AH, `mov al,ah` (41_moves.md R222). -/
  | movAlAh
  /-- MOV_AH_AL, `mov ah,al` (41_moves.md R223). -/
  | movAhAl
  /-- MOV_AX_DS, `mov ax,ds` (41_moves.md R224). -/
  | movAxDs
  /-- MOV_AX_SS, `mov ax,ss` (41_moves.md R225). -/
  | movAxSs
  /-- MOV_AX_SP, `mov ax,sp` (41_moves.md R226). -/
  | movAxSp
  /-- MOV_AX_DI, `mov ax,di` (41_moves.md R227). -/
  | movAxDi
  /-- MOV_DS_AX, `mov ds,ax` (41_moves.md R228). -/
  | movDsAx
  /-- MOV_SS_AX, `mov ss,ax` (41_moves.md R229). -/
  | movSsAx
  /-- MOV_SP_AX, `mov sp,ax` (41_moves.md R230). -/
  | movSpAx
  /-- MOV_DI_AX, `mov di,ax` (41_moves.md R231). -/
  | movDiAx
  /-- MOV_CS_AX, `mov cs,ax` (41_moves.md R232). -/
  | movCsAx
  /-- PUSH_AL, `push al` (44_stack.md R361). -/
  | pushAl
  /-- POP_AL, `pop al` (44_stack.md R362). -/
  | popAl
  /-- NOT, `not al` (42_alu.md R283). -/
  | notAl
  /-- SHL, `shl al` (42_alu.md R284). -/
  | shl
  /-- SAL, `sal al` (42_alu.md R285). -/
  | sal
  /-- SHR, `shr al` (42_alu.md R286). -/
  | shr
  /-- SAR, `sar al` (42_alu.md R287). -/
  | sar
  /-- RET, `ret` (43_control.md R341). -/
  | ret
  /-- RETF, `retf` (43_control.md R342). -/
  | retf
  /-- IRET, `iret` (45_system.md R386). -/
  | iret
  /-- CLI, `cli` (45_system.md R382). -/
  | cli
  /-- STI, `sti` (45_system.md R383). -/
  | sti
  /-- LDPSR, `ldpsr` (45_system.md R387). -/
  | ldpsr
  /-- STUM, `stum` (45_system.md R388). -/
  | stum
  /-- LD_DI, `mov [di],al` (41_moves.md R233). -/
  | ldDi
  /-- ADD_DI, `add [di],al` (42_alu.md R268). -/
  | addDi
  /-- SUB_DI, `sub [di],al` (42_alu.md R271). -/
  | subDi
  /-- AND_DI, `and [di],al` (42_alu.md R274). -/
  | andDi
  /-- OR_DI, `or [di],al` (42_alu.md R277). -/
  | orDi
  /-- CMP_DI, `cmp [di],al` (42_alu.md R280). -/
  | cmpDi
  /-- ST_DI, `mov al,[di]` (41_moves.md R236). -/
  | stDi
  /-- LD_IMM, `mov $imm8,al` (41_moves.md R234). -/
  | ldImm (imm : Byte)
  /-- ADD_IMM, `add $imm8,al` (42_alu.md R269). -/
  | addImm (imm : Byte)
  /-- SUB_IMM, `sub $imm8,al` (42_alu.md R272). -/
  | subImm (imm : Byte)
  /-- AND_IMM, `and $imm8,al` (42_alu.md R275). -/
  | andImm (imm : Byte)
  /-- OR_IMM, `or $imm8,al` (42_alu.md R278). -/
  | orImm (imm : Byte)
  /-- CMP_IMM, `cmp $imm8,al` (42_alu.md R281). -/
  | cmpImm (imm : Byte)
  /-- INT, `int $imm8` (45_system.md R384). -/
  | intImm (vector : Byte)
  /-- LD_D16, `mov [addr16],al` (41_moves.md R235). -/
  | ldD16 (disp : Word)
  /-- ADD_D16, `add [addr16],al` (42_alu.md R270). -/
  | addD16 (disp : Word)
  /-- SUB_D16, `sub [addr16],al` (42_alu.md R273). -/
  | subD16 (disp : Word)
  /-- AND_D16, `and [addr16],al` (42_alu.md R276). -/
  | andD16 (disp : Word)
  /-- OR_D16, `or [addr16],al` (42_alu.md R279). -/
  | orD16 (disp : Word)
  /-- CMP_D16, `cmp [addr16],al` (42_alu.md R282). -/
  | cmpD16 (disp : Word)
  /-- IN, `in port16,al` (41_moves.md R238). -/
  | inPort (port : Word)
  /-- ST_D16, `mov al,[addr16]` (41_moves.md R237). -/
  | stD16 (off : Word)
  /-- OUT, `out al,port16` (41_moves.md R239). -/
  | outPort (port : Word)
  /-- JMP, `jmp off16` (43_control.md R323). -/
  | jmp (off : Word)
  /-- JE, `je off16` (43_control.md R324). -/
  | je (off : Word)
  /-- JNE, `jne off16` (43_control.md R325). -/
  | jne (off : Word)
  /-- JA, `ja off16` (43_control.md R326). -/
  | ja (off : Word)
  /-- JAE, `jae off16` (43_control.md R327). -/
  | jae (off : Word)
  /-- JB, `jb off16` (43_control.md R328). -/
  | jb (off : Word)
  /-- JBE, `jbe off16` (43_control.md R329). -/
  | jbe (off : Word)
  /-- JG, `jg off16` (43_control.md R330). -/
  | jg (off : Word)
  /-- JGE, `jge off16` (43_control.md R331). -/
  | jge (off : Word)
  /-- JL, `jl off16` (43_control.md R332). -/
  | jl (off : Word)
  /-- JLE, `jle off16` (43_control.md R333). -/
  | jle (off : Word)
  /-- JO, `jo off16` (43_control.md R334). -/
  | jo (off : Word)
  /-- JNO, `jno off16` (43_control.md R335). -/
  | jno (off : Word)
  /-- JS, `js off16` (43_control.md R336). -/
  | js (off : Word)
  /-- JNS, `jns off16` (43_control.md R337). -/
  | jns (off : Word)
  /-- CALL, `call off16` (43_control.md R338). -/
  | call (off : Word)
  /-- JMPF, `jmpf sel16:off16` (43_control.md R339). -/
  | jmpf (sel : Word) (off : Word)
  /-- CALLF, `callf sel16:off16` (43_control.md R340). -/
  | callf (sel : Word) (off : Word)
  deriving DecidableEq, Repr

end Sys2Proof
end

