-- ==== Sys2Proof/Decode.lean ====
section
/-! DEFINITION. Instruction encoding (30_encoding.md): the formats, operand assembly, the default opcode
map, the decoder and, after it, the encoder; and the assembler's opcode table (R142, R147, R148). -/

namespace Sys2Proof

/-! ### Byte order -/

/-- `hi:lo`, the 16-bit value of two bytes (00_scope.md R17). -/
def joinBytes (hi lo : Byte) : Word := hi ++ lo

/-- Bits 15:8 of a 16-bit value (00_scope.md R15). -/
def hiByte (w : Word) : Byte := w.extractLsb' 8 8

/-- Bits 7:0 of a 16-bit value (00_scope.md R15). -/
def loByte (w : Word) : Byte := w.extractLsb' 0 8

/-! ### Formats (R130, R132) -/

/-- The three format bits, opcode bits 7:5 (R130). -/
def Fmt.bits : Fmt → BitVec 3
  | .f0 => 0 | .f1 => 1 | .f2 => 2 | .f3 => 3 | .f4 => 4 | .f5 => 5 | .f6 => 6 | .f7 => 7

/-- `FormatOf(opcode)`: opcode bits 7:5 read as a number (R130). -/
def formatOf (b : Byte) : Fmt :=
  match (b.extractLsb' 5 3).toNat with
  | 0 => .f0 | 1 => .f1 | 2 => .f2 | 3 => .f3 | 4 => .f4 | 5 => .f5 | 6 => .f6 | _ => .f7

/-- How many bytes follow the opcode (R132). -/
def Fmt.operandBytes : Fmt → Nat
  | .f0 => 0 | .f1 => 0 | .f2 => 0 | .f3 => 1 | .f4 => 2 | .f5 => 2 | .f6 => 2 | .f7 => 4

/-- The format of each instruction: the `fmt` column of R140, which is normative. -/
def Op.fmt : Op → Fmt
  | .nop => .f0
  | .hlt => .f0
  | .movAlAh => .f0
  | .movAhAl => .f0
  | .movAxDs => .f0
  | .movAxSs => .f0
  | .movAxSp => .f0
  | .movAxDi => .f0
  | .movDsAx => .f0
  | .movSsAx => .f0
  | .movSpAx => .f0
  | .movDiAx => .f0
  | .movCsAx => .f0
  | .pushAl => .f0
  | .popAl => .f0
  | .notAl => .f0
  | .shl => .f0
  | .sal => .f0
  | .shr => .f0
  | .sar => .f0
  | .ret => .f0
  | .retf => .f0
  | .iret => .f0
  | .cli => .f0
  | .sti => .f0
  | .ldpsr => .f0
  | .stum => .f0
  | .ldDi => .f1
  | .addDi => .f1
  | .subDi => .f1
  | .andDi => .f1
  | .orDi => .f1
  | .cmpDi => .f1
  | .stDi => .f2
  | .ldImm => .f3
  | .addImm => .f3
  | .subImm => .f3
  | .andImm => .f3
  | .orImm => .f3
  | .cmpImm => .f3
  | .intImm => .f3
  | .ldD16 => .f4
  | .addD16 => .f4
  | .subD16 => .f4
  | .andD16 => .f4
  | .orD16 => .f4
  | .cmpD16 => .f4
  | .inPort => .f4
  | .stD16 => .f5
  | .outPort => .f5
  | .jmp => .f6
  | .je => .f6
  | .jne => .f6
  | .ja => .f6
  | .jae => .f6
  | .jb => .f6
  | .jbe => .f6
  | .jg => .f6
  | .jge => .f6
  | .jl => .f6
  | .jle => .f6
  | .jo => .f6
  | .jno => .f6
  | .js => .f6
  | .jns => .f6
  | .call => .f6
  | .jmpf => .f7
  | .callf => .f7

/-- The instruction's name without its operands. -/
def Instr.op : Instr → Op
  | .nop => .nop
  | .hlt => .hlt
  | .movAlAh => .movAlAh
  | .movAhAl => .movAhAl
  | .movAxDs => .movAxDs
  | .movAxSs => .movAxSs
  | .movAxSp => .movAxSp
  | .movAxDi => .movAxDi
  | .movDsAx => .movDsAx
  | .movSsAx => .movSsAx
  | .movSpAx => .movSpAx
  | .movDiAx => .movDiAx
  | .movCsAx => .movCsAx
  | .pushAl => .pushAl
  | .popAl => .popAl
  | .notAl => .notAl
  | .shl => .shl
  | .sal => .sal
  | .shr => .shr
  | .sar => .sar
  | .ret => .ret
  | .retf => .retf
  | .iret => .iret
  | .cli => .cli
  | .sti => .sti
  | .ldpsr => .ldpsr
  | .stum => .stum
  | .ldDi => .ldDi
  | .addDi => .addDi
  | .subDi => .subDi
  | .andDi => .andDi
  | .orDi => .orDi
  | .cmpDi => .cmpDi
  | .stDi => .stDi
  | .ldImm _ => .ldImm
  | .addImm _ => .addImm
  | .subImm _ => .subImm
  | .andImm _ => .andImm
  | .orImm _ => .orImm
  | .cmpImm _ => .cmpImm
  | .intImm _ => .intImm
  | .ldD16 _ => .ldD16
  | .addD16 _ => .addD16
  | .subD16 _ => .subD16
  | .andD16 _ => .andD16
  | .orD16 _ => .orD16
  | .cmpD16 _ => .cmpD16
  | .inPort _ => .inPort
  | .stD16 _ => .stD16
  | .outPort _ => .outPort
  | .jmp _ => .jmp
  | .je _ => .je
  | .jne _ => .jne
  | .ja _ => .ja
  | .jae _ => .jae
  | .jb _ => .jb
  | .jbe _ => .jbe
  | .jg _ => .jg
  | .jge _ => .jge
  | .jl _ => .jl
  | .jle _ => .jle
  | .jo _ => .jo
  | .jno _ => .jno
  | .js _ => .js
  | .jns _ => .jns
  | .call _ => .call
  | .jmpf _ _ => .jmpf
  | .callf _ _ => .callf

/-- The length of an instruction in bytes, a function of its format alone (R132, R146). -/
def Instr.length (i : Instr) : Nat := 1 + i.op.fmt.operandBytes

/-! ### The opcode map (R131, R140) -/

/-- F0 rows of the default OPCODE_MAP (R140, column `op`). -/
def defaultMapF0 : List (Op × BitVec 5) :=
  [(.nop, 0x00),
   (.hlt, 0x01),
   (.movAlAh, 0x02),
   (.movAhAl, 0x03),
   (.movAxDs, 0x04),
   (.movAxSs, 0x05),
   (.movAxSp, 0x06),
   (.movAxDi, 0x07),
   (.movDsAx, 0x08),
   (.movSsAx, 0x09),
   (.movSpAx, 0x0A),
   (.movDiAx, 0x0B),
   (.movCsAx, 0x0C),
   (.pushAl, 0x0D),
   (.popAl, 0x0E),
   (.notAl, 0x0F),
   (.shl, 0x10),
   (.sal, 0x11),
   (.shr, 0x12),
   (.sar, 0x13),
   (.ret, 0x14),
   (.retf, 0x15),
   (.iret, 0x16),
   (.cli, 0x17),
   (.sti, 0x18),
   (.ldpsr, 0x19),
   (.stum, 0x1A)]

/-- F1 to F5 rows of the default OPCODE_MAP (R140, column `op`). -/
def defaultMapF1toF5 : List (Op × BitVec 5) :=
  [(.ldDi, 0x00),
   (.addDi, 0x01),
   (.subDi, 0x02),
   (.andDi, 0x03),
   (.orDi, 0x04),
   (.cmpDi, 0x05),
   (.stDi, 0x00),
   (.ldImm, 0x00),
   (.addImm, 0x01),
   (.subImm, 0x02),
   (.andImm, 0x03),
   (.orImm, 0x04),
   (.cmpImm, 0x05),
   (.intImm, 0x06),
   (.ldD16, 0x00),
   (.addD16, 0x01),
   (.subD16, 0x02),
   (.andD16, 0x03),
   (.orD16, 0x04),
   (.cmpD16, 0x05),
   (.inPort, 0x06),
   (.stD16, 0x00),
   (.outPort, 0x01)]

/-- F6 and F7 rows of the default OPCODE_MAP (R140, column `op`). -/
def defaultMapF6F7 : List (Op × BitVec 5) :=
  [(.jmp, 0x00),
   (.je, 0x01),
   (.jne, 0x02),
   (.ja, 0x03),
   (.jae, 0x04),
   (.jb, 0x05),
   (.jbe, 0x06),
   (.jg, 0x07),
   (.jge, 0x08),
   (.jl, 0x09),
   (.jle, 0x0A),
   (.jo, 0x0B),
   (.jno, 0x0C),
   (.js, 0x0D),
   (.jns, 0x0E),
   (.call, 0x0F),
   (.jmpf, 0x00),
   (.callf, 0x01)]

/-- The default OPCODE_MAP (R140). -/
def defaultOpcodeMap : List (Op × BitVec 5) := defaultMapF0 ++ defaultMapF1toF5 ++ defaultMapF6F7

/-- The opcode byte whose format is `op`'s and whose low five bits are `low` (R131). -/
def opcodeByte (op : Op) (low : BitVec 5) : Byte := op.fmt.bits ++ low

/-- `Instr(OPCODE)`: the instruction an opcode byte is assigned to, if any (R143). -/
def lookupOp (m : List (Op × BitVec 5)) (b : Byte) : Option Op :=
  (m.find? fun e => opcodeByte e.1 e.2 == b).map Prod.fst

/-- The opcode byte of an instruction, if the map assigns one (R141). -/
def byteOf (m : List (Op × BitVec 5)) (op : Op) : Option Byte :=
  (m.find? fun e => e.1 == op).map fun e => opcodeByte e.1 e.2

/-! ### Decoding (R133 to R137, R146) -/

/-- The selector of a far pointer's four bytes (R137). -/
def farSelector (far : FarPtrLayout) (b1 b2 b3 b4 : Byte) : Word :=
  match far with
  | .offsetFirst => joinBytes b4 b3
  | .selectorFirst => joinBytes b2 b1

/-- The offset of a far pointer's four bytes (R137). -/
def farOffset (far : FarPtrLayout) (b1 b2 b3 b4 : Byte) : Word :=
  match far with
  | .offsetFirst => joinBytes b2 b1
  | .selectorFirst => joinBytes b4 b3

/-- The instruction of an opcode and the bytes that follow it in the code stream (R132 to R137); a byte the
format does not use is not read. -/
def assemble (far : FarPtrLayout) (op : Op) (b1 b2 b3 b4 : Byte) : Instr :=
  match op with
  | .nop => .nop
  | .hlt => .hlt
  | .movAlAh => .movAlAh
  | .movAhAl => .movAhAl
  | .movAxDs => .movAxDs
  | .movAxSs => .movAxSs
  | .movAxSp => .movAxSp
  | .movAxDi => .movAxDi
  | .movDsAx => .movDsAx
  | .movSsAx => .movSsAx
  | .movSpAx => .movSpAx
  | .movDiAx => .movDiAx
  | .movCsAx => .movCsAx
  | .pushAl => .pushAl
  | .popAl => .popAl
  | .notAl => .notAl
  | .shl => .shl
  | .sal => .sal
  | .shr => .shr
  | .sar => .sar
  | .ret => .ret
  | .retf => .retf
  | .iret => .iret
  | .cli => .cli
  | .sti => .sti
  | .ldpsr => .ldpsr
  | .stum => .stum
  | .ldDi => .ldDi
  | .addDi => .addDi
  | .subDi => .subDi
  | .andDi => .andDi
  | .orDi => .orDi
  | .cmpDi => .cmpDi
  | .stDi => .stDi
  | .ldImm => .ldImm b1
  | .addImm => .addImm b1
  | .subImm => .subImm b1
  | .andImm => .andImm b1
  | .orImm => .orImm b1
  | .cmpImm => .cmpImm b1
  | .intImm => .intImm b1
  | .ldD16 => .ldD16 (joinBytes b2 b1)
  | .addD16 => .addD16 (joinBytes b2 b1)
  | .subD16 => .subD16 (joinBytes b2 b1)
  | .andD16 => .andD16 (joinBytes b2 b1)
  | .orD16 => .orD16 (joinBytes b2 b1)
  | .cmpD16 => .cmpD16 (joinBytes b2 b1)
  | .inPort => .inPort (joinBytes b2 b1)
  | .stD16 => .stD16 (joinBytes b2 b1)
  | .outPort => .outPort (joinBytes b2 b1)
  | .jmp => .jmp (joinBytes b2 b1)
  | .je => .je (joinBytes b2 b1)
  | .jne => .jne (joinBytes b2 b1)
  | .ja => .ja (joinBytes b2 b1)
  | .jae => .jae (joinBytes b2 b1)
  | .jb => .jb (joinBytes b2 b1)
  | .jbe => .jbe (joinBytes b2 b1)
  | .jg => .jg (joinBytes b2 b1)
  | .jge => .jge (joinBytes b2 b1)
  | .jl => .jl (joinBytes b2 b1)
  | .jle => .jle (joinBytes b2 b1)
  | .jo => .jo (joinBytes b2 b1)
  | .jno => .jno (joinBytes b2 b1)
  | .js => .js (joinBytes b2 b1)
  | .jns => .jns (joinBytes b2 b1)
  | .call => .call (joinBytes b2 b1)
  | .jmpf => .jmpf (farSelector far b1 b2 b3 b4) (farOffset far b1 b2 b3 b4)
  | .callf => .callf (farSelector far b1 b2 b3 b4) (farOffset far b1 b2 b3 b4)

/-- Why bytes do not decode. -/
inductive DecodeError where
  /-- The opcode byte is not assigned by OPCODE_MAP (R143); the machine takes the invalid-opcode fault. -/
  | invalidOpcode (b : Byte)
  /-- Fewer bytes than the instruction's length (R146); the machine's code stream never ends. -/
  | truncated
  deriving DecidableEq, Repr

/-- Read one instruction off a list of bytes: the instruction and the bytes after it (R146). -/
def decode (p : Params) (bytes : List Byte) : Except DecodeError (Instr × List Byte) :=
  match bytes with
  | [] => .error .truncated
  | b :: rest =>
    match lookupOp p.opcodeMap b with
    | none => .error (.invalidOpcode b)
    | some op =>
      if rest.length < op.fmt.operandBytes then .error .truncated
      else .ok (assemble p.farPtrLayout op (rest.getD 0 0) (rest.getD 1 0) (rest.getD 2 0) (rest.getD 3 0),
        rest.drop op.fmt.operandBytes)

/-! ### Encoding -/

/-- The four bytes of a far pointer (R137). -/
def farBytes (far : FarPtrLayout) (sel off : Word) : List Byte :=
  match far with
  | .offsetFirst => [loByte off, hiByte off, loByte sel, hiByte sel]
  | .selectorFirst => [loByte sel, hiByte sel, loByte off, hiByte off]

/-- The operand bytes of an instruction in code-stream order (R132, R134 to R137). -/
def Instr.operands (far : FarPtrLayout) : Instr → List Byte
  | .nop => []
  | .hlt => []
  | .movAlAh => []
  | .movAhAl => []
  | .movAxDs => []
  | .movAxSs => []
  | .movAxSp => []
  | .movAxDi => []
  | .movDsAx => []
  | .movSsAx => []
  | .movSpAx => []
  | .movDiAx => []
  | .movCsAx => []
  | .pushAl => []
  | .popAl => []
  | .notAl => []
  | .shl => []
  | .sal => []
  | .shr => []
  | .sar => []
  | .ret => []
  | .retf => []
  | .iret => []
  | .cli => []
  | .sti => []
  | .ldpsr => []
  | .stum => []
  | .ldDi => []
  | .addDi => []
  | .subDi => []
  | .andDi => []
  | .orDi => []
  | .cmpDi => []
  | .stDi => []
  | .ldImm v => [v]
  | .addImm v => [v]
  | .subImm v => [v]
  | .andImm v => [v]
  | .orImm v => [v]
  | .cmpImm v => [v]
  | .intImm v => [v]
  | .ldD16 v => [loByte v, hiByte v]
  | .addD16 v => [loByte v, hiByte v]
  | .subD16 v => [loByte v, hiByte v]
  | .andD16 v => [loByte v, hiByte v]
  | .orD16 v => [loByte v, hiByte v]
  | .cmpD16 v => [loByte v, hiByte v]
  | .inPort v => [loByte v, hiByte v]
  | .stD16 v => [loByte v, hiByte v]
  | .outPort v => [loByte v, hiByte v]
  | .jmp v => [loByte v, hiByte v]
  | .je v => [loByte v, hiByte v]
  | .jne v => [loByte v, hiByte v]
  | .ja v => [loByte v, hiByte v]
  | .jae v => [loByte v, hiByte v]
  | .jb v => [loByte v, hiByte v]
  | .jbe v => [loByte v, hiByte v]
  | .jg v => [loByte v, hiByte v]
  | .jge v => [loByte v, hiByte v]
  | .jl v => [loByte v, hiByte v]
  | .jle v => [loByte v, hiByte v]
  | .jo v => [loByte v, hiByte v]
  | .jno v => [loByte v, hiByte v]
  | .js v => [loByte v, hiByte v]
  | .jns v => [loByte v, hiByte v]
  | .call v => [loByte v, hiByte v]
  | .jmpf sel off => farBytes far sel off
  | .callf sel off => farBytes far sel off

/-- The bytes of an instruction (R132); an instruction the map does not assign has no bytes. -/
def encode (p : Params) (i : Instr) : List Byte :=
  match byteOf p.opcodeMap i.op with
  | none => []
  | some b => b :: i.operands p.farPtrLayout

/-! ### The default platform's parameters (00_scope.md R13) -/

/-- Every parameter at the default of 00_scope.md R13. -/
def defaultParams : Params where
  opcodeMap := defaultOpcodeMap
  farPtrLayout := .offsetFirst
  vectorLayout := ⟨0, 1, 2, 3⟩
  flagsLayout := ⟨0, 1, 2, 3, 4, 5⟩
  resetCS := 0xF000
  resetIP := 0x0000
  subFlagMode := .negateThenAdd
  cmpSignedMode := .cfOriented
  logicCfOf := .unchanged
  jbeCond := .cfAndZf
  privSet := [.ldpsr, .stum, .cli, .sti, .hlt, .iret, .inPort, .outPort]
  vecInvalidOpcode := 0x00
  vecPrivViolation := 0x01
  ioRouting := .shared

/-- Byte `k` of a number whose byte 0 is the least significant. -/
def byteAtIndex (w k : Nat) : Byte := BitVec.ofNat 8 (w >>> (8 * k))

/-- The five bytes of an instruction word of `nbits` bits, byte 0 first; the bits above `nbits` are 0. -/
def wordBytes (nbits w : Nat) : List Byte :=
  let v := w % 2 ^ nbits
  [byteAtIndex v 0, byteAtIndex v 1, byteAtIndex v 2, byteAtIndex v 3, byteAtIndex v 4]

/-- The instruction the decoder reads, under the default parameters, from an instruction word numbered as
spec/opcode_table.json numbers it. -/
def decodeTableWord (nbits w : Nat) : Option Instr :=
  match decode defaultParams (wordBytes nbits w) with
  | .ok r => some r.1
  | .error _ => none

/-! ### The assembler's opcode table (R142, R147, R148) -/

/-- The table name of an instruction (R140, R142). -/
def Op.tableName : Op → String
  | .nop => "NOP"
  | .hlt => "HLT"
  | .movAlAh => "MOV_AL_AH"
  | .movAhAl => "MOV_AH_AL"
  | .movAxDs => "MOV_AX_DS"
  | .movAxSs => "MOV_AX_SS"
  | .movAxSp => "MOV_AX_SP"
  | .movAxDi => "MOV_AX_DI"
  | .movDsAx => "MOV_DS_AX"
  | .movSsAx => "MOV_SS_AX"
  | .movSpAx => "MOV_SP_AX"
  | .movDiAx => "MOV_DI_AX"
  | .movCsAx => "MOV_CS_AX"
  | .pushAl => "PUSH_AL"
  | .popAl => "POP_AL"
  | .notAl => "NOT"
  | .shl => "SHL"
  | .sal => "SAL"
  | .shr => "SHR"
  | .sar => "SAR"
  | .ret => "RET"
  | .retf => "RETF"
  | .iret => "IRET"
  | .cli => "CLI"
  | .sti => "STI"
  | .ldpsr => "LDPSR"
  | .stum => "STUM"
  | .ldDi => "LD_DI"
  | .addDi => "ADD_DI"
  | .subDi => "SUB_DI"
  | .andDi => "AND_DI"
  | .orDi => "OR_DI"
  | .cmpDi => "CMP_DI"
  | .stDi => "ST_DI"
  | .ldImm => "LD_IMM"
  | .addImm => "ADD_IMM"
  | .subImm => "SUB_IMM"
  | .andImm => "AND_IMM"
  | .orImm => "OR_IMM"
  | .cmpImm => "CMP_IMM"
  | .intImm => "INT"
  | .ldD16 => "LD_D16"
  | .addD16 => "ADD_D16"
  | .subD16 => "SUB_D16"
  | .andD16 => "AND_D16"
  | .orD16 => "OR_D16"
  | .cmpD16 => "CMP_D16"
  | .inPort => "IN"
  | .stD16 => "ST_D16"
  | .outPort => "OUT"
  | .jmp => "JMP"
  | .je => "JE"
  | .jne => "JNE"
  | .ja => "JA"
  | .jae => "JAE"
  | .jb => "JB"
  | .jbe => "JBE"
  | .jg => "JG"
  | .jge => "JGE"
  | .jl => "JL"
  | .jle => "JLE"
  | .jo => "JO"
  | .jno => "JNO"
  | .js => "JS"
  | .jns => "JNS"
  | .call => "CALL"
  | .jmpf => "JMPF"
  | .callf => "CALLF"

/-- The assembler spelling of an instruction (R140 column `syntax`, R147). -/
def Op.asmSyntax : Op → String
  | .nop => "nop"
  | .hlt => "hlt"
  | .movAlAh => "mov al,ah"
  | .movAhAl => "mov ah,al"
  | .movAxDs => "mov ax,ds"
  | .movAxSs => "mov ax,ss"
  | .movAxSp => "mov ax,sp"
  | .movAxDi => "mov ax,di"
  | .movDsAx => "mov ds,ax"
  | .movSsAx => "mov ss,ax"
  | .movSpAx => "mov sp,ax"
  | .movDiAx => "mov di,ax"
  | .movCsAx => "mov cs,ax"
  | .pushAl => "push al"
  | .popAl => "pop al"
  | .notAl => "not al"
  | .shl => "shl al"
  | .sal => "sal al"
  | .shr => "shr al"
  | .sar => "sar al"
  | .ret => "ret"
  | .retf => "retf"
  | .iret => "iret"
  | .cli => "cli"
  | .sti => "sti"
  | .ldpsr => "ldpsr"
  | .stum => "stum"
  | .ldDi => "mov [di],al"
  | .addDi => "add [di],al"
  | .subDi => "sub [di],al"
  | .andDi => "and [di],al"
  | .orDi => "or [di],al"
  | .cmpDi => "cmp [di],al"
  | .stDi => "mov al,[di]"
  | .ldImm => "mov $imm8,al"
  | .addImm => "add $imm8,al"
  | .subImm => "sub $imm8,al"
  | .andImm => "and $imm8,al"
  | .orImm => "or $imm8,al"
  | .cmpImm => "cmp $imm8,al"
  | .intImm => "int $imm8"
  | .ldD16 => "mov [addr16],al"
  | .addD16 => "add [addr16],al"
  | .subD16 => "sub [addr16],al"
  | .andD16 => "and [addr16],al"
  | .orD16 => "or [addr16],al"
  | .cmpD16 => "cmp [addr16],al"
  | .inPort => "in port16,al"
  | .stD16 => "mov al,[addr16]"
  | .outPort => "out al,port16"
  | .jmp => "jmp off16"
  | .je => "je off16"
  | .jne => "jne off16"
  | .ja => "ja off16"
  | .jae => "jae off16"
  | .jb => "jb off16"
  | .jbe => "jbe off16"
  | .jg => "jg off16"
  | .jge => "jge off16"
  | .jl => "jl off16"
  | .jle => "jle off16"
  | .jo => "jo off16"
  | .jno => "jno off16"
  | .js => "js off16"
  | .jns => "jns off16"
  | .call => "call off16"
  | .jmpf => "jmpf sel16:off16"
  | .callf => "callf sel16:off16"

/-- Every instruction name, in the order of R140. -/
def Op.all : List Op :=
  [.nop, .hlt, .movAlAh, .movAhAl, .movAxDs, .movAxSs, .movAxSp, .movAxDi, .movDsAx, .movSsAx,
   .movSpAx, .movDiAx, .movCsAx, .pushAl, .popAl, .notAl, .shl, .sal, .shr, .sar, .ret, .retf,
   .iret, .cli, .sti, .ldpsr, .stum,
   .ldDi, .addDi, .subDi, .andDi, .orDi, .cmpDi, .stDi, .ldImm, .addImm, .subImm, .andImm, .orImm,
   .cmpImm, .intImm, .ldD16, .addD16, .subD16, .andD16, .orD16, .cmpD16, .inPort, .stD16, .outPort,
   .jmp, .je, .jne, .ja, .jae, .jb, .jbe, .jg, .jge, .jl, .jle, .jo, .jno, .js, .jns, .call, .jmpf,
   .callf]

/-- `ToMnemonic(code)`: the table name of an assigned byte, or the sentinel (R142). -/
def toMnemonic (m : List (Op × BitVec 5)) (b : Byte) : String :=
  match lookupOp m b with
  | some op => op.tableName
  | none => "unknown"

/-- `FromMnemonic(text)`: the byte of a table name, `none` for the source's `(false, _)` (R142). -/
def fromMnemonic (m : List (Op × BitVec 5)) (name : String) : Option Byte :=
  (Op.all.find? fun op => op.tableName == name).bind (byteOf m)

/-- The three pseudo-instructions: an alias and the mnemonic it assembles as (R148). -/
def asmAliases : List (String × Op) := [("jz", .je), ("jnz", .jne), ("jc", .jb)]

end Sys2Proof
end

