-- ==== Sys2Proof/Machine/Bus.lean ====
section
/-! DEFINITION. Physical addresses, memory devices and the bus (20_memory.md): the device decoder, reads,
writes, the default address map, and the canonical form of the cells. -/

namespace Sys2Proof.Machine

open Sys2Proof

/-- `phys(sel, off) = trunc_20(zext_32(sel) * 16 + zext_32(off))` (00_scope.md R19, 20_memory.md R83). -/
def phys (sel off : Word) : PhysAddr := (sel.setWidth 32 * 16#32 + off.setWidth 32).setWidth 20

/-! ### Cells: a map from address to byte -/

/-- The byte listed at an address, if one is. An unlisted cell has never been written. -/
def cellGet : List Host.Cell → Nat → Option Byte
  | [], _ => none
  | (k, v) :: rest, a => if a = k then some v else cellGet rest a

/-- Store a byte at an address, keeping the addresses rising. -/
def cellPut : List Host.Cell → Nat → Byte → List Host.Cell
  | [], a, v => [(a, v)]
  | (k, w) :: rest, a, v =>
    if a < k then (a, v) :: (k, w) :: rest
    else if a = k then (a, v) :: rest
    else (k, w) :: cellPut rest a v

/-- The addresses of a cell list rise strictly. -/
def cellsRise : List Host.Cell → Bool
  | [] => true
  | (k, _) :: rest => (rest.all fun c => decide (k < c.1)) && cellsRise rest

/-! ### Devices (R84 to R89) -/

/-- A memory device (R84). -/
structure Device where
  low : Nat
  high : Nat
  readable : Bool
  writeable : Bool
  isIO : Bool
  cells : List Host.Cell
  deriving DecidableEq, Repr

/-- `IsInRange(a)`, the closed interval (R84). -/
def Device.inRange (d : Device) (a : Nat) : Bool := decide (d.low ≤ a) && decide (a ≤ d.high)

/-- The byte a cell holds: what an image or a write put there, else the byte it has held since power-on
(R88, the eager reading of R86). `dev` is the device's place in registration order. -/
def Device.byteAt (d : Device) (dev a : Nat) : Byte := (cellGet d.cells a).getD (Config.powerOnByte dev a)

/-- `Read(a)` (R86, R88): `none` stands for a fresh draw. -/
def Device.read (d : Device) (dev a : Nat) : Option Byte :=
  if d.inRange a && d.readable then some (d.byteAt dev a) else none

/-- `Write(a, v)` (R85). -/
def Device.write (d : Device) (a : Nat) (v : Byte) : Device :=
  if d.writeable && d.inRange a then { d with cells := cellPut d.cells a v } else d

/-- Put a byte into a cell whatever `writeable` says: how an image is loaded (R89). A cell outside the
device's range does not exist. -/
def Device.load (d : Device) (a : Nat) (v : Byte) : Device :=
  if d.inRange a then { d with cells := cellPut d.cells a v } else d

/-- Load an image at consecutive addresses (R89). -/
def Device.loadImage (d : Device) (a : Nat) : List Byte → Device
  | [] => d
  | v :: vs => (d.load a v).loadImage (a + 1) vs

/-- The first read of a cell in the lazy form of R86: the draw is cached. -/
def Device.readLazy (d : Device) (a : Nat) (draw : Byte) : Byte × Device :=
  if d.inRange a && d.readable then
    match cellGet d.cells a with
    | some v => (v, d)
    | none => (draw, { d with cells := cellPut d.cells a draw })
  else (draw, d)

/-- A device of R84: `low <= high` in 32 bits, cells in range and in canonical form. -/
def Device.wf (d : Device) : Bool :=
  decide (d.low ≤ d.high) && decide (d.high < 2 ^ 32) && cellsRise d.cells
    && d.cells.all fun c => d.inRange c.1

/-! ### The bus (R90 to R97) -/

/-- The bus's ordered device list, in registration order (R90). -/
abbrev Memory := List Device

/-- Every device is well formed: its cells are in the one canonical form. -/
def Memory.wf (m : Memory) : Bool := m.all Device.wf

/-- Whether the decoder considers a device for this kind of strobe (R96). -/
def Device.routed (d : Device) (r : IoRouting) (io : Bool) : Bool :=
  match r with
  | .shared => true
  | .isolated => d.isIO == io

/-- `Select(a)`: the place of the first device in registration order whose range holds the address (R91). -/
def Memory.select (m : Memory) (r : IoRouting) (io : Bool) (a : PhysAddr) : Option Nat :=
  m.findIdx? fun d => d.routed r io && d.inRange a.toNat

/-- `Bus.Read(a)` (R92): `none` stands for a fresh draw. -/
def Memory.read (m : Memory) (r : IoRouting) (io : Bool) (a : PhysAddr) : Option Byte :=
  match m.select r io a with
  | none => none
  | some k => (m[k]?).bind fun d => d.read k a.toNat

/-- `Bus.Write(a, v)` (R93, R94). -/
def Memory.write (m : Memory) (r : IoRouting) (io : Bool) (a : PhysAddr) (v : Byte) : Memory :=
  match m.select r io a with
  | none => m
  | some k => m.modify k fun d => d.write a.toNat v

/-- The byte that cell `a` of device number `dev` holds, readable or not. -/
def Memory.cell (m : Memory) (dev a : Nat) : Byte :=
  match m[dev]? with
  | none => Config.powerOnByte dev a
  | some d => d.byteAt dev a

/-- Put a byte into the device a memory access at the address selects, whatever `writeable` says (R89). -/
def Memory.load (m : Memory) (r : IoRouting) (a : PhysAddr) (v : Byte) : Memory :=
  match m.select r false a with
  | none => m
  | some k => m.modify k fun d => d.load a.toNat v

/-- Load an image at the base of the device that holds the address (R89, R117). Under ISOLATED routing or where
ranges overlap R117 does not say which device that is; the model takes the one a memory strobe selects, for the
program and the vector image alike: its own choice (log 28). Where none is selected, which R117 does not settle
either, the whole image is dropped: the model's choice (log 24). -/
def Memory.loadImage (m : Memory) (r : IoRouting) (a : PhysAddr) (image : List Byte) : Memory :=
  match m.select r false a with
  | none => m
  | some k => m.modify k fun d => d.loadImage d.low image

/-! ### The default address map (R116) -/

/-- The program store of the default ADDRESS_MAP. -/
def rom : Device := ⟨0xF0000, 0xFFFFF, true, false, false, []⟩

/-- The RAM that holds the vector table in the default ADDRESS_MAP. -/
def ram0 : Device := ⟨0x00000, 0x07FFF, true, true, false, []⟩

/-- The write-only I/O region (framebuffer) of the default ADDRESS_MAP. -/
def ioRegion : Device := ⟨0x08000, 0x0FFFF, false, true, true, []⟩

/-- The second RAM of the default ADDRESS_MAP. -/
def ram1 : Device := ⟨0x10000, 0xEFFFF, true, true, false, []⟩

/-- The default ADDRESS_MAP, in registration order (R116), with no cell listed. -/
def defaultMemory : Memory := [rom, ram0, ioRegion, ram1]

end Sys2Proof.Machine
end

