-- ==== Sys2Proof/Machine/State.lean ====
section
/-! DEFINITION. The state of the me88 as plain data (10_state.md), its updates, the reasons a step could
stop, and the state after reset. The groups of fields are the sections of 10_state.md. -/

namespace Sys2Proof.Machine

open Sys2Proof

/-- The three kinds of entry into the interrupt sequence (00_scope.md R22, 60_exceptions.md R420). -/
inductive IntKind where
  | hw | sw | fault
  deriving DecidableEq, Repr

/-- The operation categories of 40_fetch.md R187, each the name of an execute entry state. -/
inductive Category where
  | registerMove | alu | load | store | jump | push | pop | call | ret
  | softwareInterrupt | returnFromInterrupt | flagBit | registerSwap
  deriving DecidableEq, Repr

/-- The micro-states of 40_fetch.md R181, a closed enumeration. Code byte, stack access and descriptor byte
numbers count from 0 where R181 counts from 1. The kind that R185 sets on the way to `INT_ENTRY` has no register
in 10_state.md; the model carries it in the micro-state up to `INT_CLEAR`: its own choice (log 27). -/
inductive MicroState where
  | fetchAddr | fetchBus | fetchLatch
  | codeAddr (k : Fin 4) | codeBus (k : Fin 4) | codeLatch (k : Fin 4)
  | dsdiAddr | dsdiBus | dsdiLatch
  | f2Set
  | eaAddr | eaBus | eaLatch
  | execute (c : Category)
  | xrAddr (k : Fin 5) | xrBus (k : Fin 5) | xrLatch (k : Fin 5)
  | xwAddr (k : Fin 4) | xwBus (k : Fin 4)
  | execEnd
  | intEntry (kind : IntKind)
  | intPushAddr (kind : IntKind) (k : Fin 5) | intPushBus (kind : IntKind) (k : Fin 5)
  | intClear (kind : IntKind)
  | intVecAddr (k : Fin 4) | intVecBus (k : Fin 4) | intVecLatch (k : Fin 4)
  | intEnd
  | halt
  deriving DecidableEq, Repr

/-- The register file (10_state.md R33 to R43). -/
structure Regs where
  al : Byte
  ah : Byte
  ds : Word
  ss : Word
  sp : Word
  di : Word
  cs : Word
  ip : Word
  prevSS : Word
  prevSP : Word
  deriving DecidableEq, Repr

/-- The flag register: CF, ZF, SF, OF, IF, US (10_state.md R45, R47, R48). -/
structure Flags where
  cf : Bool
  zf : Bool
  sf : Bool
  ovf : Bool
  ie : Bool
  us : Bool
  deriving DecidableEq, Repr

/-- The bus-facing latches and strobes (10_state.md R49). `dir` is true for a write. -/
structure BusLatches where
  mar : PhysAddr
  mbr : Byte
  dir : Bool
  memr : Bool
  memw : Bool
  ior : Bool
  iow : Bool
  deriving DecidableEq, Repr

/-- The decode latches (10_state.md R50). -/
structure DecodeLatches where
  opcode : Byte
  source : Byte
  destSel : Word
  destOff : Word
  deriving DecidableEq, Repr

/-- Micro-program control (10_state.md R51, R52). `tmp` is the MODEL's own field: the bytes the execute
phase or the descriptor read has read so far at clock level, empty between instructions (log 12). -/
structure MicroControl where
  star : MicroState
  mjr : MicroState
  halted : Bool
  tmp : List Byte
  deriving DecidableEq, Repr

/-- The interrupt line: the host's two inputs and the acknowledge output (00_scope.md R27, 10_state.md R53). -/
structure IrqLine where
  pending : Bool
  vector : Byte
  ack : Bool
  deriving DecidableEq, Repr

/-- The whole machine (10_state.md R30, R31). `params` holds the platform's parameters (00_scope.md R13),
which no step changes; `draws` is the MODEL's own field: how many fresh draws (R24) the run has taken. -/
structure State where
  regs : Regs
  flags : Flags
  bus : BusLatches
  latch : DecodeLatches
  micro : MicroControl
  irq : IrqLine
  mem : Memory
  params : Params
  draws : Nat
  deriving DecidableEq, Repr

/-- Why the machine could stop with a fault. It has no constructor: the me88 never stops but by HLT, every
fault is an interrupt entry and so a next state (60_exceptions.md R421). Nothing raises one: safe. -/
inductive Fault where
  deriving DecidableEq, Repr

/-- Why a step could be refused. -/
inductive Refusal where
  /-- An instruction without a meaning in this model, raised by its arm of `exec` alone. No arm of this
  model raises it. Safe: the machine makes no claim about such an instruction. -/
  | notModelled (mnemonic : String)
  deriving DecidableEq, Repr

/-- What a meaning answers. -/
abbrev Result := Host.Outcome State Fault Refusal

/-! ### Updates, one per thing a transition writes -/

/-- Write the register file. -/
def State.setRegs (s : State) (r : Regs) : State := { s with regs := r }

/-- Write the flag register. -/
def State.setFlags (s : State) (f : Flags) : State := { s with flags := f }

/-- Write the bus-facing latches. -/
def State.setBus (s : State) (b : BusLatches) : State := { s with bus := b }

/-- Write the decode latches. -/
def State.setLatch (s : State) (l : DecodeLatches) : State := { s with latch := l }

/-- Write micro-program control. -/
def State.setMicro (s : State) (m : MicroControl) : State := { s with micro := m }

/-- Write the interrupt line. -/
def State.setIrq (s : State) (i : IrqLine) : State := { s with irq := i }

/-- Write the devices. -/
def State.setMem (s : State) (m : Memory) : State := { s with mem := m }

/-- Count a fresh draw. -/
def State.nextDraw (s : State) : State := { s with draws := s.draws + 1 }

/-! ### Reset -/

/-- All six flags clear: after reset (R54) and after interrupt entry (60_exceptions.md R430). -/
def Flags.cleared : Flags := ⟨false, false, false, false, false, false⟩

/-- The machine right after reset (10_state.md R54 to R58, 70_reset_and_hazards.md R480), on the default
platform with no image loaded. The registers and latches the spec leaves unspecified (R56, R57) are zero:
DESIGN CHOICE, unsafe (log 3, log 4); `Platform.onReset` takes them as arguments. -/
def State.reset : State where
  regs := ⟨0, 0, 0, 0, 0, 0, defaultParams.resetCS, defaultParams.resetIP, 0, 0⟩
  flags := Flags.cleared
  bus := ⟨0, 0, false, false, false, false, false⟩
  latch := ⟨0, 0, 0, 0⟩
  micro := ⟨.fetchAddr, .fetchAddr, false, []⟩
  irq := ⟨false, 0, false⟩
  mem := defaultMemory
  params := defaultParams
  draws := 0

end Sys2Proof.Machine
end

