-- ==== Sys2Proof/Machine/Flags.lean ====
section
/-! DEFINITION. Every flag computation of the spec: the flag byte (10_state.md R45), the ALU cores
(42_alu.md R261 to R267) and the jump conditions (43_control.md R321). -/

namespace Sys2Proof.Machine

open Sys2Proof

/-! ### The flag byte (10_state.md R45) -/

/-- One flag at its bit of the flag byte. -/
def flagBit (b : Bool) (pos : Fin 8) : Byte := (if b then 1#8 else 0#8) <<< pos.val

/-- `FlagsByte()`: the pushed flag byte, unused bits 0 (R45). -/
def flagsByte (l : FlagsLayout) (f : Flags) : Byte :=
  flagBit f.cf l.cf ||| flagBit f.zf l.zf ||| flagBit f.sf l.sf |||
    flagBit f.ovf l.ovf ||| flagBit f.ie l.ie ||| flagBit f.us l.us

/-- `SetFlagsFromByte(b)`: all six flags from a popped byte, the other bits ignored (R45). -/
def flagsOfByte (l : FlagsLayout) (b : Byte) : Flags where
  cf := b.getLsbD l.cf.val
  zf := b.getLsbD l.zf.val
  sf := b.getLsbD l.sf.val
  ovf := b.getLsbD l.ovf.val
  ie := b.getLsbD l.ie.val
  us := b.getLsbD l.us.val

/-! ### The ALU cores (42_alu.md)

Each core takes the operands and the flags before, and gives the result and the flags after; IF and US
pass through. -/

/-- `ZF_of(r)` (00_scope.md R23). -/
def zfOf (r : Byte) : Bool := r == 0

/-- `SF_of(r)` (00_scope.md R23). -/
def sfOf (r : Byte) : Bool := r.getLsbD 7

/-- The carry out of bit 7 of `a + b + cin`, with `cin` 0 or 1 (R261, R263). -/
def carryBit7 (a b : Byte) (cin : Nat) : Bool := decide (256 ≤ a.toNat + b.toNat + cin)

/-- The carry from bit 6 into bit 7 of `a + b + cin` (R261, R263). -/
def carryBit6 (a b : Byte) (cin : Nat) : Bool :=
  decide (128 ≤ (a.extractLsb' 0 7).toNat + (b.extractLsb' 0 7).toNat + cin)

/-- `a + b + cin` in one carry chain, with CF, OF, ZF and SF (R261 for `cin = 0`, R263 for `cin = 1`). -/
def addWithCarry (a b : Byte) (cin : Nat) (f : Flags) : Byte × Flags :=
  let r := BitVec.ofNat 8 (a.toNat + b.toNat + cin)
  let c7 := carryBit7 a b cin
  let c6 := carryBit6 a b cin
  (r, { f with cf := c7, ovf := c6 ^^ c7, zf := zfOf r, sf := sfOf r })

/-- `AddCore(a, b)` (R261). -/
def addCore (a b : Byte) (f : Flags) : Byte × Flags := addWithCarry a b 0 f

/-- `SubCore(a, b)` under either SUB_FLAG_MODE (R263). -/
def subCore (mode : SubFlagMode) (a b : Byte) (f : Flags) : Byte × Flags :=
  match mode with
  | .negateThenAdd => addCore a (BitVec.ofNat 8 (256 - b.toNat)) f
  | .invertCarryIn => addWithCarry a (~~~b) 1 f

/-- `CmpCore(a, b)` under either CMP_SIGNED_MODE: flags only (R264). -/
def cmpCore (mode : CmpSignedMode) (a b : Byte) (f : Flags) : Flags :=
  let c := decide (b.toNat < a.toNat)
  let d := a - b
  let o :=
    match mode with
    | .cfOriented =>
      let gt := if a.getLsbD 7 == b.getLsbD 7 then c else !a.getLsbD 7
      d.getLsbD 7 ^^ gt
    | .subOriented => (a.getLsbD 7 != b.getLsbD 7) && (d.getLsbD 7 != a.getLsbD 7)
  { f with zf := a == b, cf := c, sf := d.getLsbD 7, ovf := o }

/-- `LogicFlags(r)` under either LOGIC_CF_OF (R266). -/
def logicFlags (mode : LogicCfOf) (r : Byte) (f : Flags) : Flags :=
  match mode with
  | .unchanged => { f with zf := zfOf r, sf := sfOf r }
  | .cleared => { f with zf := zfOf r, sf := sfOf r, cf := false, ovf := false }

/-- `AndCore(a, b)` (R266). -/
def andCore (mode : LogicCfOf) (a b : Byte) (f : Flags) : Byte × Flags := (a &&& b, logicFlags mode (a &&& b) f)

/-- `OrCore(a, b)` (R266). -/
def orCore (mode : LogicCfOf) (a b : Byte) (f : Flags) : Byte × Flags := (a ||| b, logicFlags mode (a ||| b) f)

/-- `NotCore(a)` (R266). -/
def notCore (mode : LogicCfOf) (a : Byte) (f : Flags) : Byte × Flags := (~~~a, logicFlags mode (~~~a) f)

/-- The flags of a shift: ZF and SF from the result (R267). -/
def shiftFlags (r : Byte) (c o : Bool) (f : Flags) : Flags := { f with cf := c, ovf := o, zf := zfOf r, sf := sfOf r }

/-- `ShlCore(a)` (R267). -/
def shlCore (a : Byte) (f : Flags) : Byte × Flags := (a <<< 1, shiftFlags (a <<< 1) (a.getLsbD 7) false f)

/-- `SalCore(a)` (R267). -/
def salCore (a : Byte) (f : Flags) : Byte × Flags :=
  (a <<< 1, shiftFlags (a <<< 1) (a.getLsbD 7) (a.getLsbD 7 ^^ a.getLsbD 6) f)

/-- `ShrCore(a)` (R267). -/
def shrCore (a : Byte) (f : Flags) : Byte × Flags := (a >>> 1, shiftFlags (a >>> 1) (a.getLsbD 0) false f)

/-- The result of an arithmetic shift right: the sign bit stays (R267). -/
def sarResult (a : Byte) : Byte := (a >>> 1) ||| (a &&& 0x80#8)

/-- `SarCore(a)` (R267). -/
def sarCore (a : Byte) (f : Flags) : Byte × Flags := (sarResult a, shiftFlags (sarResult a) (a.getLsbD 0) false f)

/-! ### Jump conditions (43_control.md R321) -/

/-- JE is taken (R321). -/
def condJe (f : Flags) : Bool := f.zf

/-- JNE is taken (R321). -/
def condJne (f : Flags) : Bool := !f.zf

/-- JA is taken (R321). -/
def condJa (f : Flags) : Bool := !f.cf && !f.zf

/-- JAE is taken (R321). -/
def condJae (f : Flags) : Bool := !f.cf

/-- JB is taken (R321). -/
def condJb (f : Flags) : Bool := f.cf

/-- JBE is taken, under either JBE_COND (R321, R329). -/
def condJbe (mode : JbeCond) (f : Flags) : Bool :=
  match mode with
  | .cfAndZf => f.cf && f.zf
  | .cfOrZf => f.cf || f.zf

/-- JG is taken (R321). -/
def condJg (f : Flags) : Bool := !f.zf && f.sf == f.ovf

/-- JGE is taken (R321). -/
def condJge (f : Flags) : Bool := f.sf == f.ovf

/-- JL is taken (R321). -/
def condJl (f : Flags) : Bool := f.sf != f.ovf

/-- JLE is taken (R321). -/
def condJle (f : Flags) : Bool := f.zf || f.sf != f.ovf

/-- JO is taken (R321). -/
def condJo (f : Flags) : Bool := f.ovf

/-- JNO is taken (R321). -/
def condJno (f : Flags) : Bool := !f.ovf

/-- JS is taken (R321). -/
def condJs (f : Flags) : Bool := f.sf

/-- JNS is taken (R321). -/
def condJns (f : Flags) : Bool := !f.sf

end Sys2Proof.Machine
end

