-- ==== Sys2Proof/Machine/Ops.lean ====
section
/-! DEFINITION. The shared operations: register updates, bus accesses, the code stream and the stack
(00_scope.md R20, R21), the stack swap (10_state.md R44), taking an interrupt or a fault and returning from
one (60_exceptions.md R430, R434), the privilege check (60_exceptions.md R424) and the instruction-boundary
check (40_fetch.md R197). -/

namespace Sys2Proof.Machine

open Sys2Proof

/-! ### Register updates -/

/-- `AL <- v`. -/
def State.withAl (s : State) (v : Byte) : State := s.setRegs { s.regs with al := v }

/-- `AH <- v`. -/
def State.withAh (s : State) (v : Byte) : State := s.setRegs { s.regs with ah := v }

/-- AX, the pair AH:AL (00_scope.md R17). -/
def Regs.ax (r : Regs) : Word := joinBytes r.ah r.al

/-- `AH <- w[15:8]; AL <- w[7:0]`. -/
def State.withAx (s : State) (w : Word) : State := s.setRegs { s.regs with ah := hiByte w, al := loByte w }

/-- `DS <- w`. -/
def State.withDs (s : State) (w : Word) : State := s.setRegs { s.regs with ds := w }

/-- `SS <- w`. -/
def State.withSs (s : State) (w : Word) : State := s.setRegs { s.regs with ss := w }

/-- `SP <- w`. -/
def State.withSp (s : State) (w : Word) : State := s.setRegs { s.regs with sp := w }

/-- `DI <- w`. -/
def State.withDi (s : State) (w : Word) : State := s.setRegs { s.regs with di := w }

/-- `IP <- w`. -/
def State.withIp (s : State) (w : Word) : State := s.setRegs { s.regs with ip := w }

/-- `CS <- w`. -/
def State.withCs (s : State) (w : Word) : State := s.setRegs { s.regs with cs := w }

/-- `SOURCE <- v`. -/
def State.withSource (s : State) (v : Byte) : State := s.setLatch { s.latch with source := v }

/-- `OPCODE <- v`. -/
def State.withOpcode (s : State) (v : Byte) : State := s.setLatch { s.latch with opcode := v }

/-- `DEST_OFF <- w`. -/
def State.withDestOff (s : State) (w : Word) : State := s.setLatch { s.latch with destOff := w }

/-- `DEST_SEL <- sel; DEST_OFF <- off`. -/
def State.withDest (s : State) (sel off : Word) : State := s.setLatch { s.latch with destSel := sel, destOff := off }

/-- `MJR <- m`. -/
def State.withMjr (s : State) (m : MicroState) : State := s.setMicro { s.micro with mjr := m }

/-! ### Bus accesses (20_memory.md R96) -/

/-- The bus latches after a complete cycle: MAR and MBR hold its address and byte, `dir` its direction, and
every strobe is deasserted again (40_fetch.md R182, R183). -/
def State.withCycle (s : State) (a : PhysAddr) (v : Byte) (write : Bool) : State :=
  s.setBus ⟨a, v, write, false, false, false, false⟩

/-- `Bus.Read(a)` with the draw a floating or unreadable place gives (R86, R92): the byte, and the state
with the draw counted if one was taken. -/
def busRead (io : Bool) (a : PhysAddr) (s : State) : Byte × State :=
  match s.mem.read s.params.ioRouting io a with
  | some v => (v, s)
  | none => (Config.anyByte s.draws, s.nextDraw)

/-- `Bus.Write(a, v)` (R93). -/
def busWrite (io : Bool) (a : PhysAddr) (v : Byte) (s : State) : State :=
  s.setMem (s.mem.write s.params.ioRouting io a v)

/-- One read cycle: `MemRead(a, 1)`, or `IoRead(a)` where `io` (R96). -/
def readCycle (io : Bool) (a : PhysAddr) (s : State) : Byte × State :=
  let r := busRead io a s
  (r.1, r.2.withCycle a r.1 false)

/-- One write cycle: `MemWrite(a, 1, v)`, or `IoWrite(a, v)` where `io` (R96). -/
def writeCycle (io : Bool) (a : PhysAddr) (v : Byte) (s : State) : State :=
  (busWrite io a v s).withCycle a v true

/-! ### Code stream and stack (00_scope.md R21) -/

/-- `FetchCode8()`. -/
def fetchCode8 (s : State) : Byte × State :=
  let r := readCycle false (phys s.regs.cs s.regs.ip) s
  (r.1, r.2.withIp (s.regs.ip + 1))

/-- `Push8(v)`. -/
def push8 (v : Byte) (s : State) : State :=
  writeCycle false (phys s.regs.ss (s.regs.sp - 1)) v (s.withSp (s.regs.sp - 1))

/-- `Pop8()`. -/
def pop8 (s : State) : Byte × State :=
  let r := readCycle false (phys s.regs.ss s.regs.sp) s
  (r.1, r.2.withSp (s.regs.sp + 1))

/-- `Push16(w)`: the high byte first. -/
def push16 (w : Word) (s : State) : State := push8 (loByte w) (push8 (hiByte w) s)

/-- `Pop16()`: the low byte first. -/
def pop16 (s : State) : Word × State :=
  let lo := pop8 s
  let hi := pop8 lo.2
  (joinBytes hi.1 lo.1, hi.2)

/-- `StackSwap()` (10_state.md R44). -/
def stackSwap (s : State) : State :=
  s.setRegs { s.regs with ss := s.regs.prevSS, sp := s.regs.prevSP, prevSS := s.regs.ss, prevSP := s.regs.sp }

/-! ### Taking an interrupt or a fault (60_exceptions.md R430, R431) -/

/-- The swap at entry: only from user mode (R430). -/
def swapIfUser (s : State) : State := if s.flags.us then stackSwap s else s

/-- The five pushes of entry: the flag byte, IP high and low, CS high and low (R430). -/
def pushFrame (s : State) : State :=
  push16 s.regs.cs (push16 s.regs.ip (push8 (flagsByte s.params.flagsLayout s.flags) s))

/-- The physical address of byte `k` of the descriptor of vector `v`, selector 0 (R430, R431). -/
def vectorAddr (v : Byte) (k : Nat) : PhysAddr := phys 0 (v.setWidth 16 * 4#16 + BitVec.ofNat 16 k)

/-- `Descriptor(d0, d1, d2, d3)`: the new IP and CS under VECTOR_LAYOUT (R431). -/
def descriptor (l : VectorLayout) (d : List Byte) : Word × Word :=
  (joinBytes (d.getD l.ipHi.val 0) (d.getD l.ipLo.val 0), joinBytes (d.getD l.csHi.val 0) (d.getD l.csLo.val 0))

/-- The four bytes of a descriptor under VECTOR_LAYOUT, as a vector image or software builds it (R431,
90_conflicts.md C8): the byte at each field's place. -/
def descriptorBytes (l : VectorLayout) (ip cs : Word) : List Byte :=
  (List.range 4).map fun k =>
    if k = l.ipLo.val then loByte ip
    else if k = l.ipHi.val then hiByte ip
    else if k = l.csLo.val then loByte cs
    else hiByte cs

/-- The four descriptor reads of entry, in address order (R430). -/
def readVector (v : Byte) (s : State) : List Byte × State :=
  let d0 := readCycle false (vectorAddr v 0) s
  let d1 := readCycle false (vectorAddr v 1) d0.2
  let d2 := readCycle false (vectorAddr v 2) d1.2
  let d3 := readCycle false (vectorAddr v 3) d2.2
  ([d0.1, d1.1, d2.1, d3.1], d3.2)

/-- Where the vector number comes from: for a hardware interrupt SOURCE takes `irq_vector` at acknowledge
(R428, R430); otherwise SOURCE already holds it. -/
def takeVector (kind : IntKind) (s : State) : State :=
  match kind with
  | .hw => s.withSource s.irq.vector
  | .sw => s
  | .fault => s

/-- Read the descriptor SOURCE selects and go to its handler (R430). -/
def enterHandler (s : State) : State :=
  let r := readVector s.latch.source s
  let t := descriptor s.params.vectorLayout r.1
  (r.2.withIp t.1).withCs t.2

/-- `Interrupt(kind, v)`: interrupt entry, for every kind, with `v` in SOURCE for `sw` and `fault` (R430).
The pulse of `irq_ack` of a hardware entry is over when entry ends; Micro.lean shows it (log 9). -/
def interrupt (kind : IntKind) (s : State) : State :=
  enterHandler (takeVector kind ((pushFrame (swapIfUser s)).setFlags Flags.cleared))

/-- A fault: its vector number into SOURCE, then entry (00_scope.md R22, R422, R424). -/
def raiseFault (vector : Byte) (s : State) : State := interrupt .fault (s.withSource vector)

/-! ### Returning (45_system.md R386) -/

/-- Return from interrupt: pop CS, IP and the flag byte; swap the stack pair if the restored mode is user
mode (R386, R434). -/
def returnFromInterrupt (s : State) : State :=
  let c := pop16 s
  let i := pop16 c.2
  let f := pop8 i.2
  swapIfUser (((f.2.withCs c.1).withIp i.1).setFlags (flagsOfByte s.params.flagsLayout f.1))

/-! ### The privilege check and the boundary check -/

/-- The instruction is in PRIV_SET and the machine is in user mode (R424). -/
def State.blocked (s : State) (op : Op) : Bool := s.flags.us && s.params.privSet.contains op

/-- The privilege-violation fault (R424). -/
def privilegeFault (s : State) : State := raiseFault s.params.vecPrivViolation s

/-- A meaning with the privilege check before it (45_system.md R385). A meaning starts with IP past the
instruction's last byte (10_state.md R41); the fault is taken with IP one past the opcode, as R424 says,
so IP steps back over the operand bytes, which the fault leaves unfetched. -/
def guarded (op : Op) (s : State) (effect : State → State) : Result :=
  if s.blocked op then .next (privilegeFault (s.withIp (s.regs.ip - BitVec.ofNat 16 op.fmt.operandBytes)))
  else .next (effect s)

/-- The instruction-boundary check (40_fetch.md R197, R199): a pending hardware interrupt is taken if IF is
set and the machine has not halted. After INT or a fault IF is 0, so nothing is taken there (log 17). -/
def boundaryCheck (s : State) : State :=
  if !s.micro.halted && s.flags.ie && s.irq.pending then interrupt .hw s else s

/-- The byte that cell `a` of device number `dev` holds: the one read of memory that frames are stated
with. -/
def State.cell (s : State) (dev a : Nat) : Byte := s.mem.cell dev a

/-- The device that an access selects (20_memory.md R91, R96). -/
def State.select (s : State) (io : Bool) (a : PhysAddr) : Option Nat := s.mem.select s.params.ioRouting io a

end Sys2Proof.Machine
end

