-- ==== Sys2Proof/Machine/Operands.lean ====
section
/-! DEFINITION. The operand phase of every operand form (30_encoding.md R132, R138; 40_fetch.md R188 to
R195): what it latches and which data access it makes. The code bytes themselves are read by Fetch.lean;
the values come here from the decoded instruction. -/

namespace Sys2Proof.Machine

open Sys2Proof

/-- F1: SOURCE <- the byte at DS:DI (R189). -/
def operandDi (s : State) : State :=
  let r := readCycle false (phys s.regs.ds s.regs.di) s
  r.2.withSource r.1

/-- F2: DEST <- DS:DI (R190). -/
def operandDestDi (s : State) : State := s.withDest s.regs.ds s.regs.di

/-- F3: SOURCE <- imm8 (R191). -/
def operandImm (imm : Byte) (s : State) : State := s.withSource imm

/-- The data read of F4 at a selector and the offset in DEST_OFF: SOURCE <- the byte (R192). -/
def readEffective (io : Bool) (sel : Word) (s : State) : State :=
  let r := readCycle io (phys sel s.latch.destOff) s
  r.2.withSource r.1

/-- F4: SOURCE <- the byte at DS:disp16; the displacement passes through DEST_OFF (R192). -/
def operandD16 (disp : Word) (s : State) : State := readEffective false s.regs.ds (s.withDestOff disp)

/-- F4 for IN: SOURCE <- the byte at port16, read with the I/O strobe at selector 0 (R192). -/
def operandInPort (port : Word) (s : State) : State := readEffective true 0 (s.withDestOff port)

/-- F5: DEST <- DS:off16 (R193). -/
def operandDestD16 (off : Word) (s : State) : State := s.withDest s.regs.ds off

/-- F5 for OUT: DEST <- 0:port16 (R193). -/
def operandOutPort (port : Word) (s : State) : State := s.withDest 0 port

/-- F6: DEST <- CS:off16 (R194). -/
def operandNear (off : Word) (s : State) : State := s.withDest s.regs.cs off

/-- F7: DEST <- sel16:off16 (R195). -/
def operandFar (sel off : Word) (s : State) : State := s.withDest sel off

end Sys2Proof.Machine
end

