-- ==== Sys2Proof/Machine/Alu.lean ====
section
/-! DEFINITION. ALU instructions (42_alu.md). The first operand is AL, the second SOURCE as the operand phase latched it
(R260). -/

namespace Sys2Proof.Machine

open Sys2Proof

/-! ### Effects of the execute phase -/

/-- Write an ALU result to AL, and the flags (R260). -/
def aluWrite (s : State) (r : Byte × Flags) : State := (s.withAl r.1).setFlags r.2

/-- `AL <- AddCore(AL, SOURCE)` (R261). -/
def actAdd (s : State) : State :=
  aluWrite s (addCore s.regs.al s.latch.source s.flags)

/-- `AL <- SubCore(AL, SOURCE)` (R263). -/
def actSub (s : State) : State :=
  aluWrite s (subCore s.params.subFlagMode s.regs.al s.latch.source s.flags)

/-- `AL <- AndCore(AL, SOURCE)` (R266). -/
def actAnd (s : State) : State :=
  aluWrite s (andCore s.params.logicCfOf s.regs.al s.latch.source s.flags)

/-- `AL <- OrCore(AL, SOURCE)` (R266). -/
def actOr (s : State) : State :=
  aluWrite s (orCore s.params.logicCfOf s.regs.al s.latch.source s.flags)

/-- `CmpCore(AL, SOURCE)`: flags only, no register (R264). -/
def actCmp (s : State) : State :=
  s.setFlags (cmpCore s.params.cmpSignedMode s.regs.al s.latch.source s.flags)

/-- `AL <- NotCore(AL)` (R266, R283). -/
def actNot (s : State) : State := aluWrite s (notCore s.params.logicCfOf s.regs.al s.flags)

/-- `AL <- ShlCore(AL)` (R267). -/
def actShl (s : State) : State := aluWrite s (shlCore s.regs.al s.flags)

/-- `AL <- SalCore(AL)` (R267). -/
def actSal (s : State) : State := aluWrite s (salCore s.regs.al s.flags)

/-- `AL <- ShrCore(AL)` (R267). -/
def actShr (s : State) : State := aluWrite s (shrCore s.regs.al s.flags)

/-- `AL <- SarCore(AL)` (R267). -/
def actSar (s : State) : State := aluWrite s (sarCore s.regs.al s.flags)

/-! ### ADD -/

/-- ADD_DI, `add [di],al` (R268). -/
def execAddDi (s : State) : Result :=
  guarded .addDi s fun t => actAdd (operandDi t)

/-- ADD_IMM, `add $imm8,al` (R269). -/
def execAddImm (imm : Byte) (s : State) : Result :=
  guarded .addImm s fun t => actAdd (operandImm imm t)

/-- ADD_D16, `add [addr16],al` (R270). -/
def execAddD16 (disp : Word) (s : State) : Result :=
  guarded .addD16 s fun t => actAdd (operandD16 disp t)

/-! ### SUB -/

/-- SUB_DI, `sub [di],al` (R271). -/
def execSubDi (s : State) : Result :=
  guarded .subDi s fun t => actSub (operandDi t)

/-- SUB_IMM, `sub $imm8,al` (R272). -/
def execSubImm (imm : Byte) (s : State) : Result :=
  guarded .subImm s fun t => actSub (operandImm imm t)

/-- SUB_D16, `sub [addr16],al` (R273). -/
def execSubD16 (disp : Word) (s : State) : Result :=
  guarded .subD16 s fun t => actSub (operandD16 disp t)

/-! ### AND -/

/-- AND_DI, `and [di],al` (R274). -/
def execAndDi (s : State) : Result :=
  guarded .andDi s fun t => actAnd (operandDi t)

/-- AND_IMM, `and $imm8,al` (R275). -/
def execAndImm (imm : Byte) (s : State) : Result :=
  guarded .andImm s fun t => actAnd (operandImm imm t)

/-- AND_D16, `and [addr16],al` (R276). -/
def execAndD16 (disp : Word) (s : State) : Result :=
  guarded .andD16 s fun t => actAnd (operandD16 disp t)

/-! ### OR -/

/-- OR_DI, `or [di],al` (R277). -/
def execOrDi (s : State) : Result :=
  guarded .orDi s fun t => actOr (operandDi t)

/-- OR_IMM, `or $imm8,al` (R278). -/
def execOrImm (imm : Byte) (s : State) : Result :=
  guarded .orImm s fun t => actOr (operandImm imm t)

/-- OR_D16, `or [addr16],al` (R279). -/
def execOrD16 (disp : Word) (s : State) : Result :=
  guarded .orD16 s fun t => actOr (operandD16 disp t)

/-! ### CMP -/

/-- CMP_DI, `cmp [di],al` (R280). -/
def execCmpDi (s : State) : Result :=
  guarded .cmpDi s fun t => actCmp (operandDi t)

/-- CMP_IMM, `cmp $imm8,al` (R281). -/
def execCmpImm (imm : Byte) (s : State) : Result :=
  guarded .cmpImm s fun t => actCmp (operandImm imm t)

/-- CMP_D16, `cmp [addr16],al` (R282). -/
def execCmpD16 (disp : Word) (s : State) : Result :=
  guarded .cmpD16 s fun t => actCmp (operandD16 disp t)

/-! ### NOT and shifts (F0) -/

/-- NOT, `not al` (R283). -/
def execNotAl (s : State) : Result :=
  guarded .notAl s actNot

/-- SHL, `shl al` (R284). -/
def execShl (s : State) : Result :=
  guarded .shl s actShl

/-- SAL, `sal al` (R285). -/
def execSal (s : State) : Result :=
  guarded .sal s actSal

/-- SHR, `shr al` (R286). -/
def execShr (s : State) : Result :=
  guarded .shr s actShr

/-- SAR, `sar al` (R287). -/
def execSar (s : State) : Result :=
  guarded .sar s actSar

end Sys2Proof.Machine
end

