-- ==== Sys2Proof/Machine/Control.lean ====
section
/-! DEFINITION. Control transfer instructions (43_control.md). A meaning starts with IP at the next instruction (R320). -/

namespace Sys2Proof.Machine

open Sys2Proof

/-! ### Effects of the execute phase -/

/-- A near jump: `IP <- DEST_OFF` if taken, CS unchanged (R322). -/
def actJump (taken : Bool) (s : State) : State := if taken then s.withIp s.latch.destOff else s

/-- `Push16(IP); IP <- DEST_OFF` (R338). -/
def actCall (s : State) : State := (push16 s.regs.ip s).withIp s.latch.destOff

/-- `CS <- DEST_SEL; IP <- DEST_OFF` (R339). -/
def actJmpf (s : State) : State := (s.withCs s.latch.destSel).withIp s.latch.destOff

/-- `Push16(IP); Push16(CS); CS <- DEST_SEL; IP <- DEST_OFF` (R340). -/
def actCallf (s : State) : State :=
  ((push16 s.regs.cs (push16 s.regs.ip s)).withCs s.latch.destSel).withIp s.latch.destOff

/-- `IP <- Pop16()` (R341). -/
def actRet (s : State) : State :=
  let i := pop16 s
  i.2.withIp i.1

/-- `CS <- Pop16(); IP <- Pop16()` (R342). -/
def actRetf (s : State) : State :=
  let c := pop16 s
  let i := pop16 c.2
  (i.2.withCs c.1).withIp i.1

/-! ### Near jumps (F6) -/

/-- JMP, `jmp off16` (R323). -/
def execJmp (off : Word) (s : State) : Result :=
  guarded .jmp s fun t => actJump true (operandNear off t)

/-- JE, `je off16` (R324). -/
def execJe (off : Word) (s : State) : Result :=
  guarded .je s fun t => actJump (condJe t.flags) (operandNear off t)

/-- JNE, `jne off16` (R325). -/
def execJne (off : Word) (s : State) : Result :=
  guarded .jne s fun t => actJump (condJne t.flags) (operandNear off t)

/-- JA, `ja off16` (R326). -/
def execJa (off : Word) (s : State) : Result :=
  guarded .ja s fun t => actJump (condJa t.flags) (operandNear off t)

/-- JAE, `jae off16` (R327). -/
def execJae (off : Word) (s : State) : Result :=
  guarded .jae s fun t => actJump (condJae t.flags) (operandNear off t)

/-- JB, `jb off16` (R328). -/
def execJb (off : Word) (s : State) : Result :=
  guarded .jb s fun t => actJump (condJb t.flags) (operandNear off t)

/-- JBE, `jbe off16` (R329). -/
def execJbe (off : Word) (s : State) : Result :=
  guarded .jbe s fun t => actJump (condJbe t.params.jbeCond t.flags) (operandNear off t)

/-- JG, `jg off16` (R330). -/
def execJg (off : Word) (s : State) : Result :=
  guarded .jg s fun t => actJump (condJg t.flags) (operandNear off t)

/-- JGE, `jge off16` (R331). -/
def execJge (off : Word) (s : State) : Result :=
  guarded .jge s fun t => actJump (condJge t.flags) (operandNear off t)

/-- JL, `jl off16` (R332). -/
def execJl (off : Word) (s : State) : Result :=
  guarded .jl s fun t => actJump (condJl t.flags) (operandNear off t)

/-- JLE, `jle off16` (R333). -/
def execJle (off : Word) (s : State) : Result :=
  guarded .jle s fun t => actJump (condJle t.flags) (operandNear off t)

/-- JO, `jo off16` (R334). -/
def execJo (off : Word) (s : State) : Result :=
  guarded .jo s fun t => actJump (condJo t.flags) (operandNear off t)

/-- JNO, `jno off16` (R335). -/
def execJno (off : Word) (s : State) : Result :=
  guarded .jno s fun t => actJump (condJno t.flags) (operandNear off t)

/-- JS, `js off16` (R336). -/
def execJs (off : Word) (s : State) : Result :=
  guarded .js s fun t => actJump (condJs t.flags) (operandNear off t)

/-- JNS, `jns off16` (R337). -/
def execJns (off : Word) (s : State) : Result :=
  guarded .jns s fun t => actJump (condJns t.flags) (operandNear off t)

/-! ### Calls, far jump and returns -/

/-- CALL, `call off16` (R338). -/
def execCall (off : Word) (s : State) : Result :=
  guarded .call s fun t => actCall (operandNear off t)

/-- JMPF, `jmpf sel16:off16` (R339). -/
def execJmpf (sel : Word) (off : Word) (s : State) : Result :=
  guarded .jmpf s fun t => actJmpf (operandFar sel off t)

/-- CALLF, `callf sel16:off16` (R340). -/
def execCallf (sel : Word) (off : Word) (s : State) : Result :=
  guarded .callf s fun t => actCallf (operandFar sel off t)

/-- RET, `ret` (R341). -/
def execRet (s : State) : Result :=
  guarded .ret s actRet

/-- RETF, `retf` (R342). -/
def execRetf (s : State) : Result :=
  guarded .retf s actRetf

end Sys2Proof.Machine
end

