-- ==== Sys2Proof/Machine/Moves.lean ====
section
/-! DEFINITION. Register moves, loads, stores, IN and OUT (41_moves.md). No instruction of the family writes a flag
(R221); each meaning is the privilege check, the operand phase and the effect. -/

namespace Sys2Proof.Machine

open Sys2Proof

/-! ### Effects of the execute phase

Each is what the instruction's pseudocode does after its operand phase; Micro.lean performs the register
ones in `EXEC_END`. -/

/-- `AH <- AL` (R222). -/
def actMovAlAh (s : State) : State := s.withAh s.regs.al

/-- `AL <- AH` (R223). -/
def actMovAhAl (s : State) : State := s.withAl s.regs.ah

/-- `DS <- AH:AL` (R224). -/
def actMovAxDs (s : State) : State := s.withDs s.regs.ax

/-- `SS <- AH:AL` (R225). -/
def actMovAxSs (s : State) : State := s.withSs s.regs.ax

/-- `SP <- AH:AL` (R226). -/
def actMovAxSp (s : State) : State := s.withSp s.regs.ax

/-- `DI <- AH:AL` (R227). -/
def actMovAxDi (s : State) : State := s.withDi s.regs.ax

/-- `AH:AL <- DS` (R228). -/
def actMovDsAx (s : State) : State := s.withAx s.regs.ds

/-- `AH:AL <- SS` (R229). -/
def actMovSsAx (s : State) : State := s.withAx s.regs.ss

/-- `AH:AL <- SP` (R230). -/
def actMovSpAx (s : State) : State := s.withAx s.regs.sp

/-- `AH:AL <- DI` (R231). -/
def actMovDiAx (s : State) : State := s.withAx s.regs.di

/-- `AH:AL <- CS` (R232). -/
def actMovCsAx (s : State) : State := s.withAx s.regs.cs

/-- `AL <- SOURCE`: every load, and IN (R233, R234, R235, R238). -/
def actLoad (s : State) : State := s.withAl s.latch.source

/-- Write AL to DEST with the memory strobe, or the I/O strobe for OUT (R236, R237, R239). -/
def actStore (io : Bool) (s : State) : State := writeCycle io (phys s.latch.destSel s.latch.destOff) s.regs.al s

/-! ### Register moves (F0) -/

/-- MOV_AL_AH, `mov al,ah` (R222). -/
def execMovAlAh (s : State) : Result :=
  guarded .movAlAh s actMovAlAh

/-- MOV_AH_AL, `mov ah,al` (R223). -/
def execMovAhAl (s : State) : Result :=
  guarded .movAhAl s actMovAhAl

/-- MOV_AX_DS, `mov ax,ds` (R224). -/
def execMovAxDs (s : State) : Result :=
  guarded .movAxDs s actMovAxDs

/-- MOV_AX_SS, `mov ax,ss` (R225). -/
def execMovAxSs (s : State) : Result :=
  guarded .movAxSs s actMovAxSs

/-- MOV_AX_SP, `mov ax,sp` (R226). -/
def execMovAxSp (s : State) : Result :=
  guarded .movAxSp s actMovAxSp

/-- MOV_AX_DI, `mov ax,di` (R227). -/
def execMovAxDi (s : State) : Result :=
  guarded .movAxDi s actMovAxDi

/-- MOV_DS_AX, `mov ds,ax` (R228). -/
def execMovDsAx (s : State) : Result :=
  guarded .movDsAx s actMovDsAx

/-- MOV_SS_AX, `mov ss,ax` (R229). -/
def execMovSsAx (s : State) : Result :=
  guarded .movSsAx s actMovSsAx

/-- MOV_SP_AX, `mov sp,ax` (R230). -/
def execMovSpAx (s : State) : Result :=
  guarded .movSpAx s actMovSpAx

/-- MOV_DI_AX, `mov di,ax` (R231). -/
def execMovDiAx (s : State) : Result :=
  guarded .movDiAx s actMovDiAx

/-- MOV_CS_AX, `mov cs,ax` (R232). -/
def execMovCsAx (s : State) : Result :=
  guarded .movCsAx s actMovCsAx

/-! ### Loads (F1, F3, F4) -/

/-- LD_DI, `mov [di],al` (R233). -/
def execLdDi (s : State) : Result :=
  guarded .ldDi s fun t => actLoad (operandDi t)

/-- LD_IMM, `mov $imm8,al` (R234). -/
def execLdImm (imm : Byte) (s : State) : Result :=
  guarded .ldImm s fun t => actLoad (operandImm imm t)

/-- LD_D16, `mov [addr16],al` (R235). -/
def execLdD16 (disp : Word) (s : State) : Result :=
  guarded .ldD16 s fun t => actLoad (operandD16 disp t)

/-- IN, `in port16,al` (R238). -/
def execInPort (port : Word) (s : State) : Result :=
  guarded .inPort s fun t => actLoad (operandInPort port t)

/-! ### Stores (F2, F5) -/

/-- ST_DI, `mov al,[di]` (R236). -/
def execStDi (s : State) : Result :=
  guarded .stDi s fun t => actStore false (operandDestDi t)

/-- ST_D16, `mov al,[addr16]` (R237). -/
def execStD16 (off : Word) (s : State) : Result :=
  guarded .stD16 s fun t => actStore false (operandDestD16 off t)

/-- OUT, `out al,port16` (R239). -/
def execOutPort (port : Word) (s : State) : Result :=
  guarded .outPort s fun t => actStore true (operandOutPort port t)

end Sys2Proof.Machine
end

