-- ==== Sys2Proof/Machine/Stack.lean ====
section
/-! DEFINITION. Stack instructions (44_stack.md). -/

namespace Sys2Proof.Machine

open Sys2Proof

/-- `Push8(AL)` (R361). -/
def actPushAl (s : State) : State := push8 s.regs.al s

/-- `AL <- Pop8()` (R362). -/
def actPopAl (s : State) : State :=
  let r := pop8 s
  r.2.withAl r.1

/-- PUSH_AL, `push al` (R361). -/
def execPushAl (s : State) : Result :=
  guarded .pushAl s actPushAl

/-- POP_AL, `pop al` (R362). -/
def execPopAl (s : State) : Result :=
  guarded .popAl s actPopAl

end Sys2Proof.Machine
end

