-- ==== Sys2Proof/Machine/System.lean ====
section
/-! DEFINITION. System instructions (45_system.md). -/

namespace Sys2Proof.Machine

open Sys2Proof

/-! ### Effects of the execute phase -/

/-- `FLAGS.IF <- b` (R382, R383). -/
def actSetIf (b : Bool) (s : State) : State := s.setFlags { s.flags with ie := b }

/-- `FLAGS.US <- 1`, no stack swap (R388). -/
def actStum (s : State) : State := s.setFlags { s.flags with us := true }

/-- `halted <- 1; STAR <- HALT` (R381). -/
def actHlt (s : State) : State := s.setMicro { s.micro with halted := true, star := .halt }

/-! ### Unprivileged under the default PRIV_SET -/

/-- NOP, `nop` (R380). -/
def execNop (s : State) : Result :=
  guarded .nop s id

/-- INT, `int $imm8` (R384). -/
def execIntImm (vector : Byte) (s : State) : Result :=
  guarded .intImm s fun t => interrupt .sw (operandImm vector t)

/-! ### Privileged under the default PRIV_SET (R385) -/

/-- CLI, `cli` (R382). -/
def execCli (s : State) : Result :=
  guarded .cli s (actSetIf false)

/-- STI, `sti` (R383). -/
def execSti (s : State) : Result :=
  guarded .sti s (actSetIf true)

/-- HLT, `hlt` (R381). -/
def execHlt (s : State) : Result :=
  guarded .hlt s actHlt

/-- IRET, `iret` (R386). -/
def execIret (s : State) : Result :=
  guarded .iret s returnFromInterrupt

/-- LDPSR, `ldpsr` (R387). -/
def execLdpsr (s : State) : Result :=
  guarded .ldpsr s stackSwap

/-- STUM, `stum` (R388). -/
def execStum (s : State) : Result :=
  guarded .stum s actStum

end Sys2Proof.Machine
end

