-- ==== Sys2Proof/Machine/Dispatch.lean ====
section
/-! DEFINITION. The meaning of every instruction, one arm per row of spec/opcode_table.json. -/

namespace Sys2Proof.Machine

open Sys2Proof

def exec (i : Instr) (s : State) : Host.Outcome State Fault Refusal :=
  match i with
  | .nop => Sys2Proof.Machine.execNop s
  | .hlt => Sys2Proof.Machine.execHlt s
  | .movAlAh => Sys2Proof.Machine.execMovAlAh s
  | .movAhAl => Sys2Proof.Machine.execMovAhAl s
  | .movAxDs => Sys2Proof.Machine.execMovAxDs s
  | .movAxSs => Sys2Proof.Machine.execMovAxSs s
  | .movAxSp => Sys2Proof.Machine.execMovAxSp s
  | .movAxDi => Sys2Proof.Machine.execMovAxDi s
  | .movDsAx => Sys2Proof.Machine.execMovDsAx s
  | .movSsAx => Sys2Proof.Machine.execMovSsAx s
  | .movSpAx => Sys2Proof.Machine.execMovSpAx s
  | .movDiAx => Sys2Proof.Machine.execMovDiAx s
  | .movCsAx => Sys2Proof.Machine.execMovCsAx s
  | .pushAl => Sys2Proof.Machine.execPushAl s
  | .popAl => Sys2Proof.Machine.execPopAl s
  | .notAl => Sys2Proof.Machine.execNotAl s
  | .shl => Sys2Proof.Machine.execShl s
  | .sal => Sys2Proof.Machine.execSal s
  | .shr => Sys2Proof.Machine.execShr s
  | .sar => Sys2Proof.Machine.execSar s
  | .ret => Sys2Proof.Machine.execRet s
  | .retf => Sys2Proof.Machine.execRetf s
  | .iret => Sys2Proof.Machine.execIret s
  | .cli => Sys2Proof.Machine.execCli s
  | .sti => Sys2Proof.Machine.execSti s
  | .ldpsr => Sys2Proof.Machine.execLdpsr s
  | .stum => Sys2Proof.Machine.execStum s
  | .ldDi => Sys2Proof.Machine.execLdDi s
  | .addDi => Sys2Proof.Machine.execAddDi s
  | .subDi => Sys2Proof.Machine.execSubDi s
  | .andDi => Sys2Proof.Machine.execAndDi s
  | .orDi => Sys2Proof.Machine.execOrDi s
  | .cmpDi => Sys2Proof.Machine.execCmpDi s
  | .stDi => Sys2Proof.Machine.execStDi s
  | .ldImm imm => Sys2Proof.Machine.execLdImm imm s
  | .addImm imm => Sys2Proof.Machine.execAddImm imm s
  | .subImm imm => Sys2Proof.Machine.execSubImm imm s
  | .andImm imm => Sys2Proof.Machine.execAndImm imm s
  | .orImm imm => Sys2Proof.Machine.execOrImm imm s
  | .cmpImm imm => Sys2Proof.Machine.execCmpImm imm s
  | .intImm vector => Sys2Proof.Machine.execIntImm vector s
  | .ldD16 disp => Sys2Proof.Machine.execLdD16 disp s
  | .addD16 disp => Sys2Proof.Machine.execAddD16 disp s
  | .subD16 disp => Sys2Proof.Machine.execSubD16 disp s
  | .andD16 disp => Sys2Proof.Machine.execAndD16 disp s
  | .orD16 disp => Sys2Proof.Machine.execOrD16 disp s
  | .cmpD16 disp => Sys2Proof.Machine.execCmpD16 disp s
  | .inPort port => Sys2Proof.Machine.execInPort port s
  | .stD16 off => Sys2Proof.Machine.execStD16 off s
  | .outPort port => Sys2Proof.Machine.execOutPort port s
  | .jmp off => Sys2Proof.Machine.execJmp off s
  | .je off => Sys2Proof.Machine.execJe off s
  | .jne off => Sys2Proof.Machine.execJne off s
  | .ja off => Sys2Proof.Machine.execJa off s
  | .jae off => Sys2Proof.Machine.execJae off s
  | .jb off => Sys2Proof.Machine.execJb off s
  | .jbe off => Sys2Proof.Machine.execJbe off s
  | .jg off => Sys2Proof.Machine.execJg off s
  | .jge off => Sys2Proof.Machine.execJge off s
  | .jl off => Sys2Proof.Machine.execJl off s
  | .jle off => Sys2Proof.Machine.execJle off s
  | .jo off => Sys2Proof.Machine.execJo off s
  | .jno off => Sys2Proof.Machine.execJno off s
  | .js off => Sys2Proof.Machine.execJs off s
  | .jns off => Sys2Proof.Machine.execJns off s
  | .call off => Sys2Proof.Machine.execCall off s
  | .jmpf sel off => Sys2Proof.Machine.execJmpf sel off s
  | .callf sel off => Sys2Proof.Machine.execCallf sel off s

end Sys2Proof.Machine
end

