-- ==== Sys2Proof/Machine/Fetch.lean ====
section
/-! DEFINITION. Opcode fetch, validation and the fetch of the operand bytes (40_fetch.md R184, R185, R191 to
R195): the part of the instruction-level step (R199) before an instruction executes. -/

namespace Sys2Proof.Machine

open Sys2Proof

/-- The operation category of an instruction (40_fetch.md R187); NOP and HLT have none. -/
def categoryOf : Op → Option Category
  | .nop | .hlt => none
  | .movAlAh | .movAhAl | .movAxDs | .movAxSs | .movAxSp | .movAxDi
  | .movDsAx | .movSsAx | .movSpAx | .movDiAx | .movCsAx => some .registerMove
  | .addDi | .addImm | .addD16 | .subDi | .subImm | .subD16 | .andDi | .andImm | .andD16
  | .orDi | .orImm | .orD16 | .cmpDi | .cmpImm | .cmpD16 | .notAl | .shl | .sal | .shr | .sar => some .alu
  | .ldDi | .ldImm | .ldD16 | .inPort => some .load
  | .stDi | .stD16 | .outPort => some .store
  | .jmp | .je | .jne | .ja | .jae | .jb | .jbe | .jg | .jge | .jl | .jle | .jo | .jno | .js | .jns
  | .jmpf => some .jump
  | .pushAl => some .push
  | .popAl => some .pop
  | .call | .callf => some .call
  | .ret | .retf => some .ret
  | .intImm => some .softwareInterrupt
  | .iret => some .returnFromInterrupt
  | .cli | .sti => some .flagBit
  | .ldpsr | .stum => some .registerSwap

/-- The execute entry that opcode fetch puts into MJR: the category's, `EXEC_END` for NOP and `HALT` for HLT
(R185, R187; log 16). -/
def executeEntry (op : Op) : MicroState :=
  match categoryOf op with
  | some c => .execute c
  | none => if op = .hlt then .halt else .execEnd

/-- Opcode fetch: `OPCODE <- FetchCode8()` (R184). -/
def fetchOpcode (s : State) : State :=
  let r := fetchCode8 s
  r.2.withOpcode r.1

/-- The next `n` code bytes, in stream order, and the state after their reads. -/
def fetchBytes : Nat → State → List Byte × State
  | 0, s => ([], s)
  | n + 1, s =>
    let b := fetchCode8 s
    let r := fetchBytes n b.2
    (b.1 :: r.1, r.2)

/-- The bytes the machine would fetch next from its code stream. -/
def codeBytes (n : Nat) (s : State) : List Byte := (fetchBytes n s).1

/-- The operand bytes of an instruction whose opcode has been fetched: the instruction they make, and the
state after their reads, with the execute entry in MJR (R185, R191 to R195). -/
def fetchOperands (op : Op) (s : State) : Instr × State :=
  let r := fetchBytes op.fmt.operandBytes (s.withMjr (executeEntry op))
  (assemble s.params.farPtrLayout op (r.1.getD 0 0) (r.1.getD 1 0) (r.1.getD 2 0) (r.1.getD 3 0), r.2)

/-- What opcode fetch and validation lead to. -/
inductive Fetched where
  /-- The macro-step is over: the machine is halted, or a fault has been taken. -/
  | done (s : State)
  /-- An instruction to execute, and the state its meaning starts from. -/
  | run (i : Instr) (s : State)
  deriving DecidableEq, Repr

/-- The macro-step up to the execute phase (R185, R198, R199): a halted machine stays as it is; an
unassigned byte takes the invalid-opcode fault; a privileged instruction in user mode takes the
privilege-violation fault before its operand bytes are fetched. -/
def fetchInstr (s : State) : Fetched :=
  if s.micro.halted then .done s
  else
    let t := fetchOpcode s
    match lookupOp s.params.opcodeMap t.latch.opcode with
    | none => .done (raiseFault s.params.vecInvalidOpcode t)
    | some op =>
      if t.blocked op then .done (privilegeFault t)
      else
        let r := fetchOperands op t
        .run r.1 r.2

/-- Store bytes where the code stream reads them from `CS:off` on, whatever `writeable` says, as an image is
loaded (20_memory.md R89). -/
def loadCode (off : Word) : List Byte → State → State
  | [], s => s
  | b :: bs, s => loadCode (off + 1) bs (s.setMem (s.mem.load s.params.ioRouting (phys s.regs.cs off) b))

end Sys2Proof.Machine
end

