-- ==== Sys2Proof/Machine/Step.lean ====
section
/-! DEFINITION. One instruction-level step, the MacroStep of 40_fetch.md R199, and where it fetches its
next instruction from. -/

namespace Sys2Proof.Machine

open Sys2Proof

/-- One macro-step (40_fetch.md R199): fetch and validate, execute, then the instruction-boundary check. -/
def step (s : State) : Host.Outcome State Fault Refusal :=
  match fetchInstr s with
  | .done t => .next t
  | .run i t =>
    match exec i t with
    | .next u => .next (boundaryCheck u)
    | .fault r => .fault r
    | .refused r => .refused r

/-- The state with an instruction word stored at CS:IP, where `step` fetches next. It stands for loading a
program image (20_memory.md R117; log 14). -/
def State.withFetchWord (s : State) (nbits w : Nat) : State := loadCode s.regs.ip (wordBytes nbits w) s

end Sys2Proof.Machine
end

