-- ==== Sys2Proof/Machine/Micro.lean ====
section
/-! DEFINITION. The micro-state machine (40_fetch.md sections 1 to 4, 60_exceptions.md R430): one clock of
the reference design, with STAR, MJR, the bus latches and the strobes. `step` of Step.lean is the same
machine at the instruction level; R200 says they agree at every `FETCH_ADDR`. Where the spec gives no clock
of its own to `X_<category>` (70_reset_and_hazards.md R492), that state is the first bus micro-op of its
category, or `EXEC_END` for a category without one (log 11). -/

namespace Sys2Proof.Machine

open Sys2Proof

/-! ### Strobes and small updates -/

/-- Every strobe deasserted (R183). -/
def BusLatches.quiet (b : BusLatches) : BusLatches :=
  { b with memr := false, memw := false, ior := false, iow := false }

/-- Deassert every strobe (R183). -/
def State.quiet (s : State) : State := s.setBus s.bus.quiet

/-- `STAR <- m`. -/
def State.goto (s : State) (m : MicroState) : State := s.setMicro { s.micro with star := m }

/-- Set up a read cycle: `MAR <- a; dir <- 0` (R182). -/
def State.aimRead (s : State) (a : PhysAddr) : State := s.setBus { s.bus.quiet with mar := a, dir := false }

/-- Set up a write cycle: `MAR <- a; MBR <- v; dir <- 1` (R182). -/
def State.aimWrite (s : State) (a : PhysAddr) (v : Byte) : State :=
  s.setBus { s.bus.quiet with mar := a, mbr := v, dir := true }

/-- Assert the read strobe, `ior` for an I/O read (R182). -/
def State.strobeRead (s : State) (io : Bool) : State :=
  s.setBus { s.bus.quiet with memr := !io, ior := io }

/-- Assert the write strobe, `iow` for an I/O write (R182). -/
def State.strobeWrite (s : State) (io : Bool) : State :=
  s.setBus { s.bus.quiet with memw := !io, iow := io }

/-- Remember MBR as the next byte read by this phase. -/
def State.keepByte (s : State) : State := s.setMicro { s.micro with tmp := s.micro.tmp ++ [s.bus.mbr] }

/-- Forget the bytes this phase has read. -/
def State.dropBytes (s : State) : State := s.setMicro { s.micro with tmp := [] }

/-- The following index, if it is below a limit. -/
def nextIndex {n : Nat} (k : Fin n) (limit : Nat) : Option (Fin n) :=
  if h : k.val + 1 < n ∧ k.val + 1 < limit then some ⟨k.val + 1, h.1⟩ else none

/-! ### What the current instruction does in its execute phase -/

/-- The instruction in OPCODE, if the byte is assigned. -/
def State.currentOp (s : State) : Option Op := lookupOp s.params.opcodeMap s.latch.opcode

/-- How many bytes the execute phase pops. -/
def popCount (op : Op) : Nat :=
  match op with
  | .popAl => 1
  | .ret => 2
  | .retf => 4
  | .iret => 5
  | _ => 0

/-- How many bytes the execute phase writes. -/
def writeCount (op : Op) : Nat :=
  match op with
  | .stDi | .stD16 | .outPort | .pushAl => 1
  | .call => 2
  | .callf => 4
  | _ => 0

/-- The byte the execute phase writes as its `k`-th: AL, or the return address, high byte first, IP before CS
(R236, R361, R338, R340). -/
def writtenByte (op : Op) (k : Nat) (s : State) : Byte :=
  match op, k with
  | .call, 0 | .callf, 0 => hiByte s.regs.ip
  | .call, 1 | .callf, 1 => loByte s.regs.ip
  | .callf, 2 => hiByte s.regs.cs
  | .callf, 3 => loByte s.regs.cs
  | _, _ => s.regs.al

/-- The word of the popped bytes `k` and `k + 1`, low byte first. -/
def poppedWord (s : State) (k : Nat) : Word := joinBytes (s.micro.tmp.getD (k + 1) 0) (s.micro.tmp.getD k 0)

/-- The final register writes of `EXEC_END` (R197), from SOURCE, DEST and the bytes popped. -/
def finalWrites (op : Op) (s : State) : State :=
  match op with
  | .nop | .hlt | .intImm | .pushAl | .stDi | .stD16 | .outPort => s
  | .movAlAh => actMovAlAh s
  | .movAhAl => actMovAhAl s
  | .movAxDs => actMovAxDs s
  | .movAxSs => actMovAxSs s
  | .movAxSp => actMovAxSp s
  | .movAxDi => actMovAxDi s
  | .movDsAx => actMovDsAx s
  | .movSsAx => actMovSsAx s
  | .movSpAx => actMovSpAx s
  | .movDiAx => actMovDiAx s
  | .movCsAx => actMovCsAx s
  | .ldDi | .ldImm | .ldD16 | .inPort => actLoad s
  | .addDi | .addImm | .addD16 => actAdd s
  | .subDi | .subImm | .subD16 => actSub s
  | .andDi | .andImm | .andD16 => actAnd s
  | .orDi | .orImm | .orD16 => actOr s
  | .cmpDi | .cmpImm | .cmpD16 => actCmp s
  | .notAl => actNot s
  | .shl => actShl s
  | .sal => actSal s
  | .shr => actShr s
  | .sar => actSar s
  | .jmp => actJump true s
  | .je => actJump (condJe s.flags) s
  | .jne => actJump (condJne s.flags) s
  | .ja => actJump (condJa s.flags) s
  | .jae => actJump (condJae s.flags) s
  | .jb => actJump (condJb s.flags) s
  | .jbe => actJump (condJbe s.params.jbeCond s.flags) s
  | .jg => actJump (condJg s.flags) s
  | .jge => actJump (condJge s.flags) s
  | .jl => actJump (condJl s.flags) s
  | .jle => actJump (condJle s.flags) s
  | .jo => actJump (condJo s.flags) s
  | .jno => actJump (condJno s.flags) s
  | .js => actJump (condJs s.flags) s
  | .jns => actJump (condJns s.flags) s
  | .call => s.withIp s.latch.destOff
  | .jmpf | .callf => (s.withCs s.latch.destSel).withIp s.latch.destOff
  | .popAl => s.withAl (s.micro.tmp.getD 0 0)
  | .ret => s.withIp (poppedWord s 0)
  | .retf => (s.withCs (poppedWord s 0)).withIp (poppedWord s 2)
  | .iret =>
    swapIfUser (((s.withCs (poppedWord s 0)).withIp (poppedWord s 2)).setFlags
      (flagsOfByte s.params.flagsLayout (s.micro.tmp.getD 4 0)))
  | .cli => actSetIf false s
  | .sti => actSetIf true s
  | .ldpsr => stackSwap s
  | .stum => actStum s

/-! ### The transitions -/

/-- The first state of the operand phase (R185). -/
def operandEntry (f : Fmt) (mjr : MicroState) : MicroState :=
  match f with
  | .f0 => mjr
  | .f1 => .dsdiAddr
  | .f2 => .f2Set
  | .f3 | .f4 | .f5 | .f6 | .f7 => .codeAddr 0

/-- `FETCH_LATCH`: latch OPCODE, validate, dispatch (R184, R185). HLT goes to `HALT` at once (R187, R381). -/
def latchOpcode (s : State) : State :=
  let t := s.quiet.withOpcode s.bus.mbr
  match t.currentOp with
  | none => (t.withSource t.params.vecInvalidOpcode).goto (.intEntry .fault)
  | some op =>
    if t.blocked op then (t.withSource t.params.vecPrivViolation).goto (.intEntry .fault)
    else
      let u := t.withMjr (executeEntry op)
      if op = .hlt then actHlt u else u.goto (operandEntry (formatOf t.latch.opcode) (executeEntry op))

/-- The low byte of DEST_OFF, or the high one. -/
def putByte (w : Word) (high : Bool) (b : Byte) : Word :=
  if high then joinBytes b (loByte w) else joinBytes (hiByte w) b

/-- The latch of operand byte `k`, counting from 0 (R191 to R195). R193 to R195 name temporaries without a
register for the bytes of F5, F6 and F7 before the last; the model writes each into DEST_OFF or DEST_SEL as it
comes, as R192 does for F4: its own choice (log 26). -/
def latchOperand (k : Nat) (b : Byte) (s : State) : State :=
  match formatOf s.latch.opcode with
  | .f3 => s.withSource b
  | .f4 => s.withDestOff (putByte s.latch.destOff (k == 1) b)
  | .f5 =>
    let sel := if k == 1 then (if s.currentOp == some .outPort then 0 else s.regs.ds) else s.latch.destSel
    s.withDest sel (putByte s.latch.destOff (k == 1) b)
  | .f6 =>
    let sel := if k == 1 then s.regs.cs else s.latch.destSel
    s.withDest sel (putByte s.latch.destOff (k == 1) b)
  | .f7 =>
    if (k < 2) == (s.params.farPtrLayout == .offsetFirst)
    then s.withDestOff (putByte s.latch.destOff (k % 2 == 1) b)
    else s.withDest (putByte s.latch.destSel (k % 2 == 1) b) s.latch.destOff
  | .f0 | .f1 | .f2 => s

/-- `CODE_LATCH_k`: latch the byte, then the next byte, the F4 data read, or the execute entry (R191 to R196). -/
def codeLatch (k : Fin 4) (s : State) : State :=
  let f := formatOf s.latch.opcode
  let t := latchOperand k.val s.bus.mbr s.quiet
  match nextIndex k f.operandBytes with
  | some j => t.goto (.codeAddr j)
  | none => if f = .f4 then t.goto .eaAddr else t.goto t.micro.mjr

/-- `EXEC_END`: the final writes, then the boundary check (R197). -/
def execEnd (s : State) : State :=
  let t := match s.currentOp with
    | none => s.quiet
    | some op => (finalWrites op s.quiet).dropBytes
  if t.flags.ie && t.irq.pending then t.goto (.intEntry .hw) else t.goto .fetchAddr

/-- `INT_ENTRY`: the swap from user mode (R430). -/
def intEntry (kind : IntKind) (s : State) : State := (swapIfUser s.quiet).goto (.intPushAddr kind 0)

/-- Byte `k` of the pushed frame, in push order (R430). -/
def frameByte (k : Nat) (s : State) : Byte :=
  match k with
  | 0 => flagsByte s.params.flagsLayout s.flags
  | 1 => hiByte s.regs.ip
  | 2 => loByte s.regs.ip
  | 3 => hiByte s.regs.cs
  | _ => loByte s.regs.cs

/-- Set up the push of a byte: `SP <- SP - 1; MAR <- phys(SS, SP); MBR <- v; dir <- 1` (R21, R182). R182 does not
name SP: that it moves in this clock is the model's choice (log 29). -/
def aimPush (v : Byte) (s : State) : State :=
  (s.withSp (s.regs.sp - 1)).aimWrite (phys s.regs.ss (s.regs.sp - 1)) v

/-- `XW_ADDR`: set up write `k` of the execute phase, a push or a store to DEST. -/
def writeAddr (op : Op) (k : Fin 4) (s : State) : State :=
  let t :=
    if op == .stDi || op == .stD16 || op == .outPort
    then s.aimWrite (phys s.latch.destSel s.latch.destOff) s.regs.al
    else aimPush (writtenByte op k.val s) s
  t.goto (.xwBus k)

/-- `XR_ADDR`: set up pop `k` of the execute phase. -/
def readAddr (k : Fin 5) (s : State) : State := (s.aimRead (phys s.regs.ss s.regs.sp)).goto (.xrBus k)

/-- The execute entry of a category (R181, R187): its first write, its first read, interrupt entry for INT,
else `EXEC_END`. -/
def executeState (c : Category) (s : State) : State :=
  match s.currentOp with
  | none => execEnd s
  | some op =>
    match c with
    | .store | .push | .call => writeAddr op 0 s
    | .pop | .ret | .returnFromInterrupt => readAddr 0 s
    | .softwareInterrupt => intEntry .sw s
    | .registerMove | .alu | .load | .jump | .flagBit | .registerSwap => execEnd s

/-- `INT_CLEAR`: clear the flags; a hardware entry acknowledges the line and reads the vector number (R430). -/
def intClear (kind : IntKind) (s : State) : State :=
  let t := s.quiet.setFlags Flags.cleared
  let u := match kind with
    | .hw => (t.setIrq { t.irq with ack := true }).withSource t.irq.vector
    | .sw | .fault => t
  u.goto (.intVecAddr 0)

/-- `INT_END`: IP and CS from the descriptor; the next state is opcode fetch, with no check (R430). -/
def intEnd (s : State) : State :=
  let t := descriptor s.params.vectorLayout s.micro.tmp
  (((s.quiet.withIp t.1).withCs t.2).dropBytes).goto .fetchAddr

/-- One micro-state transition, without the bus access that may follow it (R180 to R198). The spec gives the order of
a pop, read and then increment (R21, R360), and no clock for the increment: that SP moves in `XR_LATCH` is the
model's choice (log 29). -/
def transition (s : State) : State :=
  match s.micro.star with
  | .fetchAddr =>
    ((s.aimRead (phys s.regs.cs s.regs.ip)).withIp (s.regs.ip + 1)).goto .fetchBus
  | .fetchBus => (s.strobeRead false).goto .fetchLatch
  | .fetchLatch => latchOpcode s
  | .codeAddr k =>
    ((s.aimRead (phys s.regs.cs s.regs.ip)).withIp (s.regs.ip + 1)).goto (.codeBus k)
  | .codeBus k => (s.strobeRead false).goto (.codeLatch k)
  | .codeLatch k => codeLatch k s
  | .dsdiAddr => (s.aimRead (phys s.regs.ds s.regs.di)).goto .dsdiBus
  | .dsdiBus => (s.strobeRead false).goto .dsdiLatch
  | .dsdiLatch => (s.quiet.withSource s.bus.mbr).goto s.micro.mjr
  | .f2Set => (s.quiet.withDest s.regs.ds s.regs.di).goto s.micro.mjr
  | .eaAddr =>
    let sel := if s.currentOp == some .inPort then 0 else s.regs.ds
    (s.aimRead (phys sel s.latch.destOff)).goto .eaBus
  | .eaBus => (s.strobeRead (s.currentOp == some .inPort)).goto .eaLatch
  | .eaLatch => (s.quiet.withSource s.bus.mbr).goto s.micro.mjr
  | .execute c => executeState c s
  | .xrAddr k => readAddr k s
  | .xrBus k => (s.strobeRead false).goto (.xrLatch k)
  | .xrLatch k =>
    let t := (s.quiet.withSp (s.regs.sp + 1)).keepByte
    match s.currentOp with
    | none => t.goto .execEnd
    | some op =>
      match nextIndex k (popCount op) with
      | some j => t.goto (.xrAddr j)
      | none => t.goto .execEnd
  | .xwAddr k =>
    match s.currentOp with
    | none => s.quiet.goto .execEnd
    | some op => writeAddr op k s
  | .xwBus k =>
    match s.currentOp with
    | none => s.quiet.goto .execEnd
    | some op =>
      let t := s.strobeWrite (op == .outPort)
      match nextIndex k (writeCount op) with
      | some j => t.goto (.xwAddr j)
      | none => t.goto .execEnd
  | .execEnd => execEnd s
  | .intEntry kind => intEntry kind s
  | .intPushAddr kind k => (aimPush (frameByte k.val s) s).goto (.intPushBus kind k)
  | .intPushBus kind k =>
    let t := s.strobeWrite false
    match nextIndex k 5 with
    | some j => t.goto (.intPushAddr kind j)
    | none => t.goto (.intClear kind)
  | .intClear kind => intClear kind s
  | .intVecAddr k =>
    let t := if k = 0 then s.setIrq { s.irq with ack := false } else s
    (t.aimRead (vectorAddr s.latch.source k.val)).goto (.intVecBus k)
  | .intVecBus k => (s.strobeRead false).goto (.intVecLatch k)
  | .intVecLatch k =>
    let t := s.quiet.keepByte
    match nextIndex k 4 with
    | some j => t.goto (.intVecAddr j)
    | none => t.goto .intEnd
  | .intEnd => intEnd s
  | .halt => s.quiet

/-- The bus access the strobes demand: a read loads MBR from `Bus.Read(MAR)`, a write performs
`Bus.Write(MAR, MBR)` (R180). -/
def busAccess (s : State) : State :=
  if s.bus.memr || s.bus.ior then
    let r := busRead s.bus.ior s.bus.mar s
    r.2.setBus { s.bus with mbr := r.1 }
  else if s.bus.memw || s.bus.iow then busWrite s.bus.iow s.bus.mar s.bus.mbr s
  else s

/-- `OnClock`: one transition, then at most one bus access; a halted machine stays as it is (R52, R180, R198). -/
def clock (s : State) : State := if s.micro.halted then s else busAccess (transition s)

/-- `n` clocks. -/
def clocks : Nat → State → State
  | 0, s => s
  | n + 1, s => clocks n (clock s)

/-- A bus access, as the strobes, MAR and MBR show it. -/
structure BusEvent where
  io : Bool
  write : Bool
  addr : PhysAddr
  data : Byte
  deriving DecidableEq, Repr

/-- The access of the clock that has just ended, if its strobes demanded one (R180). -/
def State.busEvent (s : State) : Option BusEvent :=
  if s.bus.memr || s.bus.ior || s.bus.memw || s.bus.iow
  then some ⟨s.bus.ior || s.bus.iow, s.bus.memw || s.bus.iow, s.bus.mar, s.bus.mbr⟩ else none

/-- The accesses of the next `n` clocks, in order. -/
def busTrace : Nat → State → List BusEvent
  | 0, _ => []
  | n + 1, s => (clock s).busEvent.toList ++ busTrace n (clock s)

/-- The machine is between two instructions: an opcode fetch is next or it has halted, no strobe is
asserted, no acknowledge is in flight and no phase has bytes in hand (R199, R200). -/
def State.atBoundary (s : State) : Bool :=
  s.micro.star == (if s.micro.halted then .halt else .fetchAddr)
    && !s.bus.memr && !s.bus.memw && !s.bus.ior && !s.bus.iow && !s.irq.ack && s.micro.tmp.isEmpty

end Sys2Proof.Machine
end

