-- ==== Sys2Proof/Machine/Platform.lean ====
section
/-! DEFINITION. What the host can do to the machine and see of it (00_scope.md R27, R28): reset, power-on with
images, the interrupt line, the status snapshot, and the image file format (20_memory.md R118). -/

namespace Sys2Proof.Machine

open Sys2Proof

/-- The values reset leaves unspecified, a draw each (10_state.md R56, R57). -/
structure ResetDraws where
  al : Byte
  ah : Byte
  ds : Word
  ss : Word
  sp : Word
  di : Word
  prevSS : Word
  prevSP : Word
  mjr : MicroState
  opcode : Byte
  source : Byte
  destSel : Word
  destOff : Word
  mar : PhysAddr
  mbr : Byte
  deriving DecidableEq, Repr

/-- The draws that `State.reset` takes: all zero (log 3, log 4). -/
def ResetDraws.zero : ResetDraws := ⟨0, 0, 0, 0, 0, 0, 0, 0, .fetchAddr, 0, 0, 0, 0, 0, 0⟩

/-- `OnReset()`, at power-up or at any later clock (70_reset_and_hazards.md R480, R485): devices, parameters
and the host's inputs stay as they are. -/
def onReset (d : ResetDraws) (s : State) : State :=
  { s with
    regs := ⟨d.al, d.ah, d.ds, d.ss, d.sp, d.di, s.params.resetCS, s.params.resetIP, d.prevSS, d.prevSP⟩
    flags := Flags.cleared
    bus := ⟨d.mar, d.mbr, false, false, false, false, false⟩
    latch := ⟨d.opcode, d.source, d.destSel, d.destOff⟩
    micro := ⟨.fetchAddr, d.mjr, false, []⟩
    irq := { s.irq with ack := false } }

/-- Power-on and the reset after it: the devices of an ADDRESS_MAP with the program image in the program
store, the device that holds the reset entry, and the vector image in the device that holds physical 0,
each from the device's base (20_memory.md R89, R117; log 13). Where both are one device, which R117 does not settle,
the vector image is loaded last, over the program's first bytes: the model's choice (log 23). -/
def powerOn (p : Params) (map : Memory) (program vectors : List Byte) (d : ResetDraws) : State :=
  let mem := (map.loadImage p.ioRouting (phys p.resetCS p.resetIP) program).loadImage p.ioRouting 0 vectors
  onReset d { State.reset with mem := mem, params := p }

/-- The host drives `irq_pending` and `irq_vector` (10_state.md R53, 00_scope.md R28). -/
def setIrq (pending : Bool) (vector : Byte) (s : State) : State :=
  s.setIrq { s.irq with pending := pending, vector := vector }

/-- The host's duty: lower `irq_pending` in response to `irq_ack` (60_exceptions.md R428). -/
def lowerIrqOnAck (s : State) : State := if s.irq.ack then s.setIrq { s.irq with pending := false } else s

/-- One clock with a host that does its duty (R428). -/
def clockWithHost (s : State) : State := lowerIrqOnAck (clock s)

/-- The status snapshot (60_exceptions.md R446). -/
structure Status where
  regs : Regs
  flags : Flags
  bus : BusLatches
  latch : DecodeLatches
  star : MicroState
  mjr : MicroState
  halted : Bool
  deriving DecidableEq, Repr

/-- `GetStatus()`: a copy; it changes nothing (R446). -/
def status (s : State) : Status := ⟨s.regs, s.flags, s.bus, s.latch, s.micro.star, s.micro.mjr, s.micro.halted⟩

/-! ### The program image format (20_memory.md R118) -/

/-- One binary digit. -/
def parseBit (c : Char) : Option Bool := if c = '0' then some false else if c = '1' then some true else none

/-- The value of binary digits, the first the most significant. -/
def bitsValue : List Bool → Nat → Nat
  | [], acc => acc
  | b :: bs, acc => bitsValue bs (2 * acc + b.toNat)

/-- One line: eight characters `0` or `1`, the first bit 7 (R118, log 19). -/
def parseLine (line : List Char) : Option Byte :=
  if line.length = 8 then (line.mapM parseBit).map fun bs => BitVec.ofNat 8 (bitsValue bs 0) else none

/-- A whole image: one line per byte, in order (R118). -/
def parseImage (lines : List (List Char)) : Option (List Byte) := lines.mapM parseLine

end Sys2Proof.Machine
end

