-- ==== Sys2Proof/Machine/Timing.lean ====
section
/-! DEFINITION. The reference clock counts (70_reset_and_hazards.md R492, R493). No other rule depends on
them. -/

namespace Sys2Proof.Machine

open Sys2Proof

/-- The clocks of an instruction that runs, without an interrupt taken after it (R492). -/
def instrClocks (op : Op) : Nat :=
  match op with
  | .hlt => 3
  | .pushAl => 6
  | .popAl => 7
  | .ret => 10
  | .retf => 16
  | .iret => 19
  | .intImm => 31
  | .stD16 | .outPort => 12
  | .jmpf => 16
  | .callf => 24
  | .call => 14
  | _ =>
    match op.fmt with
    | .f0 => 4
    | .f1 | .f2 | .f3 => 7
    | .f4 => 13
    | .f5 | .f6 | .f7 => 10

/-- The clocks of interrupt entry (R493). -/
def entryClocks : Nat := 25

/-- The clocks of a fault, from its `FETCH_ADDR` to the handler's (R493). -/
def faultClocks : Nat := 28

/-- The clocks of the next macro-step: nothing for a halted machine, a fault's, or the instruction's and
those of a hardware interrupt taken at its boundary (R492, R493). -/
def stepClocks (s : State) : Nat :=
  match fetchInstr s with
  | .done _ => if s.micro.halted then 0 else faultClocks
  | .run i t =>
    match exec i t with
    | .next u =>
      instrClocks i.op + (if !u.micro.halted && u.flags.ie && u.irq.pending then entryClocks else 0)
    | .fault _ => 0
    | .refused _ => 0

end Sys2Proof.Machine
end

