-- ==== Sys2Proof/WellFormed.lean ====
section
/-! DEFINITION. What the spec lets a model assume of its parameters (30_encoding.md R141,
93_implementation_defined.md section 2), and which instructions a map can encode. -/

namespace Sys2Proof

/-- VECTOR_LAYOUT is an ordering of the four fields: no two share a byte (60_exceptions.md R431). -/
def VectorLayout.wf (l : VectorLayout) : Bool := decide [l.ipLo, l.ipHi, l.csLo, l.csHi].Nodup

/-- FLAGS_LAYOUT is injective (93_implementation_defined.md section 2). -/
def FlagsLayout.wf (l : FlagsLayout) : Bool := decide [l.cf, l.zf, l.sf, l.ovf, l.ie, l.us].Nodup

/-- OPCODE_MAP meets R141: every instruction has exactly one opcode byte, and no two share one. -/
def opcodeMapWf (m : List (Op × BitVec 5)) : Bool :=
  Op.all.all (fun op => (m.map Prod.fst).contains op)
    && decide (m.map Prod.fst).Nodup
    && decide (m.map fun e => opcodeByte e.1 e.2).Nodup

/-- PRIV_SET contains LDPSR and STUM (93_implementation_defined.md section 2). -/
def privSetWf (l : List Op) : Bool := l.contains .ldpsr && l.contains .stum

/-- The parameters have values the spec allows (93_implementation_defined.md section 2). -/
def Params.wf (p : Params) : Bool :=
  opcodeMapWf p.opcodeMap && p.vectorLayout.wf && p.flagsLayout.wf && privSetWf p.privSet

/-- The map encodes the instruction: its opcode has a byte, and that byte reads back as it (R141). -/
def Instr.wf (p : Params) (i : Instr) : Bool :=
  match byteOf p.opcodeMap i.op with
  | none => false
  | some b => lookupOp p.opcodeMap b == some i.op

end Sys2Proof
end

