-- ==== Sys2Proof/Safety.lean ====
section
/-! DEFINITION. The words the statements are written in: what a run must keep, what an access answers, what
an instruction names, and what interrupt entry leaves. -/

namespace Sys2Proof.Machine

open Sys2Proof

/-! ### Runs -/

/-- What every macro-step keeps: the devices' cells are in canonical form, the parameters have values the
spec allows, and the machine is between two instructions. -/
def MachineInv (s : State) : Prop := Memory.wf s.mem = true ∧ s.params.wf = true ∧ s.atBoundary = true

/-- A device without its cells: what power-on fixes for good (20_memory.md R84, R89). -/
def Device.shape (d : Device) : Device := { d with cells := [] }

/-- The platform is the same: parameters, and the devices but for their cells. -/
def samePlatform (s t : State) : Prop := t.params = s.params ∧ t.mem.map Device.shape = s.mem.map Device.shape

/-- Nothing changed but registers, flags, latches, cells and the count of draws: micro-program control, the
interrupt line and the platform are as they were. -/
def keepsControl (s t : State) : Prop := t.micro = s.micro ∧ t.irq = s.irq ∧ samePlatform s t

/-! ### Memory -/

/-- The byte a read access answers: the selected readable device's, else a draw (20_memory.md R86, R92). -/
def State.answer (s : State) (io : Bool) (a : PhysAddr) : Byte :=
  (s.mem.read s.params.ioRouting io a).getD (Config.anyByte s.draws)

/-- An access of this kind reaches a device that can be both read and written. -/
def State.isRam (s : State) (io : Bool) (a : PhysAddr) : Bool :=
  match s.select io a with
  | none => false
  | some k =>
    match s.mem[k]? with
    | none => false
    | some d => d.readable && d.writeable

/-- An access of this kind reaches a device that can be written. -/
def State.accepts (s : State) (io : Bool) (a : PhysAddr) : Bool :=
  match s.select io a with
  | none => false
  | some k =>
    match s.mem[k]? with
    | none => false
    | some d => d.writeable

/-- From `s` to `t` the bytes of `stores`, at different addresses, were written and nothing else: an accepted
store puts its byte into the cell it reaches, a refused one changes nothing (20_memory.md R85, R93), and
every other cell of every device holds what it held. -/
def storesOnly (s t : State) (io : Bool) (stores : List (PhysAddr × Byte)) : Prop :=
  (∀ e ∈ stores, ∀ dev, s.select io e.1 = some dev → s.accepts io e.1 = true → t.cell dev e.1.toNat = e.2)
    ∧ (∀ dev a, (∀ e ∈ stores, s.select io e.1 = some dev → s.accepts io e.1 = true → e.1.toNat ≠ a) →
      t.cell dev a = s.cell dev a)

/-- Every byte of every device is as it was. -/
def keepsBytes (s t : State) : Prop := ∀ dev a, t.cell dev a = s.cell dev a

/-- One access to a device. -/
inductive DeviceAccess where
  | read (a : Nat)
  | write (a : Nat) (v : Byte)
  deriving DecidableEq, Repr

/-- The bytes that a readable device's in-range reads answer, in the eager form of 20_memory.md R88. -/
def Device.eagerReads (dev : Nat) : List DeviceAccess → Device → List Byte
  | [], _ => []
  | .read a :: rest, d => d.byteAt dev a :: Device.eagerReads dev rest d
  | .write a v :: rest, d => Device.eagerReads dev rest (d.write a v)

/-- The same in the lazy form of R86: a cell's first read draws its byte and caches it. -/
def Device.lazyReads (dev : Nat) : List DeviceAccess → Device → List Byte
  | [], _ => []
  | .read a :: rest, d =>
    let r := d.readLazy a (Config.powerOnByte dev a)
    r.1 :: Device.lazyReads dev rest r.2
  | .write a v :: rest, d => Device.lazyReads dev rest (d.write a v)

/-- Every read of the list is inside the device's range. -/
def Device.readsInRange (d : Device) (l : List DeviceAccess) : Bool :=
  l.all fun x =>
    match x with
    | .read a => d.inRange a
    | .write _ _ => true

/-! ### Instructions -/

/-- The operand byte of an F1, F3 or F4 instruction (30_encoding.md R138): the byte at DS:DI, the immediate,
the byte at DS:disp16, or for IN the byte at the port. -/
def operandByte (i : Instr) (s : State) : Byte :=
  match i with
  | .ldDi | .addDi | .subDi | .andDi | .orDi | .cmpDi => s.answer false (phys s.regs.ds s.regs.di)
  | .ldImm k | .addImm k | .subImm k | .andImm k | .orImm k | .cmpImm k | .intImm k => k
  | .ldD16 d | .addD16 d | .subD16 d | .andD16 d | .orD16 d | .cmpD16 d => s.answer false (phys s.regs.ds d)
  | .inPort p => s.answer true (phys 0 p)
  | _ => 0

/-- Where a store instruction writes AL, and whether with the I/O strobe (41_moves.md R236, R237, R239). -/
def storeTarget (i : Instr) (s : State) : Option (Bool × PhysAddr) :=
  match i with
  | .stDi => some (false, phys s.regs.ds s.regs.di)
  | .stD16 off => some (false, phys s.regs.ds off)
  | .outPort p => some (true, phys 0 p)
  | _ => none

/-- `b` is the byte a pop `k` bytes above SP takes: what memory answers there, or any draw where it answers
none (20_memory.md R86, R92). -/
def popsByte (s : State) (k : Nat) (b : Byte) : Prop :=
  ∀ v, s.mem.read s.params.ioRouting false (phys s.regs.ss (s.regs.sp + BitVec.ofNat 16 k)) = some v → b = v

/-- The byte `k` places below SP, where a push sequence puts its `k`-th byte, lies in RAM. -/
def stackRam (s : State) (k : Nat) : Bool := s.isRam false (phys s.regs.ss (s.regs.sp - BitVec.ofNat 16 k))

/-- The target of a near jump (43_control.md R322); not CALL. -/
def nearTarget (i : Instr) : Option Word :=
  match i with
  | .jmp t | .je t | .jne t | .ja t | .jae t | .jb t | .jbe t | .jg t | .jge t | .jl t | .jle t
  | .jo t | .jno t | .js t | .jns t => some t
  | _ => none

/-- The table of 43_control.md R321, over the flag register. -/
def jumpTaken (i : Instr) (m : JbeCond) (f : Flags) : Prop :=
  match i with
  | .jmp _ => True
  | .je _ => f.zf = true
  | .jne _ => f.zf = false
  | .ja _ => f.cf = false ∧ f.zf = false
  | .jae _ => f.cf = false
  | .jb _ => f.cf = true
  | .jbe _ => (m = .cfAndZf ∧ f.cf = true ∧ f.zf = true) ∨ (m = .cfOrZf ∧ (f.cf = true ∨ f.zf = true))
  | .jg _ => f.zf = false ∧ f.sf = f.ovf
  | .jge _ => f.sf = f.ovf
  | .jl _ => f.sf ≠ f.ovf
  | .jle _ => f.zf = true ∨ f.sf ≠ f.ovf
  | .jo _ => f.ovf = true
  | .jno _ => f.ovf = false
  | .js _ => f.sf = true
  | .jns _ => f.sf = false
  | _ => False

/-- The family of 41_moves.md: register moves, loads, stores, IN and OUT. -/
def moveFamily : List Op :=
  [.movAlAh, .movAhAl, .movAxDs, .movAxSs, .movAxSp, .movAxDi, .movDsAx, .movSsAx, .movSpAx, .movDiAx,
   .movCsAx, .ldDi, .ldImm, .ldD16, .inPort, .stDi, .stD16, .outPort]

/-- The instruction that a step of `s` would run is decoded from the bytes at CS:IP, and the privilege check
lets it through. -/
def runs (s : State) (i : Instr) : Prop :=
  s.micro.halted = false ∧ s.blocked i.op = false ∧ decode s.params (codeBytes i.length s) = .ok (i, [])

/-! ### Signed and unsigned readings (00_scope.md R16) -/

/-- `s8(a) + s8(b)` or `s8(a) - s8(b)` does not fit 8 bits. -/
def signedOverflow (x : Int) : Bool := decide (x < -128 ∨ 127 < x)

/-- The flags an addition or subtraction leaves: ZF and SF from the result, IF and US as they were. -/
def arithFlags (f : Flags) (r : Byte) (carry overflow : Bool) : Flags :=
  { cf := carry, zf := decide (r = 0), sf := decide (r.toInt < 0), ovf := overflow, ie := f.ie, us := f.us }

/-! ### Interrupt entry (60_exceptions.md R430 to R433) -/

/-- SS and SP of the stack that entry pushes on: the shadow pair from user mode, else the live pair. -/
def entrySS (s : State) : Word := if s.flags.us then s.regs.prevSS else s.regs.ss

/-- See `entrySS`. -/
def entrySP (s : State) : Word := if s.flags.us then s.regs.prevSP else s.regs.sp

/-- The five bytes entry pushes and where, in push order: flags, IP high, IP low, CS high, CS low. -/
def entryFrame (s : State) : List (PhysAddr × Byte) :=
  [(phys (entrySS s) (entrySP s - 1), flagsByte s.params.flagsLayout s.flags),
   (phys (entrySS s) (entrySP s - 2), hiByte s.regs.ip),
   (phys (entrySS s) (entrySP s - 3), loByte s.regs.ip),
   (phys (entrySS s) (entrySP s - 4), hiByte s.regs.cs),
   (phys (entrySS s) (entrySP s - 5), loByte s.regs.cs)]

/-- `t` is the state that interrupt entry through `vector` leaves from `s`: the flags are clear, SS:SP is the
supervisor stack less five bytes, the shadow pair holds the interrupted user stack on entry from user mode
and is unchanged otherwise, the frame was pushed and nothing else was stored, and CS:IP come from the four
descriptor bytes at `4 * vector`, each the byte memory answers after the pushes, a draw where it answers
none. AL, AH, DS, DI, micro-program control and the platform are as they were, and the host's two inputs and
the acknowledge output too. -/
def entersThrough (s t : State) (vector : Byte) : Prop :=
  t.flags = Flags.cleared
    ∧ keepsControl s t
    ∧ storesOnly s t false (entryFrame s)
    ∧ t.latch.source = vector
    ∧ ∃ d : List Byte, d.length = 4
      ∧ (∀ k < 4, ∀ b, t.mem.read t.params.ioRouting false (phys 0 (4 * vector.setWidth 16 + BitVec.ofNat 16 k)) = some b →
          d[k]? = some b)
      ∧ t.regs =
        { s.regs with
          ss := entrySS s
          sp := entrySP s - 5
          prevSS := if s.flags.us then s.regs.ss else s.regs.prevSS
          prevSP := if s.flags.us then s.regs.sp else s.regs.prevSP
          ip := (descriptor s.params.vectorLayout d).1
          cs := (descriptor s.params.vectorLayout d).2 }

/-- `u` is the state from which the step at `s` enters the interrupt sequence with this kind (60_exceptions.md R420):
for a fault the state after the opcode fetch, with the vector number in SOURCE; for `sw` the state after the
operand phase of an INT that runs; for `hw` the state an instruction that runs has left, with IF set and the
line pending. The parameters and the interrupt line are those of `s`. -/
def entersFrom (s : State) (kind : IntKind) (u : State) : Prop :=
  u.params = s.params ∧ u.irq = s.irq
    ∧ match kind with
      | .fault => ∃ v, (v = s.params.vecInvalidOpcode ∨ v = s.params.vecPrivViolation) ∧ u = (fetchOpcode s).withSource v
      | .sw => ∃ v, runs s (.intImm v) ∧ u = operandImm v (fetchOperands .intImm (fetchOpcode s)).2
      | .hw => ∃ i, runs s i ∧ exec i (fetchOperands i.op (fetchOpcode s)).2 = .next u ∧ u.flags.ie = true
          ∧ u.irq.pending = true

end Sys2Proof.Machine
end

