-- ==== Sys2Proof/Certificates/Slice0/Obligations.lean ====
section
/-! DEFINITION. The statements for the provers. Every one ranges over all parameters of 00_scope.md R13 unless
it names one. "Not blocked" is the one hypothesis of a completion statement: the instruction is not in
PRIV_SET or the machine is in supervisor mode (60_exceptions.md R424). -/

open Sys2Proof Sys2Proof.Machine

/-! ### Encoding (30_encoding.md) -/

/-- Decoding an encoded instruction gives it back, with every operand at every value, under every opcode map
and far pointer layout (R132 to R137, R141). -/
def Obligations.EncodeThenDecode : Prop :=
  ∀ (p : Params) (i : Instr) (rest : List Byte), p.wf = true → decode p (encode p i ++ rest) = .ok (i, rest)

/-- Bytes that decode are the encoding of what they decode to: no bit of an encoding is dropped (R131 to R137). -/
def Obligations.DecodeThenEncode : Prop :=
  ∀ (p : Params) (bytes : List Byte) (i : Instr) (rest : List Byte), p.wf = true →
    decode p bytes = .ok (i, rest) → bytes = encode p i ++ rest

/-- Words written out from R132, R136, R137 and R140, one per format. -/
def Obligations.DecodeOfSpecWords : Prop :=
  decodeTableWord 8 0x1A = some .stum ∧ decodeTableWord 8 0x21 = some .addDi ∧ decodeTableWord 8 0x40 = some .stDi
    ∧ decodeTableWord 16 0x1066 = some (.intImm 0x10) ∧ decodeTableWord 24 0x023480 = some (.ldD16 0x0234)
    ∧ decodeTableWord 24 0x8000A1 = some (.outPort 0x8000) ∧ decodeTableWord 24 0x0200CF = some (.call 0x0200)
    ∧ decodeTableWord 40 0xF0000100E0 = some (.jmpf 0xF000 0x0100)

/-- The bytes the default map leaves invalid are exactly the ranges of R143. -/
def Obligations.InvalidBytesOfDefaultMap : Prop :=
  ∀ b : Byte, lookupOp defaultOpcodeMap b = none ↔
    (0x1B ≤ b.toNat ∧ b.toNat ≤ 0x1F) ∨ (0x26 ≤ b.toNat ∧ b.toNat ≤ 0x3F) ∨ (0x41 ≤ b.toNat ∧ b.toNat ≤ 0x5F)
      ∨ (0x67 ≤ b.toNat ∧ b.toNat ≤ 0x7F) ∨ (0x87 ≤ b.toNat ∧ b.toNat ≤ 0x9F) ∨ (0xA2 ≤ b.toNat ∧ b.toNat ≤ 0xBF)
      ∨ (0xD0 ≤ b.toNat ∧ b.toNat ≤ 0xDF) ∨ 0xE2 ≤ b.toNat

/-- The opcode table of R142, under every map: ToMnemonic gives an assigned byte's table name and the sentinel
otherwise; FromMnemonic answers a table name's byte and nothing else; the two are inverse on assigned bytes. -/
def Obligations.MnemonicTableRoundTrip : Prop :=
  ∀ (p : Params), p.wf = true →
    (∀ b op, lookupOp p.opcodeMap b = some op →
      toMnemonic p.opcodeMap b = op.tableName ∧ fromMnemonic p.opcodeMap (toMnemonic p.opcodeMap b) = some b)
    ∧ (∀ b, lookupOp p.opcodeMap b = none → toMnemonic p.opcodeMap b = "unknown")
    ∧ (∀ text, (∀ op : Op, op.tableName ≠ text) → fromMnemonic p.opcodeMap text = none)

/-- An encoded instruction starts with a byte whose bits 7:5 are its format, and its length is 1, 2, 3 or 5
bytes by that format alone (R130, R132, R146). -/
def Obligations.LengthIsTheFormats : Prop :=
  ∀ (p : Params) (i : Instr), p.wf = true →
    (encode p i).length = i.length
    ∧ ∃ b tail, encode p i = b :: tail
      ∧ i.length = (if b.toNat < 0x60 then 1 else if b.toNat < 0x80 then 2 else if b.toNat < 0xE0 then 3 else 5)

/-! ### The instruction-level step (40_fetch.md) -/

/-- When the bytes at CS:IP decode to an instruction that the privilege check lets through, the step is its
meaning and then the boundary check. The meaning starts from the state after the fetch: IP past the
instruction, OPCODE its first byte, MJR its execute entry, nothing else changed but bus latches and draws (R184,
R185, R199). What MJR holds for NOP and HLT, which R185 does not give, is the model's choice (log 16). -/
def Obligations.StepRunsDecodedInstruction : Prop :=
  ∀ (s : State) (i : Instr), runs s i →
    ∃ u, exec i (fetchOperands i.op (fetchOpcode s)).2 = .next u ∧ step s = .next (boundaryCheck u)
      ∧ (fetchOperands i.op (fetchOpcode s)).2.regs = { s.regs with ip := s.regs.ip + BitVec.ofNat 16 i.length }
      ∧ (fetchOperands i.op (fetchOpcode s)).2.flags = s.flags
      ∧ (fetchOperands i.op (fetchOpcode s)).2.mem = s.mem
      ∧ (fetchOperands i.op (fetchOpcode s)).2.params = s.params
      ∧ (fetchOperands i.op (fetchOpcode s)).2.irq = s.irq
      ∧ (fetchOperands i.op (fetchOpcode s)).2.latch =
          { s.latch with opcode := s.answer false (phys s.regs.cs s.regs.ip) }
      ∧ (fetchOperands i.op (fetchOpcode s)).2.micro = { s.micro with mjr := executeEntry i.op }

/-- A byte OPCODE_MAP does not assign, fetched as an opcode in either mode, enters through the
invalid-opcode vector with the saved IP one past it; nothing else changed before the entry (R144, R422, R423). -/
def Obligations.InvalidOpcodeEntersItsVector : Prop :=
  ∀ s : State, s.micro.halted = false →
    lookupOp s.params.opcodeMap (s.answer false (phys s.regs.cs s.regs.ip)) = none →
    ∃ t, step s = .next t ∧ entersThrough (s.withIp (s.regs.ip + 1)) t s.params.vecInvalidOpcode
      ∧ t.latch.opcode = s.answer false (phys s.regs.cs s.regs.ip)
      ∧ t.latch.destSel = s.latch.destSel ∧ t.latch.destOff = s.latch.destOff

/-- A privileged instruction fetched in user mode enters through the privilege-violation vector with the saved
IP one past its opcode, its operand bytes unfetched, and has no effect of its own (R424, R425). -/
def Obligations.PrivilegeViolationEntersItsVector : Prop :=
  ∀ (s : State) (op : Op), s.micro.halted = false →
    lookupOp s.params.opcodeMap (s.answer false (phys s.regs.cs s.regs.ip)) = some op → s.blocked op = true →
    ∃ t, step s = .next t ∧ entersThrough (s.withIp (s.regs.ip + 1)) t s.params.vecPrivViolation
      ∧ t.latch.opcode = s.answer false (phys s.regs.cs s.regs.ip)
      ∧ t.latch.destSel = s.latch.destSel ∧ t.latch.destOff = s.latch.destOff

/-- A halted machine stays as it is at either level, whatever the interrupt line says, and between two
instructions it asserts no strobe and makes no access (R198). -/
def Obligations.HaltIsAbsorbing : Prop :=
  ∀ (s : State) (n : Nat), s.micro.halted = true →
    step s = .next s ∧ clocks n s = s ∧ (s.atBoundary = true → s.busEvent = none ∧ busTrace n s = [])

/-- Every step answers a next state: no fault, no refusal, on any state (60_exceptions.md R421). -/
def Obligations.EveryStepAnswers : Prop := ∀ s : State, ∃ t, step s = .next t

/-- The machine never halts except on HLT (60_exceptions.md R421). -/
def Obligations.OnlyHltHalts : Prop :=
  ∀ s t : State, step s = .next t → s.micro.halted = false → t.micro.halted = true → runs s .hlt

/-! ### Moves, loads and stores (41_moves.md) -/

/-- The eleven register moves and all that they leave alone (R222 to R232), AX being `AH * 256 + AL` (R17). -/
def Obligations.RegisterMovesCopy : Prop :=
  ∀ s : State,
    (s.blocked .movAlAh = false → exec .movAlAh s = .next { s with regs := { s.regs with ah := s.regs.al } })
    ∧ (s.blocked .movAhAl = false → exec .movAhAl s = .next { s with regs := { s.regs with al := s.regs.ah } })
    ∧ ∀ ax : Word, ax = s.regs.ah.setWidth 16 * 256 + s.regs.al.setWidth 16 →
      (s.blocked .movAxDs = false → exec .movAxDs s = .next { s with regs := { s.regs with ds := ax } })
      ∧ (s.blocked .movAxSs = false → exec .movAxSs s = .next { s with regs := { s.regs with ss := ax } })
      ∧ (s.blocked .movAxSp = false → exec .movAxSp s = .next { s with regs := { s.regs with sp := ax } })
      ∧ (s.blocked .movAxDi = false → exec .movAxDi s = .next { s with regs := { s.regs with di := ax } })
      ∧ ∀ (i : Instr) (w : Word),
        (i = .movDsAx ∧ w = s.regs.ds ∨ i = .movSsAx ∧ w = s.regs.ss ∨ i = .movSpAx ∧ w = s.regs.sp
          ∨ i = .movDiAx ∧ w = s.regs.di ∨ i = .movCsAx ∧ w = s.regs.cs) →
        s.blocked i.op = false →
        exec i s = .next { s with regs := { s.regs with ah := (w >>> 8).setWidth 8, al := w.setWidth 8 } }

/-- The loads and IN put their operand byte into AL and change no other register, no flag and no byte of
memory (R233, R234, R235, R238). -/
def Obligations.LoadsFillAl : Prop :=
  ∀ (s : State) (i : Instr), i.op ∈ [Op.ldDi, .ldImm, .ldD16, .inPort] → s.blocked i.op = false →
    ∃ t, exec i s = .next t ∧ t.regs = { s.regs with al := operandByte i s } ∧ t.flags = s.flags
      ∧ keepsBytes s t ∧ keepsControl s t

/-- The stores and OUT write AL to their target and nowhere else, and change no register and no flag (R236,
R237, R239); a refused store changes nothing (20_memory.md R85, R93). -/
def Obligations.StoresWriteAl : Prop :=
  ∀ (s : State) (i : Instr) (io : Bool) (a : PhysAddr), storeTarget i s = some (io, a) → s.blocked i.op = false →
    ∃ t, exec i s = .next t ∧ t.regs = s.regs ∧ t.flags = s.flags ∧ storesOnly s t io [(a, s.regs.al)]
      ∧ keepsControl s t

/-- No instruction of the move family writes any flag (R221). -/
def Obligations.MoveFamilyKeepsFlags : Prop :=
  ∀ (s : State) (i : Instr), i.op ∈ moveFamily → s.blocked i.op = false →
    ∃ t, exec i s = .next t ∧ t.flags = s.flags

/-! ### The ALU (42_alu.md) -/

/-- ADD in its three forms: result and CF, OF, ZF, SF from the carries of R261; nothing else changes. -/
def Obligations.AddSetsResultAndFlags : Prop :=
  ∀ (s : State) (i : Instr), i.op ∈ [Op.addDi, .addImm, .addD16] → s.blocked i.op = false →
    ∃ t, exec i s = .next t
      ∧ t.regs = { s.regs with al := s.regs.al + operandByte i s }
      ∧ t.flags = arithFlags s.flags (s.regs.al + operandByte i s)
          (decide (256 ≤ s.regs.al.toNat + (operandByte i s).toNat))
          (decide (128 ≤ s.regs.al.toNat % 128 + (operandByte i s).toNat % 128)
            != decide (256 ≤ s.regs.al.toNat + (operandByte i s).toNat))
      ∧ keepsBytes s t ∧ keepsControl s t

/-- The OF that AddCore leaves is, for all operands and flags before, the disagreement of the carries out of bits 6
and 7; it is also "the operands share a sign that the result's differs from", and so says exactly that the
signed sum does not fit (R261, R262). -/
def Obligations.OverflowFormsAgree : Prop :=
  ∀ (a b : Byte) (f : Flags),
    (addCore a b f).2.ovf
        = (decide (128 ≤ a.toNat % 128 + b.toNat % 128) != decide (256 ≤ a.toNat + b.toNat))
    ∧ (addCore a b f).2.ovf = (a.msb == b.msb && (addCore a b f).1.msb != a.msb)
    ∧ (addCore a b f).2.ovf = signedOverflow (a.toInt + b.toInt)

/-- SUB in its three forms, under both SUB_FLAG_MODEs: CF is "no borrow" and OF the signed overflow, but where
R263 says the default differs (a zero operand for CF, 0x80 for OF). -/
def Obligations.SubSetsResultAndFlags : Prop :=
  ∀ (s : State) (i : Instr), i.op ∈ [Op.subDi, .subImm, .subD16] → s.blocked i.op = false →
    ∃ t, exec i s = .next t
      ∧ t.regs = { s.regs with al := s.regs.al - operandByte i s }
      ∧ (s.params.subFlagMode = .negateThenAdd →
          t.flags = arithFlags s.flags (s.regs.al - operandByte i s)
            (decide (operandByte i s ≠ 0 ∧ (operandByte i s).toNat ≤ s.regs.al.toNat))
            (if operandByte i s = 0x80 then decide (s.regs.al.toInt < 0)
              else signedOverflow (s.regs.al.toInt - (operandByte i s).toInt)))
      ∧ (s.params.subFlagMode = .invertCarryIn →
          t.flags = arithFlags s.flags (s.regs.al - operandByte i s)
            (decide ((operandByte i s).toNat ≤ s.regs.al.toNat))
            (signedOverflow (s.regs.al.toInt - (operandByte i s).toInt)))
      ∧ keepsBytes s t ∧ keepsControl s t

/-- CMP in its three forms changes flags only: ZF and CF as the source gives them, SF the sign of the
difference, OF under either CMP_SIGNED_MODE (R264). -/
def Obligations.CmpSetsFlagsOnly : Prop :=
  ∀ (s : State) (i : Instr), i.op ∈ [Op.cmpDi, .cmpImm, .cmpD16] → s.blocked i.op = false →
    ∃ t, exec i s = .next t ∧ t.regs = s.regs
      ∧ t.flags.zf = decide (s.regs.al = operandByte i s)
      ∧ t.flags.cf = decide ((operandByte i s).toNat < s.regs.al.toNat)
      ∧ t.flags.sf = (s.regs.al - operandByte i s).msb
      ∧ (s.params.cmpSignedMode = .cfOriented →
          (t.flags.sf ≠ t.flags.ovf ↔ (operandByte i s).toInt < s.regs.al.toInt))
      ∧ (s.params.cmpSignedMode = .subOriented →
          t.flags.ovf = signedOverflow (s.regs.al.toInt - (operandByte i s).toInt))
      ∧ t.flags.ie = s.flags.ie ∧ t.flags.us = s.flags.us
      ∧ keepsBytes s t ∧ keepsControl s t

/-- What the jumps mean after CMP under the default modes: "above" and "greater" say that the operand is above
AL, and JBE is never taken (R265). -/
def Obligations.JumpsAfterCmp : Prop :=
  ∀ (s : State) (i : Instr) (w : Word), i.op ∈ [Op.cmpDi, .cmpImm, .cmpD16] → s.blocked i.op = false →
    s.params.cmpSignedMode = .cfOriented → s.params.jbeCond = .cfAndZf →
    ∃ t, exec i s = .next t
      ∧ (jumpTaken (.je w) t.params.jbeCond t.flags ↔ s.regs.al = operandByte i s)
      ∧ (jumpTaken (.jne w) t.params.jbeCond t.flags ↔ s.regs.al ≠ operandByte i s)
      ∧ (jumpTaken (.ja w) t.params.jbeCond t.flags ↔ s.regs.al.toNat < (operandByte i s).toNat)
      ∧ (jumpTaken (.jae w) t.params.jbeCond t.flags ↔ s.regs.al.toNat ≤ (operandByte i s).toNat)
      ∧ (jumpTaken (.jb w) t.params.jbeCond t.flags ↔ (operandByte i s).toNat < s.regs.al.toNat)
      ∧ ¬ jumpTaken (.jbe w) t.params.jbeCond t.flags
      ∧ (jumpTaken (.jg w) t.params.jbeCond t.flags ↔ s.regs.al.toInt < (operandByte i s).toInt)
      ∧ (jumpTaken (.jge w) t.params.jbeCond t.flags ↔ s.regs.al.toInt ≤ (operandByte i s).toInt)
      ∧ (jumpTaken (.jl w) t.params.jbeCond t.flags ↔ (operandByte i s).toInt < s.regs.al.toInt)
      ∧ (jumpTaken (.jle w) t.params.jbeCond t.flags ↔ (operandByte i s).toInt ≤ s.regs.al.toInt)

/-- AND and OR in their three forms, and NOT: the bitwise result, ZF and SF from it, CF and OF by LOGIC_CF_OF
(R266). -/
def Obligations.LogicSetsResultAndFlags : Prop :=
  ∀ (s : State) (i : Instr) (r : Byte),
    (i.op ∈ [Op.andDi, .andImm, .andD16] ∧ r = s.regs.al &&& operandByte i s
      ∨ i.op ∈ [Op.orDi, .orImm, .orD16] ∧ r = s.regs.al ||| operandByte i s
      ∨ i = .notAl ∧ r = ~~~s.regs.al) →
    s.blocked i.op = false →
    ∃ t, exec i s = .next t ∧ t.regs = { s.regs with al := r }
      ∧ t.flags =
        { s.flags with
          zf := decide (r = 0)
          sf := r.msb
          cf := if s.params.logicCfOf = .cleared then false else s.flags.cf
          ovf := if s.params.logicCfOf = .cleared then false else s.flags.ovf }
      ∧ keepsBytes s t ∧ keepsControl s t

/-- The four shifts by one: doubling, halving, signed halving; CF the bit shifted out; OF clear but for SAL,
where it says that doubling changed the sign (R267). -/
def Obligations.ShiftsSetResultAndFlags : Prop :=
  ∀ (s : State) (i : Instr) (r : Byte) (c o : Bool),
    (i = .shl ∧ r = BitVec.ofNat 8 (2 * s.regs.al.toNat) ∧ c = s.regs.al.msb ∧ o = false
      ∨ i = .sal ∧ r = BitVec.ofNat 8 (2 * s.regs.al.toNat) ∧ c = s.regs.al.msb ∧ o = (r.msb != s.regs.al.msb)
      ∨ i = .shr ∧ r = BitVec.ofNat 8 (s.regs.al.toNat / 2) ∧ c = decide (s.regs.al.toNat % 2 = 1) ∧ o = false
      ∨ i = .sar ∧ r = BitVec.ofInt 8 (s.regs.al.toInt / 2) ∧ c = decide (s.regs.al.toNat % 2 = 1) ∧ o = false) →
    s.blocked i.op = false →
    ∃ t, exec i s = .next t ∧ t.regs = { s.regs with al := r } ∧ t.flags = arithFlags s.flags r c o
      ∧ keepsBytes s t ∧ keepsControl s t

/-! ### Control transfer (43_control.md) -/

/-- The fifteen near jumps: taken iff the table of R321 says so, to the absolute offset, else nothing; no flag,
no other register and no byte of memory changes (R321, R322). -/
def Obligations.NearJumpsFollowTheTable : Prop :=
  ∀ (s : State) (i : Instr) (target : Word), nearTarget i = some target → s.blocked i.op = false →
    ∃ t, exec i s = .next t
      ∧ (jumpTaken i s.params.jbeCond s.flags → t.regs = { s.regs with ip := target })
      ∧ (¬ jumpTaken i s.params.jbeCond s.flags → t.regs = s.regs)
      ∧ t.flags = s.flags ∧ keepsBytes s t ∧ keepsControl s t

/-- CALL pushes IP and CALLF pushes IP and then CS, high byte first, and both go to their target; JMPF only
goes there (R338, R339, R340). -/
def Obligations.CallsAndFarJump : Prop :=
  ∀ (s : State) (sel off : Word),
    (s.blocked .call = false → ∃ t, exec (.call off) s = .next t
      ∧ t.regs = { s.regs with sp := s.regs.sp - 2, ip := off } ∧ t.flags = s.flags ∧ keepsControl s t
      ∧ storesOnly s t false
          [(phys s.regs.ss (s.regs.sp - 1), hiByte s.regs.ip), (phys s.regs.ss (s.regs.sp - 2), loByte s.regs.ip)])
    ∧ (s.blocked .callf = false → ∃ t, exec (.callf sel off) s = .next t
      ∧ t.regs = { s.regs with sp := s.regs.sp - 4, cs := sel, ip := off } ∧ t.flags = s.flags ∧ keepsControl s t
      ∧ storesOnly s t false
          [(phys s.regs.ss (s.regs.sp - 1), hiByte s.regs.ip), (phys s.regs.ss (s.regs.sp - 2), loByte s.regs.ip),
           (phys s.regs.ss (s.regs.sp - 3), hiByte s.regs.cs), (phys s.regs.ss (s.regs.sp - 4), loByte s.regs.cs)])
    ∧ (s.blocked .jmpf = false → ∃ t, exec (.jmpf sel off) s = .next t
      ∧ t.regs = { s.regs with cs := sel, ip := off } ∧ t.flags = s.flags ∧ keepsBytes s t ∧ keepsControl s t)

/-- RET pops IP and RETF pops CS and then IP, low byte first; no flag and no byte of memory changes (R341, R342). -/
def Obligations.ReturnsPop : Prop :=
  ∀ s : State,
    (s.blocked .ret = false → ∃ t i0 i1, exec .ret s = .next t
      ∧ popsByte s 0 i0 ∧ popsByte s 1 i1
      ∧ t.regs = { s.regs with sp := s.regs.sp + 2, ip := joinBytes i1 i0 }
      ∧ t.flags = s.flags ∧ keepsBytes s t ∧ keepsControl s t)
    ∧ (s.blocked .retf = false → ∃ t c0 c1 i0 i1, exec .retf s = .next t
      ∧ popsByte s 0 c0 ∧ popsByte s 1 c1 ∧ popsByte s 2 i0 ∧ popsByte s 3 i1
      ∧ t.regs = { s.regs with sp := s.regs.sp + 4, cs := joinBytes c1 c0, ip := joinBytes i1 i0 }
      ∧ t.flags = s.flags ∧ keepsBytes s t ∧ keepsControl s t)

/-- CALL and then RET restores every register, IP the return address among them, and the flags (R344). -/
def Obligations.CallThenRetRestores : Prop :=
  ∀ (s : State) (off : Word), s.blocked .call = false → s.blocked .ret = false →
    stackRam s 1 = true → stackRam s 2 = true →
    ∃ t u, exec (.call off) s = .next t ∧ t.regs.ip = off ∧ exec .ret t = .next u
      ∧ u.regs = s.regs ∧ u.flags = s.flags

/-- CALLF and then RETF restores every register, CS and IP among them, and the flags (R344). -/
def Obligations.CallfThenRetfRestores : Prop :=
  ∀ (s : State) (sel off : Word), s.blocked .callf = false → s.blocked .retf = false →
    (∀ k, 1 ≤ k → k ≤ 4 → stackRam s k = true) →
    ∃ t u, exec (.callf sel off) s = .next t ∧ t.regs.cs = sel ∧ t.regs.ip = off ∧ exec .retf t = .next u
      ∧ u.regs = s.regs ∧ u.flags = s.flags

/-! ### The stack (44_stack.md) -/

/-- PUSH_AL writes AL below SP and moves SP there; POP_AL takes the byte at SP and moves SP past it; neither
changes a flag (R361, R362). -/
def Obligations.PushAndPop : Prop :=
  ∀ s : State,
    (s.blocked .pushAl = false → ∃ t, exec .pushAl s = .next t
      ∧ t.regs = { s.regs with sp := s.regs.sp - 1 } ∧ t.flags = s.flags ∧ keepsControl s t
      ∧ storesOnly s t false [(phys s.regs.ss (s.regs.sp - 1), s.regs.al)])
    ∧ (s.blocked .popAl = false → ∃ t b, exec .popAl s = .next t ∧ popsByte s 0 b
      ∧ t.regs = { s.regs with sp := s.regs.sp + 1, al := b } ∧ t.flags = s.flags ∧ keepsBytes s t ∧ keepsControl s t)

/-- A push and then a pop leave AL, SP and everything else in the register file as they were, wherever the
byte below SP lies in RAM, at the wrap of SP too (R363, R364). -/
def Obligations.PushThenPopRestores : Prop :=
  ∀ s : State, s.blocked .pushAl = false → s.blocked .popAl = false → stackRam s 1 = true →
    ∃ t u, exec .pushAl s = .next t ∧ exec .popAl t = .next u ∧ u.regs = s.regs ∧ u.flags = s.flags

/-! ### System instructions (45_system.md) -/

/-- NOP, CLI, STI, STUM and LDPSR, with all that they leave alone (R380, R382, R383, R387, R388). -/
def Obligations.SimpleSystemInstructions : Prop :=
  ∀ s : State,
    (s.blocked .nop = false → exec .nop s = .next s)
    ∧ (s.blocked .cli = false → exec .cli s = .next { s with flags := { s.flags with ie := false } })
    ∧ (s.blocked .sti = false → exec .sti s = .next { s with flags := { s.flags with ie := true } })
    ∧ (s.blocked .stum = false → exec .stum s = .next { s with flags := { s.flags with us := true } })
    ∧ (s.blocked .ldpsr = false → exec .ldpsr s = .next { s with regs := { s.regs with
          ss := s.regs.prevSS, sp := s.regs.prevSP, prevSS := s.regs.ss, prevSP := s.regs.sp } })

/-- HLT parks the machine: nothing changes but `halted` and STAR, and every later step leaves it there (R381). -/
def Obligations.HltParks : Prop :=
  ∀ s : State, s.blocked .hlt = false →
    ∃ t, exec .hlt s = .next t ∧ t.micro.halted = true ∧ t.micro.star = .halt ∧ t.micro.mjr = s.micro.mjr
      ∧ t.regs = s.regs ∧ t.flags = s.flags ∧ t.mem = s.mem ∧ t.irq = s.irq ∧ t.params = s.params
      ∧ boundaryCheck t = t ∧ step t = .next t

/-- INT enters through the vector it names, from either mode, whatever IF is, with the saved IP after INT (R384). -/
def Obligations.IntEntersItsVector : Prop :=
  ∀ (s : State) (v : Byte), s.blocked .intImm = false →
    ∃ t, exec (.intImm v) s = .next t ∧ entersThrough s t v

/-- IRET pops CS, IP and the flag byte, takes all six flags from it, and swaps the stack pair if the restored
mode is user mode (R386). -/
def Obligations.IretRestores : Prop :=
  ∀ s : State, s.blocked .iret = false →
    ∃ t c0 c1 i0 i1 f, exec .iret s = .next t
      ∧ popsByte s 0 c0 ∧ popsByte s 1 c1 ∧ popsByte s 2 i0 ∧ popsByte s 3 i1 ∧ popsByte s 4 f
      ∧ t.flags = flagsOfByte s.params.flagsLayout f
      ∧ t.regs = (if t.flags.us
          then { s.regs with cs := joinBytes c1 c0, ip := joinBytes i1 i0, ss := s.regs.prevSS, sp := s.regs.prevSP,
                             prevSS := s.regs.ss, prevSP := s.regs.sp + 5 }
          else { s.regs with cs := joinBytes c1 c0, ip := joinBytes i1 i0, sp := s.regs.sp + 5 })
      ∧ keepsBytes s t ∧ keepsControl s t

/-- The interrupt round trip of 95_test_vectors.md S9: INT and then IRET restores every register, both stack
pairs among them, and all six flags, from either mode, wherever the frame lies in RAM. -/
def Obligations.IntThenIretRestores : Prop :=
  ∀ (s : State) (v : Byte), s.params.flagsLayout.wf = true → s.blocked .intImm = false →
    (∀ e ∈ entryFrame s, s.isRam false e.1 = true) →
    ∃ t u, exec (.intImm v) s = .next t ∧ exec .iret t = .next u ∧ u.regs = s.regs ∧ u.flags = s.flags

/-- Every instruction in PRIV_SET, given to `exec` in user mode, takes the privilege-violation fault instead (R385).
This is the second check, inside `exec`, where IP stands past operand bytes that R424 never fetches: that it is
there and steps IP back to one past the opcode is the model's choice (log 10). The spec's case, at opcode fetch,
is PrivilegeViolationEntersItsVector. -/
def Obligations.PrivilegedInstructionsTrap : Prop :=
  ∀ (s : State) (i : Instr), s.blocked i.op = true →
    ∃ t, exec i s = .next t
      ∧ entersThrough (s.withIp (s.regs.ip - BitVec.ofNat 16 (i.length - 1))) t s.params.vecPrivViolation

/-! ### Exceptions and interrupts (60_exceptions.md) -/

/-- Interrupt entry of every kind from every state (R430, R432, R433). -/
def Obligations.EntryOfEveryKind : Prop :=
  ∀ (s : State),
    entersThrough s (interrupt .hw s) s.irq.vector
    ∧ entersThrough s (interrupt .sw s) s.latch.source
    ∧ entersThrough s (interrupt .fault s) s.latch.source

/-- The descriptor round trip the source asks for: where the four bytes at `4 * v` are those a vector image has
for CS:IP, entry through `v` goes to CS:IP, under every VECTOR_LAYOUT (R431). -/
def Obligations.DescriptorRoundTrip : Prop :=
  ∀ (s : State) (v : Byte) (ip cs : Word), s.params.vectorLayout.wf = true →
    (∀ k < 4, (pushFrame (swapIfUser s)).mem.read s.params.ioRouting false
        (phys 0 (4 * v.setWidth 16 + BitVec.ofNat 16 k)) = (descriptorBytes s.params.vectorLayout ip cs)[k]?) →
    (interrupt .sw (s.withSource v)).regs.ip = ip ∧ (interrupt .sw (s.withSource v)).regs.cs = cs

/-- The boundary check: a pending hardware interrupt is taken through `irq_vector` exactly when IF is set and
the machine has not halted, and otherwise nothing happens (R426). -/
def Obligations.BoundaryTakesPendingInterrupt : Prop :=
  ∀ s : State,
    (s.micro.halted = false ∧ s.flags.ie = true ∧ s.irq.pending = true →
      entersThrough s (boundaryCheck s) s.irq.vector)
    ∧ (s.micro.halted = true ∨ s.flags.ie = false ∨ s.irq.pending = false → boundaryCheck s = s)

/-- The only ways into user mode are STUM and IRET (45_system.md R389). -/
def Obligations.UserModeOnlyByStumOrIret : Prop :=
  ∀ s t : State, step s = .next t → s.flags.us = false → t.flags.us = true → runs s .stum ∨ runs s .iret

/-- While IRET is privileged, the only way from user to supervisor mode in a run is interrupt entry, from a state of
this very step that is still in user mode (45_system.md R389). -/
def Obligations.SupervisorModeOnlyByEntry : Prop :=
  ∀ s t : State, s.params.privSet.contains .iret = true → step s = .next t →
    s.flags.us = true → t.flags.us = false → ∃ kind u, entersFrom s kind u ∧ u.flags.us = true ∧ t = interrupt kind u

/-- CS is written only by JMPF, CALLF, RETF, IRET and interrupt entry: where none of the four ran, this step entered
the interrupt sequence from a state whose CS was still the old one (10_state.md R39). -/
def Obligations.CsWrittenOnlyByTransfers : Prop :=
  ∀ s t : State, step s = .next t → t.regs.cs ≠ s.regs.cs →
    (∃ kind u, entersFrom s kind u ∧ u.regs.cs = s.regs.cs ∧ t = interrupt kind u)
      ∨ ∃ i, runs s i ∧ i.op ∈ [Op.jmpf, .callf, .retf, .iret]

/-- AH, DS and DI are written only by the register moves that name them (10_state.md R34, R36, R37). -/
def Obligations.AhDsDiWrittenOnlyByMoves : Prop :=
  ∀ s t : State, step s = .next t →
    (t.regs.ah ≠ s.regs.ah →
      ∃ i, runs s i ∧ i.op ∈ [Op.movAlAh, .movDsAx, .movSsAx, .movSpAx, .movDiAx, .movCsAx])
    ∧ (t.regs.ds ≠ s.regs.ds → runs s .movAxDs)
    ∧ (t.regs.di ≠ s.regs.di → runs s .movAxDi)

/-! ### Invariants -/

/-- Every step keeps the invariant: canonical memory, allowed parameters, between two instructions. -/
def Obligations.StepKeepsInvariant : Prop := ∀ s t : State, MachineInv s → step s = .next t → MachineInv t

/-- The reset state meets the invariant, and is power-on of the default platform with no image: flags clear, CS:IP
F000:0000 (R480), the unspecified registers and latches at the zeros of log 3 and log 4. -/
def Obligations.ResetMeetsInvariant : Prop :=
  MachineInv State.reset ∧ State.reset = powerOn defaultParams defaultMemory [] [] ResetDraws.zero
    ∧ State.reset.flags = Flags.cleared ∧ State.reset.regs.cs = 0xF000 ∧ State.reset.regs.ip = 0x0000

/-- No step changes the platform, and none changes a byte of a device that is not writeable: a store to the
program store is ignored, whatever runs in whatever mode (20_memory.md R85, R89, R104). -/
def Obligations.ReadOnlyDevicesNeverChange : Prop :=
  ∀ s t : State, step s = .next t →
    samePlatform s t ∧ ∀ (dev : Nat) (d : Device), s.mem[dev]? = some d → d.writeable = false → t.mem[dev]? = some d

/-! ### The clock level (40_fetch.md, 70_reset_and_hazards.md) -/

/-- After any clock of a machine that has not halted, at most one strobe is asserted (R183, 10_state.md R49). -/
def Obligations.AtMostOneStrobe : Prop :=
  ∀ s : State, s.micro.halted = false →
    ((clock s).bus.memr.toNat + (clock s).bus.memw.toNat + (clock s).bus.ior.toNat + (clock s).bus.iow.toNat) ≤ 1

/-- The two levels agree: from any state between two instructions, the reference number of clocks reaches
exactly the state that the instruction-level step gives (R200, R492, R493). That MAR, MBR, the decode latches, MJR
and the count of draws agree too is not R200's: what step leaves in them is the model's choice (log 20; also
log 5, log 11 and log 16). -/
def Obligations.ClocksAgreeWithStep : Prop :=
  ∀ s : State, s.atBoundary = true → step s = .next (clocks (stepClocks s) s)

/-- IN and OUT make their data access with the I/O strobe at selector 0, after the three code reads with the
memory strobe, in that order (20_memory.md R81, R82, R120; 40_fetch.md R192, R193). The counts 13 and 12 are those
of R492 (70_reset_and_hazards.md); the byte that IN read is then in AL (41_moves.md R238). -/
def Obligations.InAndOutUseIoStrobes : Prop :=
  ∀ (s : State) (port : Word), s.atBoundary = true →
    (runs s (.inPort port) → ∃ b0 v, busTrace 13 s =
      [⟨false, false, phys s.regs.cs s.regs.ip, b0⟩, ⟨false, false, phys s.regs.cs (s.regs.ip + 1), loByte port⟩,
       ⟨false, false, phys s.regs.cs (s.regs.ip + 2), hiByte port⟩, ⟨true, false, phys 0 port, v⟩]
      ∧ (clocks 13 s).regs.al = v)
    ∧ (runs s (.outPort port) → ∃ b0, busTrace 12 s =
      [⟨false, false, phys s.regs.cs s.regs.ip, b0⟩, ⟨false, false, phys s.regs.cs (s.regs.ip + 1), loByte port⟩,
       ⟨false, false, phys s.regs.cs (s.regs.ip + 2), hiByte port⟩, ⟨true, true, phys 0 port, s.regs.al⟩])

/-- A hardware entry pulses `irq_ack` for one clock, its twelfth, and a software entry or fault never does (R428, R430). -/
def Obligations.AcknowledgeIsOneClock : Prop :=
  ∀ (s : State) (kind : IntKind) (n : Nat), s.micro.star = .intEntry kind → s.micro.halted = false →
    s.irq.ack = false → n ≤ 25 → ((clocks n s).irq.ack = true ↔ kind = .hw ∧ n = 12)

/-! ### Memory, bus and platform (20_memory.md) -/

/-- The physical address is `selector * 16 + offset` modulo 2^20 (00_scope.md R19). -/
def Obligations.PhysicalAddress : Prop :=
  ∀ sel off : Word, (phys sel off).toNat = (sel.toNat * 16 + off.toNat) % 2 ^ 20

/-- Under either IO_ROUTING `Select` is the first device in registration order that the routing considers and whose
closed range holds the address, or none. SHARED considers every device; ISOLATED considers only isIO devices for
an I/O strobe and only the others for a memory strobe (R91, R96). -/
def Obligations.FirstDeviceIsSelected : Prop :=
  ∀ (m : Memory) (r : IoRouting) (io : Bool) (a : PhysAddr),
    (∀ k, m.select r io a = some k →
      ∃ d, m[k]? = some d ∧ (r = .isolated → d.isIO = io) ∧ d.low ≤ a.toNat ∧ a.toNat ≤ d.high
        ∧ ∀ j < k, ∀ e, m[j]? = some e → (r = .isolated → e.isIO = io) → ¬ (e.low ≤ a.toNat ∧ a.toNat ≤ e.high))
    ∧ (m.select r io a = none →
      ∀ d ∈ m, (r = .isolated → d.isIO = io) → ¬ (d.low ≤ a.toNat ∧ a.toNat ≤ d.high))

/-- A write that no device accepts changes nothing, and a read that no readable device answers is a draw; the
access is not passed to a later device (R86, R92, R93, R94). -/
def Obligations.RefusedAccesses : Prop :=
  ∀ (m : Memory) (r : IoRouting) (io : Bool) (a : PhysAddr) (v : Byte),
    (m.select r io a = none → m.write r io a v = m ∧ m.read r io a = none)
    ∧ (∀ k d, m.select r io a = some k → m[k]? = some d →
      (d.writeable = false → m.write r io a v = m) ∧ (d.readable = false → m.read r io a = none))

/-- A read returns the byte the most recent write to the address stored, where the device is readable and
writeable; a write to another address in between does not matter (R119). -/
def Obligations.ReadAfterWrite : Prop :=
  ∀ (s : State) (io io' : Bool) (a b : PhysAddr) (v w : Byte), s.isRam io a = true → b ≠ a →
    ((s.mem.write s.params.ioRouting io a v).write s.params.ioRouting io' b w).read s.params.ioRouting io a = some v

/-- The lazy and the eager reading of unwritten cells answer the same bytes to every sequence of reads and
writes (R86, R88). -/
def Obligations.LazyReadsAreEagerReads : Prop :=
  ∀ (dev : Nat) (l : List DeviceAccess) (d : Device), d.readable = true → d.readsInRange l = true →
    Device.lazyReads dev l d = Device.eagerReads dev l d

/-- After power-on on the default platform the program image stands in the program store from 0xF0000 on, and
the vector image in RAM0 from 0 on, whatever the reset draws (R89, R117). -/
def Obligations.PowerOnLoadsImages : Prop :=
  ∀ (program vectors : List Byte) (d : ResetDraws) (k : Nat),
    (program.length ≤ 0x10000 → k < program.length →
      (powerOn defaultParams defaultMemory program vectors d).mem.read .shared false (BitVec.ofNat 20 (0xF0000 + k))
        = program[k]?)
    ∧ (vectors.length ≤ 0x8000 → k < vectors.length →
      (powerOn defaultParams defaultMemory program vectors d).mem.read .shared false (BitVec.ofNat 20 k) = vectors[k]?)

/-- Reset at any clock, for every draw (70_reset_and_hazards.md R480, R482, R485): flags clear, CS:IP at the
reset entry, the machine between two instructions and not halted; devices, parameters and the host's inputs
unchanged; no interrupt can be taken. -/
def Obligations.ResetAtAnyClock : Prop :=
  ∀ (d : ResetDraws) (s : State),
    (onReset d s).flags = Flags.cleared
    ∧ (onReset d s).regs.cs = s.params.resetCS ∧ (onReset d s).regs.ip = s.params.resetIP
    ∧ (onReset d s).micro.halted = false ∧ (onReset d s).micro.star = .fetchAddr
    ∧ (onReset d s).atBoundary = true ∧ (onReset d s).bus.dir = false
    ∧ (onReset d s).mem = s.mem ∧ (onReset d s).params = s.params
    ∧ (onReset d s).irq.pending = s.irq.pending ∧ (onReset d s).irq.vector = s.irq.vector
    ∧ boundaryCheck (onReset d s) = onReset d s

/-- A pushed and popped flag byte restores all six flags under every FLAGS_LAYOUT, and its other bits are 0
(10_state.md R45). -/
def Obligations.FlagByteRoundTrip : Prop :=
  ∀ (l : FlagsLayout) (f : Flags), l.wf = true →
    flagsOfByte l (flagsByte l f) = f
    ∧ ∀ k : Fin 8, k ∉ [l.cf, l.zf, l.sf, l.ovf, l.ie, l.us] → (flagsByte l f).getLsbD k.val = false

/-- The flag byte of R45 under its default layout: CF, ZF, SF, OF, IF, US from bit 0 up, bits 7:6 pushed as 0 and
ignored when popped. -/
def Obligations.FlagByteOfDefaultLayout : Prop :=
  ∀ (f : Flags) (b : Byte),
    (flagsByte defaultParams.flagsLayout f).toNat =
      f.cf.toNat + 2 * f.zf.toNat + 4 * f.sf.toNat + 8 * f.ovf.toNat + 16 * f.ie.toNat + 32 * f.us.toNat
    ∧ flagsOfByte defaultParams.flagsLayout b =
      { cf := b.getLsbD 0, zf := b.getLsbD 1, sf := b.getLsbD 2
        ovf := b.getLsbD 3, ie := b.getLsbD 4, us := b.getLsbD 5 }
end

