-- ==== Sys2Proof/Laws/Flags.lean ====
section
/-! SUPPORT. What each flag computation is, as arithmetic: one lemma per ALU core. -/

namespace Sys2Proof.Machine

open Sys2Proof

theorem zfOf_eq (r : Byte) : zfOf r = decide (r = 0) := by
  simp [zfOf, BEq.beq]

theorem sfOf_eq_msb (r : Byte) : sfOf r = r.msb := by
  simp [sfOf, BitVec.msb_eq_getLsbD_last]

theorem sfOf_eq (r : Byte) : sfOf r = decide (r.toInt < 0) := by
  rw [sfOf_eq_msb, BitVec.msb_eq_toInt]

/-- One carry chain: result and flags (R261, R263). -/
theorem addWithCarry_eq (a b : Byte) (cin : Nat) (f : Flags) : addWithCarry a b cin f =
    (a + b + BitVec.ofNat 8 cin, arithFlags f (a + b + BitVec.ofNat 8 cin) (decide (256 ≤ a.toNat + b.toNat + cin))
      (decide (128 ≤ a.toNat % 128 + b.toNat % 128 + cin) != decide (256 ≤ a.toNat + b.toNat + cin))) := by
  have hx : ∀ x y : Bool, (x ^^ y) = (x != y) := by decide
  have hr : BitVec.ofNat 8 (a.toNat + b.toNat + cin) = a + b + BitVec.ofNat 8 cin := by simp [BitVec.ofNat_add]
  have h7 : ∀ x : Byte, (x.extractLsb' 0 7).toNat = x.toNat % 128 := fun x => by simp
  simp only [addWithCarry, arithFlags, hr, zfOf_eq, sfOf_eq, carryBit6, carryBit7, hx, h7]

/-- ADD (R261). -/
theorem addCore_eq (a b : Byte) (f : Flags) : addCore a b f =
    (a + b, arithFlags f (a + b) (decide (256 ≤ a.toNat + b.toNat))
      (decide (128 ≤ a.toNat % 128 + b.toNat % 128) != decide (256 ≤ a.toNat + b.toNat))) := by
  simp [addCore, addWithCarry_eq]

/-- The carries into and out of bit 7 differ exactly when the signed sum does not fit (R262, R263). -/
theorem carries_differ_iff (a b : Byte) (cin : Nat) (h : cin ≤ 1) :
    (decide (128 ≤ a.toNat % 128 + b.toNat % 128 + cin) != decide (256 ≤ a.toNat + b.toNat + cin))
      = signedOverflow (a.toInt + b.toInt + cin) := by
  have ha := a.isLt
  have hb := b.isLt
  rw [signedOverflow, BitVec.toInt_eq_toNat_cond, BitVec.toInt_eq_toNat_cond]
  by_cases h1 : 2 * a.toNat < 2 ^ 8 <;> by_cases h2 : 2 * b.toNat < 2 ^ 8 <;>
    by_cases h3 : 256 ≤ a.toNat + b.toNat + cin <;> by_cases h4 : 128 ≤ a.toNat % 128 + b.toNat % 128 + cin <;>
    simp only [h1, h2, h3, h4, if_true, if_false, decide_true, decide_false] <;> simp <;> omega

/-- SUB under the default SUB_FLAG_MODE (R263). -/
theorem subCore_negateThenAdd (a b : Byte) (f : Flags) : subCore .negateThenAdd a b f =
    (a - b, arithFlags f (a - b) (decide (b ≠ 0 ∧ b.toNat ≤ a.toNat))
      (if b = 0x80 then decide (a.toInt < 0) else signedOverflow (a.toInt - b.toInt))) := by
  have ha := a.isLt
  have hb := b.isLt
  have hn : BitVec.ofNat 8 (256 - b.toNat) = -b := by
    apply BitVec.eq_of_toNat_eq
    rw [BitVec.toNat_neg, BitVec.toNat_ofNat]
  have ht : (-b).toNat = if b.toNat = 0 then 0 else 256 - b.toNat := by
    rw [BitVec.toNat_neg]; split <;> omega
  have h0 : b = 0 ↔ b.toNat = 0 := ⟨fun h => by rw [h]; rfl, fun h => BitVec.eq_of_toNat_eq h⟩
  have h8 : b = 0x80 ↔ b.toNat = 128 := ⟨fun h => by rw [h]; rfl, fun h => BitVec.eq_of_toNat_eq h⟩
  have hr : a + -b = a - b := (BitVec.sub_eq_add_neg a b).symm
  have hc := carries_differ_iff a (-b) 0 (by omega)
  simp only [Nat.add_zero] at hc
  simp only [subCore, hn, addCore_eq, hr, hc]
  congr 2
  · rw [ht]
    simp only [ne_eq, h0, decide_eq_decide]
    split <;> omega
  · split
    · rename_i hb8
      subst hb8
      rw [signedOverflow, decide_eq_decide]
      have : (-(0x80 : Byte)).toInt = -128 := by decide
      rw [this]
      have := BitVec.toInt_lt (x := a)
      have := BitVec.le_toInt (x := a)
      constructor <;> omega
    · rename_i hb8
      rw [h8] at hb8
      have : (-b).toInt = - b.toInt := by
        rw [BitVec.toInt_eq_toNat_cond, BitVec.toInt_eq_toNat_cond, ht]
        split <;> split <;> split <;> omega
      rw [this]
      congr 1
      omega

/-- SUB under the other SUB_FLAG_MODE (R263). -/
theorem subCore_invertCarryIn (a b : Byte) (f : Flags) : subCore .invertCarryIn a b f =
    (a - b, arithFlags f (a - b) (decide (b.toNat ≤ a.toNat)) (signedOverflow (a.toInt - b.toInt))) := by
  have ha := a.isLt
  have hb := b.isLt
  have ht : (~~~b).toNat = 255 - b.toNat := by rw [BitVec.toNat_not]
  have hr : a + ~~~b + 1#8 = a - b := by
    rw [BitVec.sub_eq_add_neg, BitVec.neg_eq_not_add, BitVec.add_assoc]
  have hc := carries_differ_iff a (~~~b) 1 (by omega)
  have hi : (~~~b).toInt = -1 - b.toInt := by
    rw [BitVec.toInt_eq_toNat_cond, BitVec.toInt_eq_toNat_cond, ht]
    split <;> split <;> omega
  simp only [subCore, addWithCarry_eq, hc]
  rw [show BitVec.ofNat 8 1 = 1#8 from rfl, hr, hi, ht]
  congr 2
  · rw [decide_eq_decide]
    omega
  · congr 1; push_cast; ring

/-- CMP's ZF, CF and SF under either CMP_SIGNED_MODE, and the flags it keeps (R264). -/
theorem cmpCore_common (m : CmpSignedMode) (a b : Byte) (f : Flags) :
    (cmpCore m a b f).zf = decide (a = b) ∧ (cmpCore m a b f).cf = decide (b.toNat < a.toNat)
      ∧ (cmpCore m a b f).sf = (a - b).msb ∧ (cmpCore m a b f).ie = f.ie ∧ (cmpCore m a b f).us = f.us := by
  refine ⟨?_, rfl, ?_, rfl, rfl⟩
  · simp [cmpCore, BEq.beq]
  · simp [cmpCore, BitVec.msb_eq_getLsbD_last]

/-- Under the default CMP_SIGNED_MODE, SF and OF differ exactly when the first operand is the greater as a signed
number (R264). -/
theorem cmpCore_cfOriented (a b : Byte) (f : Flags) :
    ((cmpCore .cfOriented a b f).sf ≠ (cmpCore .cfOriented a b f).ovf ↔ b.toInt < a.toInt) := by
  have ha := a.isLt
  have hb := b.isLt
  have h7 : ∀ x : Byte, x.getLsbD 7 = decide (128 ≤ x.toNat) := by decide
  have hi : ∀ x : Byte, x.toInt = if 128 ≤ x.toNat then (x.toNat : Int) - 256 else x.toNat := by decide
  simp only [cmpCore, h7, hi]
  by_cases h1 : 128 ≤ a.toNat <;> by_cases h2 : 128 ≤ b.toNat <;> by_cases h3 : b.toNat < a.toNat <;>
    simp [h1, h2, h3] <;> omega

/-- Under the other CMP_SIGNED_MODE, OF is the signed overflow of the subtraction (R264). -/
theorem cmpCore_subOriented (a b : Byte) (f : Flags) :
    (cmpCore .subOriented a b f).ovf = signedOverflow (a.toInt - b.toInt) := by
  have ha := a.isLt
  have hb := b.isLt
  have h7 : ∀ x : Byte, x.getLsbD 7 = decide (128 ≤ x.toNat) := by decide
  have hi : ∀ x : Byte, x.toInt = if 128 ≤ x.toNat then (x.toNat : Int) - 256 else x.toNat := by decide
  simp only [cmpCore, h7, signedOverflow, hi, BitVec.toNat_sub]
  by_cases h1 : 128 ≤ a.toNat <;> by_cases h2 : 128 ≤ b.toNat <;>
    by_cases h4 : 128 ≤ (2 ^ 8 - b.toNat + a.toNat) % 2 ^ 8 <;>
    simp only [h1, h2, h4, decide_true, decide_false, if_true, if_false] <;> simp <;> omega

/-- The flags of AND, OR and NOT (R266). -/
theorem logicFlags_eq (m : LogicCfOf) (r : Byte) (f : Flags) : logicFlags m r f =
    { f with
      zf := decide (r = 0)
      sf := r.msb
      cf := if m = .cleared then false else f.cf
      ovf := if m = .cleared then false else f.ovf } := by
  cases m <;> simp [logicFlags, zfOf_eq, sfOf_eq_msb]

/-- The flags of a shift (R267). -/
theorem shiftFlags_eq (r : Byte) (c o : Bool) (f : Flags) : shiftFlags r c o f = arithFlags f r c o := by
  simp [shiftFlags, arithFlags, zfOf_eq, sfOf_eq]

/-- A left shift by one doubles (R267). -/
theorem shl_one_eq (a : Byte) : a <<< 1 = BitVec.ofNat 8 (2 * a.toNat) := by
  apply BitVec.eq_of_toNat_eq
  simp [Nat.shiftLeft_eq, Nat.mul_comm]

/-- A right shift by one halves (R267). -/
theorem shr_one_eq (a : Byte) : a >>> 1 = BitVec.ofNat 8 (a.toNat / 2) := by
  apply BitVec.eq_of_toNat_eq
  have := a.isLt
  simp [Nat.shiftRight_eq_div_pow]
  omega

/-- An arithmetic right shift by one halves the signed reading, rounding down (R267). -/
theorem sarResult_eq (a : Byte) : sarResult a = BitVec.ofInt 8 (a.toInt / 2) := by
  revert a
  decide

end Sys2Proof.Machine
end

