-- ==== Sys2Proof/Laws/Memory.lean ====
section
/-! SUPPORT. Cells, devices and the bus: read after write, what a write leaves alone, what selection depends
on, and that every memory operation keeps the canonical form. -/

namespace Sys2Proof.Machine

open Sys2Proof

/-! ### Cells -/

theorem cellGet_put_same (l : List Host.Cell) (a : Nat) (v : Byte) : cellGet (cellPut l a v) a = some v := by
  induction l with
  | nil => simp [cellPut, cellGet]
  | cons c rest ih =>
    obtain ⟨k, w⟩ := c
    unfold cellPut
    split
    · simp [cellGet]
    · split
      · simp [cellGet]
      · rename_i h1 h2
        simp [cellGet, h2, ih]

theorem cellGet_put_other (l : List Host.Cell) {a b : Nat} (v : Byte) (h : b ≠ a) :
    cellGet (cellPut l a v) b = cellGet l b := by
  induction l with
  | nil => simp [cellPut, cellGet, h]
  | cons c rest ih =>
    obtain ⟨k, w⟩ := c
    unfold cellPut
    split
    · simp [cellGet, h]
    · split
      · rename_i h2
        subst h2
        simp [cellGet, h]
      · simp [cellGet, ih]

theorem mem_cellPut {l : List Host.Cell} {a : Nat} {v : Byte} {c : Host.Cell} (h : c ∈ cellPut l a v) :
    c = (a, v) ∨ c ∈ l := by
  induction l with
  | nil => simpa [cellPut] using h
  | cons e rest ih =>
    obtain ⟨k, w⟩ := e
    unfold cellPut at h
    split at h
    · simpa using h
    · split at h
      · rcases List.mem_cons.1 h with h | h
        · exact .inl h
        · exact .inr (List.mem_cons_of_mem _ h)
      · rcases List.mem_cons.1 h with h | h
        · exact .inr (h ▸ List.mem_cons_self)
        · exact (ih h).imp id (List.mem_cons_of_mem _)

theorem cellsRise_put {l : List Host.Cell} (a : Nat) (v : Byte) (h : cellsRise l = true) :
    cellsRise (cellPut l a v) = true := by
  induction l with
  | nil => simp [cellPut, cellsRise]
  | cons e rest ih =>
    obtain ⟨k, w⟩ := e
    simp only [cellsRise, Bool.and_eq_true, List.all_eq_true, decide_eq_true_eq] at h
    unfold cellPut
    split
    · rename_i hk
      simp only [cellsRise, Bool.and_eq_true, List.all_eq_true, decide_eq_true_eq]
      refine ⟨fun c hc => ?_, h⟩
      rcases List.mem_cons.1 hc with rfl | hc
      · exact hk
      · exact Nat.lt_trans hk (h.1 c hc)
    · split
      · rename_i hk
        subst hk
        simpa only [cellsRise, Bool.and_eq_true, List.all_eq_true, decide_eq_true_eq] using h
      · rename_i h1 h2
        simp only [cellsRise, Bool.and_eq_true, List.all_eq_true, decide_eq_true_eq]
        refine ⟨fun c hc => ?_, ih h.2⟩
        rcases mem_cellPut hc with rfl | hc
        · show k < a
          omega
        · exact h.1 c hc

/-! ### Devices -/

@[simp] theorem Device.shape_write (d : Device) (a : Nat) (v : Byte) : (d.write a v).shape = d.shape := by
  unfold Device.write
  split <;> rfl

@[simp] theorem Device.shape_load (d : Device) (a : Nat) (v : Byte) : (d.load a v).shape = d.shape := by
  unfold Device.load
  split <;> rfl

theorem Device.inRange_of_shape {d e : Device} (h : d.shape = e.shape) (a : Nat) : d.inRange a = e.inRange a := by
  have hl : d.shape.low = e.shape.low := by rw [h]
  have hh : d.shape.high = e.shape.high := by rw [h]
  show (decide (d.shape.low ≤ a) && decide (a ≤ d.shape.high)) = (decide (e.shape.low ≤ a) && decide (a ≤ e.shape.high))
  rw [hl, hh]

theorem Device.readable_of_shape {d e : Device} (h : d.shape = e.shape) : d.readable = e.readable := by
  have : d.shape.readable = e.shape.readable := by rw [h]
  exact this

theorem Device.writeable_of_shape {d e : Device} (h : d.shape = e.shape) : d.writeable = e.writeable := by
  have : d.shape.writeable = e.shape.writeable := by rw [h]
  exact this

theorem Device.routed_of_shape {d e : Device} (h : d.shape = e.shape) (r : IoRouting) (io : Bool) :
    d.routed r io = e.routed r io := by
  have hi : d.shape.isIO = e.shape.isIO := by rw [h]
  have hi' : d.isIO = e.isIO := hi
  cases r <;> simp [Device.routed, hi']

theorem Device.wf_put {d : Device} {a : Nat} (v : Byte) (hr : d.inRange a = true) (h : d.wf = true) :
    Device.wf { d with cells := cellPut d.cells a v } = true := by
  simp only [Device.wf, Bool.and_eq_true, List.all_eq_true, decide_eq_true_eq] at h ⊢
  refine ⟨⟨h.1.1, cellsRise_put a v h.1.2⟩, fun c hc => ?_⟩
  rcases mem_cellPut hc with rfl | hc
  · exact hr
  · exact h.2 c hc

/-- A device write keeps the canonical form. -/
theorem Device.wf_write {d : Device} (a : Nat) (v : Byte) (h : d.wf = true) : (d.write a v).wf = true := by
  unfold Device.write
  split
  · rename_i hr
    exact Device.wf_put v (by simp only [Bool.and_eq_true] at hr; exact hr.2) h
  · exact h

/-- Loading a byte keeps the canonical form. -/
theorem Device.wf_load {d : Device} (a : Nat) (v : Byte) (h : d.wf = true) : (d.load a v).wf = true := by
  unfold Device.load
  split
  · exact Device.wf_put v ‹_› h
  · exact h

/-- Loading an image keeps the canonical form. -/
theorem Device.wf_loadImage {d : Device} (a : Nat) (l : List Byte) (h : d.wf = true) :
    (d.loadImage a l).wf = true := by
  induction l generalizing d a with
  | nil => exact h
  | cons v vs ih => exact ih (a + 1) (Device.wf_load a v h)

/-- A lazy read keeps the canonical form. -/
theorem Device.wf_readLazy {d : Device} (a : Nat) (v : Byte) (h : d.wf = true) : (d.readLazy a v).2.wf = true := by
  unfold Device.readLazy
  split
  · rename_i hr
    split
    · exact h
    · exact Device.wf_put v (by simp only [Bool.and_eq_true] at hr; exact hr.1) h
  · exact h

theorem Device.byteAt_write_same {d : Device} (dev a : Nat) (v : Byte) (hw : d.writeable = true)
    (hr : d.inRange a = true) : (d.write a v).byteAt dev a = v := by
  simp [Device.write, Device.byteAt, hw, hr, cellGet_put_same]

theorem Device.byteAt_write_other {d : Device} (dev : Nat) {a b : Nat} (v : Byte) (h : b ≠ a) :
    (d.write a v).byteAt dev b = d.byteAt dev b := by
  unfold Device.write
  split <;> simp [Device.byteAt, cellGet_put_other _ _ h]

theorem Device.write_of_not_writeable {d : Device} (a : Nat) (v : Byte) (h : d.writeable = false) :
    d.write a v = d := by simp [Device.write, h]

/-! ### Selection -/

/-- What the decoder selects: a device that holds the address, and none before it (R91, R96). -/
theorem Memory.select_some {m : Memory} {r : IoRouting} {io : Bool} {a : PhysAddr} {k : Nat}
    (h : Memory.select m r io a = some k) :
    ∃ d, m[k]? = some d ∧ d.routed r io = true ∧ d.inRange a.toNat = true
      ∧ ∀ j < k, ∀ e, m[j]? = some e → (e.routed r io && e.inRange a.toNat) = false := by
  unfold Memory.select at h
  rw [List.findIdx?_eq_some_iff_getElem] at h
  obtain ⟨hk, hp, hmin⟩ := h
  simp only [Bool.and_eq_true] at hp
  refine ⟨m[k], by simp [hk], hp.1, hp.2, fun j hj e he => ?_⟩
  have hj' : j < m.length := by omega
  have : e = m[j] := by
    rw [List.getElem?_eq_getElem hj'] at he
    exact (Option.some.inj he).symm
  have := hmin j hj
  simp_all

theorem Memory.select_none {m : Memory} {r : IoRouting} {io : Bool} {a : PhysAddr}
    (h : Memory.select m r io a = none) : ∀ d ∈ m, (d.routed r io && d.inRange a.toNat) = false := by
  unfold Memory.select at h
  rw [List.findIdx?_eq_none_iff] at h
  exact h

/-- Selection depends on the devices' shapes alone. -/
theorem Memory.select_congr {m n : Memory} (h : m.map Device.shape = n.map Device.shape) (r : IoRouting) (io : Bool)
    (a : PhysAddr) : Memory.select m r io a = Memory.select n r io a := by
  unfold Memory.select
  induction m generalizing n with
  | nil =>
    cases n with
    | nil => rfl
    | cons e es => simp at h
  | cons d ds ih =>
    cases n with
    | nil => simp at h
    | cons e es =>
      simp only [List.map_cons, List.cons.injEq] at h
      simp only [List.findIdx?_cons, Device.routed_of_shape h.1, Device.inRange_of_shape h.1, ih h.2]

theorem Memory.map_shape_modify (m : Memory) (k : Nat) (f : Device → Device) (hf : ∀ d, (f d).shape = d.shape) :
    (m.modify k f).map Device.shape = m.map Device.shape := by
  apply List.ext_getElem?
  intro i
  simp only [List.getElem?_map, List.getElem?_modify]
  by_cases h : k = i
  · subst h
    cases m[k]? <;> simp [hf]
  · cases m[i]? <;> simp [h]

@[simp] theorem Memory.map_shape_write (m : Memory) (r : IoRouting) (io : Bool) (a : PhysAddr) (v : Byte) :
    (Memory.write m r io a v).map Device.shape = m.map Device.shape := by
  unfold Memory.write
  split
  · rfl
  · exact Memory.map_shape_modify m _ _ fun d => Device.shape_write d _ v

/-- A write does not change what is selected. -/
@[simp] theorem Memory.select_write (m : Memory) (r r' : IoRouting) (io io' : Bool) (a b : PhysAddr) (v : Byte) :
    Memory.select (Memory.write m r io a v) r' io' b = Memory.select m r' io' b :=
  Memory.select_congr (Memory.map_shape_write m r io a v) r' io' b

/-! ### What a write does -/

/-- A write is dropped where no device answers (R93). -/
theorem Memory.write_none {m : Memory} {r : IoRouting} {io : Bool} {a : PhysAddr} (v : Byte)
    (h : Memory.select m r io a = none) : Memory.write m r io a v = m := by simp [Memory.write, h]

/-- What device `j` is after a write. -/
theorem Memory.getElem?_write {m : Memory} {r : IoRouting} {io : Bool} {a : PhysAddr} {k : Nat} (v : Byte)
    (h : Memory.select m r io a = some k) (j : Nat) :
    (Memory.write m r io a v)[j]? = if k = j then (m[j]?).map fun d => d.write a.toNat v else m[j]? := by
  simp only [Memory.write, h, List.getElem?_modify]
  split <;> rename_i hk <;> cases m[j]? <;> simp

/-- An accepted write puts its byte into the selected cell (R85, R93). -/
theorem Memory.cell_write_same {m : Memory} {r : IoRouting} {io : Bool} {a : PhysAddr} {k : Nat} {d : Device} (v : Byte)
    (h : Memory.select m r io a = some k) (hd : m[k]? = some d) (hw : d.writeable = true) :
    Memory.cell (Memory.write m r io a v) k a.toNat = v := by
  obtain ⟨e, he, _, hr, _⟩ := Memory.select_some h
  have : e = d := by rw [he] at hd; exact Option.some.inj hd
  subst this
  simp [Memory.cell, Memory.getElem?_write v h, he, Device.byteAt_write_same k a.toNat v hw hr]

/-- A write leaves every other cell alone. -/
theorem Memory.cell_write_other {m : Memory} {r : IoRouting} {io : Bool} {a : PhysAddr} (v : Byte) (j b : Nat)
    (h : Memory.select m r io a = some j → b ≠ a.toNat) :
    Memory.cell (Memory.write m r io a v) j b = Memory.cell m j b := by
  cases hs : Memory.select m r io a with
  | none => rw [Memory.write_none v hs]
  | some k =>
    unfold Memory.cell
    rw [Memory.getElem?_write v hs]
    by_cases hk : k = j
    · subst hk
      have hb := h hs
      simp only [↓reduceIte]
      cases m[k]? with
      | none => rfl
      | some d => exact Device.byteAt_write_other k v hb
    · simp [hk]

/-- A refused write changes nothing (R85, R94). -/
theorem Memory.write_refused {m : Memory} {r : IoRouting} {io : Bool} {a : PhysAddr} {k : Nat} {d : Device} (v : Byte)
    (h : Memory.select m r io a = some k) (hd : m[k]? = some d) (hw : d.writeable = false) :
    Memory.write m r io a v = m := by
  apply List.ext_getElem?
  intro j
  rw [Memory.getElem?_write v h]
  by_cases hk : k = j
  · subst hk
    simp [hd, Device.write_of_not_writeable _ _ hw]
  · simp [hk]

/-! ### Reads -/

/-- What a read answers: the cell of the selected device if that is readable (R86, R92, R94). -/
theorem Memory.read_eq {m : Memory} {r : IoRouting} {io : Bool} {a : PhysAddr} {k : Nat} {d : Device}
    (h : Memory.select m r io a = some k) (hd : m[k]? = some d) :
    Memory.read m r io a = if d.readable then some (Memory.cell m k a.toNat) else none := by
  obtain ⟨e, he, _, hr, _⟩ := Memory.select_some h
  have : e = d := by rw [he] at hd; exact Option.some.inj hd
  subst this
  simp [Memory.read, h, he, Device.read, hr, Memory.cell]

/-- A read where no device answers is a draw (R92). -/
theorem Memory.read_none {m : Memory} {r : IoRouting} {io : Bool} {a : PhysAddr}
    (h : Memory.select m r io a = none) : Memory.read m r io a = none := by simp [Memory.read, h]

/-! ### The canonical form -/

theorem Memory.wf_modify {m : Memory} (k : Nat) {f : Device → Device} (hf : ∀ d, d.wf = true → (f d).wf = true)
    (h : Memory.wf m = true) : Memory.wf (m.modify k f) = true := by
  simp only [Memory.wf, List.all_eq_true] at h ⊢
  intro d hd
  obtain ⟨i, hi, rfl⟩ := List.mem_iff_getElem.1 hd
  rw [List.getElem_modify]
  split
  · exact hf _ (h _ (List.getElem_mem _))
  · exact h _ (List.getElem_mem _)

/-- A bus write keeps the canonical form. -/
theorem Memory.wf_write {m : Memory} (r : IoRouting) (io : Bool) (a : PhysAddr) (v : Byte) (h : Memory.wf m = true) :
    Memory.wf (Memory.write m r io a v) = true := by
  unfold Memory.write
  split
  · exact h
  · exact Memory.wf_modify _ (fun d hd => Device.wf_write _ v hd) h

/-- Loading a byte keeps the canonical form. -/
theorem Memory.wf_load {m : Memory} (r : IoRouting) (a : PhysAddr) (v : Byte) (h : Memory.wf m = true) :
    Memory.wf (Memory.load m r a v) = true := by
  unfold Memory.load
  split
  · exact h
  · exact Memory.wf_modify _ (fun d hd => Device.wf_load _ v hd) h

/-- Loading an image keeps the canonical form. -/
theorem Memory.wf_loadImage {m : Memory} (r : IoRouting) (a : PhysAddr) (l : List Byte) (h : Memory.wf m = true) :
    Memory.wf (Memory.loadImage m r a l) = true := by
  unfold Memory.loadImage
  split
  · exact h
  · exact Memory.wf_modify _ (fun d hd => Device.wf_loadImage _ l hd) h

/-- The reset state's memory is in canonical form. -/
theorem reset_memory_wf : Memory.wf State.reset.mem = true := by decide

end Sys2Proof.Machine
end

