-- ==== Sys2Proof/Laws/State.lean ====
section
/-! SUPPORT. One lemma per group of fields per update, so that no later proof unfolds a record update. -/

namespace Sys2Proof.Machine

open Sys2Proof

/-! ### The updates of Machine/State.lean -/

@[simp] theorem State.setRegs_regs (s : State) (r : Regs) : (s.setRegs r).regs = r := rfl
@[simp] theorem State.setRegs_flags (s : State) (r : Regs) : (s.setRegs r).flags = s.flags := rfl
@[simp] theorem State.setRegs_bus (s : State) (r : Regs) : (s.setRegs r).bus = s.bus := rfl
@[simp] theorem State.setRegs_latch (s : State) (r : Regs) : (s.setRegs r).latch = s.latch := rfl
@[simp] theorem State.setRegs_micro (s : State) (r : Regs) : (s.setRegs r).micro = s.micro := rfl
@[simp] theorem State.setRegs_irq (s : State) (r : Regs) : (s.setRegs r).irq = s.irq := rfl
@[simp] theorem State.setRegs_mem (s : State) (r : Regs) : (s.setRegs r).mem = s.mem := rfl
@[simp] theorem State.setRegs_params (s : State) (r : Regs) : (s.setRegs r).params = s.params := rfl
@[simp] theorem State.setRegs_draws (s : State) (r : Regs) : (s.setRegs r).draws = s.draws := rfl

@[simp] theorem State.setFlags_regs (s : State) (f : Flags) : (s.setFlags f).regs = s.regs := rfl
@[simp] theorem State.setFlags_flags (s : State) (f : Flags) : (s.setFlags f).flags = f := rfl
@[simp] theorem State.setFlags_bus (s : State) (f : Flags) : (s.setFlags f).bus = s.bus := rfl
@[simp] theorem State.setFlags_latch (s : State) (f : Flags) : (s.setFlags f).latch = s.latch := rfl
@[simp] theorem State.setFlags_micro (s : State) (f : Flags) : (s.setFlags f).micro = s.micro := rfl
@[simp] theorem State.setFlags_irq (s : State) (f : Flags) : (s.setFlags f).irq = s.irq := rfl
@[simp] theorem State.setFlags_mem (s : State) (f : Flags) : (s.setFlags f).mem = s.mem := rfl
@[simp] theorem State.setFlags_params (s : State) (f : Flags) : (s.setFlags f).params = s.params := rfl
@[simp] theorem State.setFlags_draws (s : State) (f : Flags) : (s.setFlags f).draws = s.draws := rfl

@[simp] theorem State.setBus_regs (s : State) (b : BusLatches) : (s.setBus b).regs = s.regs := rfl
@[simp] theorem State.setBus_flags (s : State) (b : BusLatches) : (s.setBus b).flags = s.flags := rfl
@[simp] theorem State.setBus_bus (s : State) (b : BusLatches) : (s.setBus b).bus = b := rfl
@[simp] theorem State.setBus_latch (s : State) (b : BusLatches) : (s.setBus b).latch = s.latch := rfl
@[simp] theorem State.setBus_micro (s : State) (b : BusLatches) : (s.setBus b).micro = s.micro := rfl
@[simp] theorem State.setBus_irq (s : State) (b : BusLatches) : (s.setBus b).irq = s.irq := rfl
@[simp] theorem State.setBus_mem (s : State) (b : BusLatches) : (s.setBus b).mem = s.mem := rfl
@[simp] theorem State.setBus_params (s : State) (b : BusLatches) : (s.setBus b).params = s.params := rfl
@[simp] theorem State.setBus_draws (s : State) (b : BusLatches) : (s.setBus b).draws = s.draws := rfl

@[simp] theorem State.setLatch_regs (s : State) (l : DecodeLatches) : (s.setLatch l).regs = s.regs := rfl
@[simp] theorem State.setLatch_flags (s : State) (l : DecodeLatches) : (s.setLatch l).flags = s.flags := rfl
@[simp] theorem State.setLatch_bus (s : State) (l : DecodeLatches) : (s.setLatch l).bus = s.bus := rfl
@[simp] theorem State.setLatch_latch (s : State) (l : DecodeLatches) : (s.setLatch l).latch = l := rfl
@[simp] theorem State.setLatch_micro (s : State) (l : DecodeLatches) : (s.setLatch l).micro = s.micro := rfl
@[simp] theorem State.setLatch_irq (s : State) (l : DecodeLatches) : (s.setLatch l).irq = s.irq := rfl
@[simp] theorem State.setLatch_mem (s : State) (l : DecodeLatches) : (s.setLatch l).mem = s.mem := rfl
@[simp] theorem State.setLatch_params (s : State) (l : DecodeLatches) : (s.setLatch l).params = s.params := rfl
@[simp] theorem State.setLatch_draws (s : State) (l : DecodeLatches) : (s.setLatch l).draws = s.draws := rfl

@[simp] theorem State.setMicro_regs (s : State) (m : MicroControl) : (s.setMicro m).regs = s.regs := rfl
@[simp] theorem State.setMicro_flags (s : State) (m : MicroControl) : (s.setMicro m).flags = s.flags := rfl
@[simp] theorem State.setMicro_bus (s : State) (m : MicroControl) : (s.setMicro m).bus = s.bus := rfl
@[simp] theorem State.setMicro_latch (s : State) (m : MicroControl) : (s.setMicro m).latch = s.latch := rfl
@[simp] theorem State.setMicro_micro (s : State) (m : MicroControl) : (s.setMicro m).micro = m := rfl
@[simp] theorem State.setMicro_irq (s : State) (m : MicroControl) : (s.setMicro m).irq = s.irq := rfl
@[simp] theorem State.setMicro_mem (s : State) (m : MicroControl) : (s.setMicro m).mem = s.mem := rfl
@[simp] theorem State.setMicro_params (s : State) (m : MicroControl) : (s.setMicro m).params = s.params := rfl
@[simp] theorem State.setMicro_draws (s : State) (m : MicroControl) : (s.setMicro m).draws = s.draws := rfl

@[simp] theorem State.setIrq_regs (s : State) (i : IrqLine) : (s.setIrq i).regs = s.regs := rfl
@[simp] theorem State.setIrq_flags (s : State) (i : IrqLine) : (s.setIrq i).flags = s.flags := rfl
@[simp] theorem State.setIrq_bus (s : State) (i : IrqLine) : (s.setIrq i).bus = s.bus := rfl
@[simp] theorem State.setIrq_latch (s : State) (i : IrqLine) : (s.setIrq i).latch = s.latch := rfl
@[simp] theorem State.setIrq_micro (s : State) (i : IrqLine) : (s.setIrq i).micro = s.micro := rfl
@[simp] theorem State.setIrq_irq (s : State) (i : IrqLine) : (s.setIrq i).irq = i := rfl
@[simp] theorem State.setIrq_mem (s : State) (i : IrqLine) : (s.setIrq i).mem = s.mem := rfl
@[simp] theorem State.setIrq_params (s : State) (i : IrqLine) : (s.setIrq i).params = s.params := rfl
@[simp] theorem State.setIrq_draws (s : State) (i : IrqLine) : (s.setIrq i).draws = s.draws := rfl

@[simp] theorem State.setMem_regs (s : State) (m : Memory) : (s.setMem m).regs = s.regs := rfl
@[simp] theorem State.setMem_flags (s : State) (m : Memory) : (s.setMem m).flags = s.flags := rfl
@[simp] theorem State.setMem_bus (s : State) (m : Memory) : (s.setMem m).bus = s.bus := rfl
@[simp] theorem State.setMem_latch (s : State) (m : Memory) : (s.setMem m).latch = s.latch := rfl
@[simp] theorem State.setMem_micro (s : State) (m : Memory) : (s.setMem m).micro = s.micro := rfl
@[simp] theorem State.setMem_irq (s : State) (m : Memory) : (s.setMem m).irq = s.irq := rfl
@[simp] theorem State.setMem_mem (s : State) (m : Memory) : (s.setMem m).mem = m := rfl
@[simp] theorem State.setMem_params (s : State) (m : Memory) : (s.setMem m).params = s.params := rfl
@[simp] theorem State.setMem_draws (s : State) (m : Memory) : (s.setMem m).draws = s.draws := rfl

@[simp] theorem State.nextDraw_regs (s : State) : (s.nextDraw).regs = s.regs := rfl
@[simp] theorem State.nextDraw_flags (s : State) : (s.nextDraw).flags = s.flags := rfl
@[simp] theorem State.nextDraw_bus (s : State) : (s.nextDraw).bus = s.bus := rfl
@[simp] theorem State.nextDraw_latch (s : State) : (s.nextDraw).latch = s.latch := rfl
@[simp] theorem State.nextDraw_micro (s : State) : (s.nextDraw).micro = s.micro := rfl
@[simp] theorem State.nextDraw_irq (s : State) : (s.nextDraw).irq = s.irq := rfl
@[simp] theorem State.nextDraw_mem (s : State) : (s.nextDraw).mem = s.mem := rfl
@[simp] theorem State.nextDraw_params (s : State) : (s.nextDraw).params = s.params := rfl
@[simp] theorem State.nextDraw_draws (s : State) : (s.nextDraw).draws = s.draws + 1 := rfl

/-! ### The updates of Machine/Ops.lean -/

@[simp] theorem State.withAl_regs (s : State) (v : Byte) : (s.withAl v).regs = { s.regs with al := v } := rfl
@[simp] theorem State.withAl_flags (s : State) (v : Byte) : (s.withAl v).flags = s.flags := rfl
@[simp] theorem State.withAl_bus (s : State) (v : Byte) : (s.withAl v).bus = s.bus := rfl
@[simp] theorem State.withAl_latch (s : State) (v : Byte) : (s.withAl v).latch = s.latch := rfl
@[simp] theorem State.withAl_micro (s : State) (v : Byte) : (s.withAl v).micro = s.micro := rfl
@[simp] theorem State.withAl_irq (s : State) (v : Byte) : (s.withAl v).irq = s.irq := rfl
@[simp] theorem State.withAl_mem (s : State) (v : Byte) : (s.withAl v).mem = s.mem := rfl
@[simp] theorem State.withAl_params (s : State) (v : Byte) : (s.withAl v).params = s.params := rfl
@[simp] theorem State.withAl_draws (s : State) (v : Byte) : (s.withAl v).draws = s.draws := rfl

@[simp] theorem State.withAh_regs (s : State) (v : Byte) : (s.withAh v).regs = { s.regs with ah := v } := rfl
@[simp] theorem State.withAh_flags (s : State) (v : Byte) : (s.withAh v).flags = s.flags := rfl
@[simp] theorem State.withAh_bus (s : State) (v : Byte) : (s.withAh v).bus = s.bus := rfl
@[simp] theorem State.withAh_latch (s : State) (v : Byte) : (s.withAh v).latch = s.latch := rfl
@[simp] theorem State.withAh_micro (s : State) (v : Byte) : (s.withAh v).micro = s.micro := rfl
@[simp] theorem State.withAh_irq (s : State) (v : Byte) : (s.withAh v).irq = s.irq := rfl
@[simp] theorem State.withAh_mem (s : State) (v : Byte) : (s.withAh v).mem = s.mem := rfl
@[simp] theorem State.withAh_params (s : State) (v : Byte) : (s.withAh v).params = s.params := rfl
@[simp] theorem State.withAh_draws (s : State) (v : Byte) : (s.withAh v).draws = s.draws := rfl

@[simp] theorem State.withDs_regs (s : State) (v : Word) : (s.withDs v).regs = { s.regs with ds := v } := rfl
@[simp] theorem State.withDs_flags (s : State) (v : Word) : (s.withDs v).flags = s.flags := rfl
@[simp] theorem State.withDs_bus (s : State) (v : Word) : (s.withDs v).bus = s.bus := rfl
@[simp] theorem State.withDs_latch (s : State) (v : Word) : (s.withDs v).latch = s.latch := rfl
@[simp] theorem State.withDs_micro (s : State) (v : Word) : (s.withDs v).micro = s.micro := rfl
@[simp] theorem State.withDs_irq (s : State) (v : Word) : (s.withDs v).irq = s.irq := rfl
@[simp] theorem State.withDs_mem (s : State) (v : Word) : (s.withDs v).mem = s.mem := rfl
@[simp] theorem State.withDs_params (s : State) (v : Word) : (s.withDs v).params = s.params := rfl
@[simp] theorem State.withDs_draws (s : State) (v : Word) : (s.withDs v).draws = s.draws := rfl

@[simp] theorem State.withSs_regs (s : State) (v : Word) : (s.withSs v).regs = { s.regs with ss := v } := rfl
@[simp] theorem State.withSs_flags (s : State) (v : Word) : (s.withSs v).flags = s.flags := rfl
@[simp] theorem State.withSs_bus (s : State) (v : Word) : (s.withSs v).bus = s.bus := rfl
@[simp] theorem State.withSs_latch (s : State) (v : Word) : (s.withSs v).latch = s.latch := rfl
@[simp] theorem State.withSs_micro (s : State) (v : Word) : (s.withSs v).micro = s.micro := rfl
@[simp] theorem State.withSs_irq (s : State) (v : Word) : (s.withSs v).irq = s.irq := rfl
@[simp] theorem State.withSs_mem (s : State) (v : Word) : (s.withSs v).mem = s.mem := rfl
@[simp] theorem State.withSs_params (s : State) (v : Word) : (s.withSs v).params = s.params := rfl
@[simp] theorem State.withSs_draws (s : State) (v : Word) : (s.withSs v).draws = s.draws := rfl

@[simp] theorem State.withSp_regs (s : State) (v : Word) : (s.withSp v).regs = { s.regs with sp := v } := rfl
@[simp] theorem State.withSp_flags (s : State) (v : Word) : (s.withSp v).flags = s.flags := rfl
@[simp] theorem State.withSp_bus (s : State) (v : Word) : (s.withSp v).bus = s.bus := rfl
@[simp] theorem State.withSp_latch (s : State) (v : Word) : (s.withSp v).latch = s.latch := rfl
@[simp] theorem State.withSp_micro (s : State) (v : Word) : (s.withSp v).micro = s.micro := rfl
@[simp] theorem State.withSp_irq (s : State) (v : Word) : (s.withSp v).irq = s.irq := rfl
@[simp] theorem State.withSp_mem (s : State) (v : Word) : (s.withSp v).mem = s.mem := rfl
@[simp] theorem State.withSp_params (s : State) (v : Word) : (s.withSp v).params = s.params := rfl
@[simp] theorem State.withSp_draws (s : State) (v : Word) : (s.withSp v).draws = s.draws := rfl

@[simp] theorem State.withDi_regs (s : State) (v : Word) : (s.withDi v).regs = { s.regs with di := v } := rfl
@[simp] theorem State.withDi_flags (s : State) (v : Word) : (s.withDi v).flags = s.flags := rfl
@[simp] theorem State.withDi_bus (s : State) (v : Word) : (s.withDi v).bus = s.bus := rfl
@[simp] theorem State.withDi_latch (s : State) (v : Word) : (s.withDi v).latch = s.latch := rfl
@[simp] theorem State.withDi_micro (s : State) (v : Word) : (s.withDi v).micro = s.micro := rfl
@[simp] theorem State.withDi_irq (s : State) (v : Word) : (s.withDi v).irq = s.irq := rfl
@[simp] theorem State.withDi_mem (s : State) (v : Word) : (s.withDi v).mem = s.mem := rfl
@[simp] theorem State.withDi_params (s : State) (v : Word) : (s.withDi v).params = s.params := rfl
@[simp] theorem State.withDi_draws (s : State) (v : Word) : (s.withDi v).draws = s.draws := rfl

@[simp] theorem State.withIp_regs (s : State) (v : Word) : (s.withIp v).regs = { s.regs with ip := v } := rfl
@[simp] theorem State.withIp_flags (s : State) (v : Word) : (s.withIp v).flags = s.flags := rfl
@[simp] theorem State.withIp_bus (s : State) (v : Word) : (s.withIp v).bus = s.bus := rfl
@[simp] theorem State.withIp_latch (s : State) (v : Word) : (s.withIp v).latch = s.latch := rfl
@[simp] theorem State.withIp_micro (s : State) (v : Word) : (s.withIp v).micro = s.micro := rfl
@[simp] theorem State.withIp_irq (s : State) (v : Word) : (s.withIp v).irq = s.irq := rfl
@[simp] theorem State.withIp_mem (s : State) (v : Word) : (s.withIp v).mem = s.mem := rfl
@[simp] theorem State.withIp_params (s : State) (v : Word) : (s.withIp v).params = s.params := rfl
@[simp] theorem State.withIp_draws (s : State) (v : Word) : (s.withIp v).draws = s.draws := rfl

@[simp] theorem State.withCs_regs (s : State) (v : Word) : (s.withCs v).regs = { s.regs with cs := v } := rfl
@[simp] theorem State.withCs_flags (s : State) (v : Word) : (s.withCs v).flags = s.flags := rfl
@[simp] theorem State.withCs_bus (s : State) (v : Word) : (s.withCs v).bus = s.bus := rfl
@[simp] theorem State.withCs_latch (s : State) (v : Word) : (s.withCs v).latch = s.latch := rfl
@[simp] theorem State.withCs_micro (s : State) (v : Word) : (s.withCs v).micro = s.micro := rfl
@[simp] theorem State.withCs_irq (s : State) (v : Word) : (s.withCs v).irq = s.irq := rfl
@[simp] theorem State.withCs_mem (s : State) (v : Word) : (s.withCs v).mem = s.mem := rfl
@[simp] theorem State.withCs_params (s : State) (v : Word) : (s.withCs v).params = s.params := rfl
@[simp] theorem State.withCs_draws (s : State) (v : Word) : (s.withCs v).draws = s.draws := rfl

@[simp] theorem State.withAx_regs (s : State) (w : Word) : (s.withAx w).regs = { s.regs with ah := hiByte w, al := loByte w } := rfl
@[simp] theorem State.withAx_flags (s : State) (w : Word) : (s.withAx w).flags = s.flags := rfl
@[simp] theorem State.withAx_bus (s : State) (w : Word) : (s.withAx w).bus = s.bus := rfl
@[simp] theorem State.withAx_latch (s : State) (w : Word) : (s.withAx w).latch = s.latch := rfl
@[simp] theorem State.withAx_micro (s : State) (w : Word) : (s.withAx w).micro = s.micro := rfl
@[simp] theorem State.withAx_irq (s : State) (w : Word) : (s.withAx w).irq = s.irq := rfl
@[simp] theorem State.withAx_mem (s : State) (w : Word) : (s.withAx w).mem = s.mem := rfl
@[simp] theorem State.withAx_params (s : State) (w : Word) : (s.withAx w).params = s.params := rfl
@[simp] theorem State.withAx_draws (s : State) (w : Word) : (s.withAx w).draws = s.draws := rfl

@[simp] theorem State.withSource_regs (s : State) (v : Byte) : (s.withSource v).regs = s.regs := rfl
@[simp] theorem State.withSource_flags (s : State) (v : Byte) : (s.withSource v).flags = s.flags := rfl
@[simp] theorem State.withSource_bus (s : State) (v : Byte) : (s.withSource v).bus = s.bus := rfl
@[simp] theorem State.withSource_latch (s : State) (v : Byte) : (s.withSource v).latch = { s.latch with source := v } := rfl
@[simp] theorem State.withSource_micro (s : State) (v : Byte) : (s.withSource v).micro = s.micro := rfl
@[simp] theorem State.withSource_irq (s : State) (v : Byte) : (s.withSource v).irq = s.irq := rfl
@[simp] theorem State.withSource_mem (s : State) (v : Byte) : (s.withSource v).mem = s.mem := rfl
@[simp] theorem State.withSource_params (s : State) (v : Byte) : (s.withSource v).params = s.params := rfl
@[simp] theorem State.withSource_draws (s : State) (v : Byte) : (s.withSource v).draws = s.draws := rfl

@[simp] theorem State.withOpcode_regs (s : State) (v : Byte) : (s.withOpcode v).regs = s.regs := rfl
@[simp] theorem State.withOpcode_flags (s : State) (v : Byte) : (s.withOpcode v).flags = s.flags := rfl
@[simp] theorem State.withOpcode_bus (s : State) (v : Byte) : (s.withOpcode v).bus = s.bus := rfl
@[simp] theorem State.withOpcode_latch (s : State) (v : Byte) : (s.withOpcode v).latch = { s.latch with opcode := v } := rfl
@[simp] theorem State.withOpcode_micro (s : State) (v : Byte) : (s.withOpcode v).micro = s.micro := rfl
@[simp] theorem State.withOpcode_irq (s : State) (v : Byte) : (s.withOpcode v).irq = s.irq := rfl
@[simp] theorem State.withOpcode_mem (s : State) (v : Byte) : (s.withOpcode v).mem = s.mem := rfl
@[simp] theorem State.withOpcode_params (s : State) (v : Byte) : (s.withOpcode v).params = s.params := rfl
@[simp] theorem State.withOpcode_draws (s : State) (v : Byte) : (s.withOpcode v).draws = s.draws := rfl

@[simp] theorem State.withDestOff_regs (s : State) (w : Word) : (s.withDestOff w).regs = s.regs := rfl
@[simp] theorem State.withDestOff_flags (s : State) (w : Word) : (s.withDestOff w).flags = s.flags := rfl
@[simp] theorem State.withDestOff_bus (s : State) (w : Word) : (s.withDestOff w).bus = s.bus := rfl
@[simp] theorem State.withDestOff_latch (s : State) (w : Word) : (s.withDestOff w).latch = { s.latch with destOff := w } := rfl
@[simp] theorem State.withDestOff_micro (s : State) (w : Word) : (s.withDestOff w).micro = s.micro := rfl
@[simp] theorem State.withDestOff_irq (s : State) (w : Word) : (s.withDestOff w).irq = s.irq := rfl
@[simp] theorem State.withDestOff_mem (s : State) (w : Word) : (s.withDestOff w).mem = s.mem := rfl
@[simp] theorem State.withDestOff_params (s : State) (w : Word) : (s.withDestOff w).params = s.params := rfl
@[simp] theorem State.withDestOff_draws (s : State) (w : Word) : (s.withDestOff w).draws = s.draws := rfl

@[simp] theorem State.withDest_regs (s : State) (sel off : Word) : (s.withDest sel off).regs = s.regs := rfl
@[simp] theorem State.withDest_flags (s : State) (sel off : Word) : (s.withDest sel off).flags = s.flags := rfl
@[simp] theorem State.withDest_bus (s : State) (sel off : Word) : (s.withDest sel off).bus = s.bus := rfl
@[simp] theorem State.withDest_latch (s : State) (sel off : Word) : (s.withDest sel off).latch = { s.latch with destSel := sel, destOff := off } := rfl
@[simp] theorem State.withDest_micro (s : State) (sel off : Word) : (s.withDest sel off).micro = s.micro := rfl
@[simp] theorem State.withDest_irq (s : State) (sel off : Word) : (s.withDest sel off).irq = s.irq := rfl
@[simp] theorem State.withDest_mem (s : State) (sel off : Word) : (s.withDest sel off).mem = s.mem := rfl
@[simp] theorem State.withDest_params (s : State) (sel off : Word) : (s.withDest sel off).params = s.params := rfl
@[simp] theorem State.withDest_draws (s : State) (sel off : Word) : (s.withDest sel off).draws = s.draws := rfl

@[simp] theorem State.withMjr_regs (s : State) (m : MicroState) : (s.withMjr m).regs = s.regs := rfl
@[simp] theorem State.withMjr_flags (s : State) (m : MicroState) : (s.withMjr m).flags = s.flags := rfl
@[simp] theorem State.withMjr_bus (s : State) (m : MicroState) : (s.withMjr m).bus = s.bus := rfl
@[simp] theorem State.withMjr_latch (s : State) (m : MicroState) : (s.withMjr m).latch = s.latch := rfl
@[simp] theorem State.withMjr_micro (s : State) (m : MicroState) : (s.withMjr m).micro = { s.micro with mjr := m } := rfl
@[simp] theorem State.withMjr_irq (s : State) (m : MicroState) : (s.withMjr m).irq = s.irq := rfl
@[simp] theorem State.withMjr_mem (s : State) (m : MicroState) : (s.withMjr m).mem = s.mem := rfl
@[simp] theorem State.withMjr_params (s : State) (m : MicroState) : (s.withMjr m).params = s.params := rfl
@[simp] theorem State.withMjr_draws (s : State) (m : MicroState) : (s.withMjr m).draws = s.draws := rfl

@[simp] theorem State.withCycle_regs (s : State) (a : PhysAddr) (v : Byte) (w : Bool) : (s.withCycle a v w).regs = s.regs := rfl
@[simp] theorem State.withCycle_flags (s : State) (a : PhysAddr) (v : Byte) (w : Bool) : (s.withCycle a v w).flags = s.flags := rfl
@[simp] theorem State.withCycle_bus (s : State) (a : PhysAddr) (v : Byte) (w : Bool) : (s.withCycle a v w).bus = ⟨a, v, w, false, false, false, false⟩ := rfl
@[simp] theorem State.withCycle_latch (s : State) (a : PhysAddr) (v : Byte) (w : Bool) : (s.withCycle a v w).latch = s.latch := rfl
@[simp] theorem State.withCycle_micro (s : State) (a : PhysAddr) (v : Byte) (w : Bool) : (s.withCycle a v w).micro = s.micro := rfl
@[simp] theorem State.withCycle_irq (s : State) (a : PhysAddr) (v : Byte) (w : Bool) : (s.withCycle a v w).irq = s.irq := rfl
@[simp] theorem State.withCycle_mem (s : State) (a : PhysAddr) (v : Byte) (w : Bool) : (s.withCycle a v w).mem = s.mem := rfl
@[simp] theorem State.withCycle_params (s : State) (a : PhysAddr) (v : Byte) (w : Bool) : (s.withCycle a v w).params = s.params := rfl
@[simp] theorem State.withCycle_draws (s : State) (a : PhysAddr) (v : Byte) (w : Bool) : (s.withCycle a v w).draws = s.draws := rfl

@[simp] theorem stackSwap_regs (s : State) : (stackSwap s).regs = 
      { s.regs with ss := s.regs.prevSS, sp := s.regs.prevSP, prevSS := s.regs.ss, prevSP := s.regs.sp } := rfl
@[simp] theorem stackSwap_flags (s : State) : (stackSwap s).flags = s.flags := rfl
@[simp] theorem stackSwap_bus (s : State) : (stackSwap s).bus = s.bus := rfl
@[simp] theorem stackSwap_latch (s : State) : (stackSwap s).latch = s.latch := rfl
@[simp] theorem stackSwap_micro (s : State) : (stackSwap s).micro = s.micro := rfl
@[simp] theorem stackSwap_irq (s : State) : (stackSwap s).irq = s.irq := rfl
@[simp] theorem stackSwap_mem (s : State) : (stackSwap s).mem = s.mem := rfl
@[simp] theorem stackSwap_params (s : State) : (stackSwap s).params = s.params := rfl
@[simp] theorem stackSwap_draws (s : State) : (stackSwap s).draws = s.draws := rfl

/-! ### The updates of Machine/Micro.lean -/

@[simp] theorem State.quiet_regs (s : State) : (s.quiet).regs = s.regs := rfl
@[simp] theorem State.quiet_flags (s : State) : (s.quiet).flags = s.flags := rfl
@[simp] theorem State.quiet_bus (s : State) : (s.quiet).bus = s.bus.quiet := rfl
@[simp] theorem State.quiet_latch (s : State) : (s.quiet).latch = s.latch := rfl
@[simp] theorem State.quiet_micro (s : State) : (s.quiet).micro = s.micro := rfl
@[simp] theorem State.quiet_irq (s : State) : (s.quiet).irq = s.irq := rfl
@[simp] theorem State.quiet_mem (s : State) : (s.quiet).mem = s.mem := rfl
@[simp] theorem State.quiet_params (s : State) : (s.quiet).params = s.params := rfl
@[simp] theorem State.quiet_draws (s : State) : (s.quiet).draws = s.draws := rfl

@[simp] theorem State.goto_regs (s : State) (m : MicroState) : (s.goto m).regs = s.regs := rfl
@[simp] theorem State.goto_flags (s : State) (m : MicroState) : (s.goto m).flags = s.flags := rfl
@[simp] theorem State.goto_bus (s : State) (m : MicroState) : (s.goto m).bus = s.bus := rfl
@[simp] theorem State.goto_latch (s : State) (m : MicroState) : (s.goto m).latch = s.latch := rfl
@[simp] theorem State.goto_micro (s : State) (m : MicroState) : (s.goto m).micro = { s.micro with star := m } := rfl
@[simp] theorem State.goto_irq (s : State) (m : MicroState) : (s.goto m).irq = s.irq := rfl
@[simp] theorem State.goto_mem (s : State) (m : MicroState) : (s.goto m).mem = s.mem := rfl
@[simp] theorem State.goto_params (s : State) (m : MicroState) : (s.goto m).params = s.params := rfl
@[simp] theorem State.goto_draws (s : State) (m : MicroState) : (s.goto m).draws = s.draws := rfl

@[simp] theorem State.aimRead_regs (s : State) (a : PhysAddr) : (s.aimRead a).regs = s.regs := rfl
@[simp] theorem State.aimRead_flags (s : State) (a : PhysAddr) : (s.aimRead a).flags = s.flags := rfl
@[simp] theorem State.aimRead_bus (s : State) (a : PhysAddr) : (s.aimRead a).bus = { s.bus.quiet with mar := a, dir := false } := rfl
@[simp] theorem State.aimRead_latch (s : State) (a : PhysAddr) : (s.aimRead a).latch = s.latch := rfl
@[simp] theorem State.aimRead_micro (s : State) (a : PhysAddr) : (s.aimRead a).micro = s.micro := rfl
@[simp] theorem State.aimRead_irq (s : State) (a : PhysAddr) : (s.aimRead a).irq = s.irq := rfl
@[simp] theorem State.aimRead_mem (s : State) (a : PhysAddr) : (s.aimRead a).mem = s.mem := rfl
@[simp] theorem State.aimRead_params (s : State) (a : PhysAddr) : (s.aimRead a).params = s.params := rfl
@[simp] theorem State.aimRead_draws (s : State) (a : PhysAddr) : (s.aimRead a).draws = s.draws := rfl

@[simp] theorem State.aimWrite_regs (s : State) (a : PhysAddr) (v : Byte) : (s.aimWrite a v).regs = s.regs := rfl
@[simp] theorem State.aimWrite_flags (s : State) (a : PhysAddr) (v : Byte) : (s.aimWrite a v).flags = s.flags := rfl
@[simp] theorem State.aimWrite_bus (s : State) (a : PhysAddr) (v : Byte) : (s.aimWrite a v).bus = { s.bus.quiet with mar := a, mbr := v, dir := true } := rfl
@[simp] theorem State.aimWrite_latch (s : State) (a : PhysAddr) (v : Byte) : (s.aimWrite a v).latch = s.latch := rfl
@[simp] theorem State.aimWrite_micro (s : State) (a : PhysAddr) (v : Byte) : (s.aimWrite a v).micro = s.micro := rfl
@[simp] theorem State.aimWrite_irq (s : State) (a : PhysAddr) (v : Byte) : (s.aimWrite a v).irq = s.irq := rfl
@[simp] theorem State.aimWrite_mem (s : State) (a : PhysAddr) (v : Byte) : (s.aimWrite a v).mem = s.mem := rfl
@[simp] theorem State.aimWrite_params (s : State) (a : PhysAddr) (v : Byte) : (s.aimWrite a v).params = s.params := rfl
@[simp] theorem State.aimWrite_draws (s : State) (a : PhysAddr) (v : Byte) : (s.aimWrite a v).draws = s.draws := rfl

@[simp] theorem State.strobeRead_regs (s : State) (io : Bool) : (s.strobeRead io).regs = s.regs := rfl
@[simp] theorem State.strobeRead_flags (s : State) (io : Bool) : (s.strobeRead io).flags = s.flags := rfl
@[simp] theorem State.strobeRead_bus (s : State) (io : Bool) : (s.strobeRead io).bus = { s.bus.quiet with memr := !io, ior := io } := rfl
@[simp] theorem State.strobeRead_latch (s : State) (io : Bool) : (s.strobeRead io).latch = s.latch := rfl
@[simp] theorem State.strobeRead_micro (s : State) (io : Bool) : (s.strobeRead io).micro = s.micro := rfl
@[simp] theorem State.strobeRead_irq (s : State) (io : Bool) : (s.strobeRead io).irq = s.irq := rfl
@[simp] theorem State.strobeRead_mem (s : State) (io : Bool) : (s.strobeRead io).mem = s.mem := rfl
@[simp] theorem State.strobeRead_params (s : State) (io : Bool) : (s.strobeRead io).params = s.params := rfl
@[simp] theorem State.strobeRead_draws (s : State) (io : Bool) : (s.strobeRead io).draws = s.draws := rfl

@[simp] theorem State.strobeWrite_regs (s : State) (io : Bool) : (s.strobeWrite io).regs = s.regs := rfl
@[simp] theorem State.strobeWrite_flags (s : State) (io : Bool) : (s.strobeWrite io).flags = s.flags := rfl
@[simp] theorem State.strobeWrite_bus (s : State) (io : Bool) : (s.strobeWrite io).bus = { s.bus.quiet with memw := !io, iow := io } := rfl
@[simp] theorem State.strobeWrite_latch (s : State) (io : Bool) : (s.strobeWrite io).latch = s.latch := rfl
@[simp] theorem State.strobeWrite_micro (s : State) (io : Bool) : (s.strobeWrite io).micro = s.micro := rfl
@[simp] theorem State.strobeWrite_irq (s : State) (io : Bool) : (s.strobeWrite io).irq = s.irq := rfl
@[simp] theorem State.strobeWrite_mem (s : State) (io : Bool) : (s.strobeWrite io).mem = s.mem := rfl
@[simp] theorem State.strobeWrite_params (s : State) (io : Bool) : (s.strobeWrite io).params = s.params := rfl
@[simp] theorem State.strobeWrite_draws (s : State) (io : Bool) : (s.strobeWrite io).draws = s.draws := rfl

@[simp] theorem State.keepByte_regs (s : State) : (s.keepByte).regs = s.regs := rfl
@[simp] theorem State.keepByte_flags (s : State) : (s.keepByte).flags = s.flags := rfl
@[simp] theorem State.keepByte_bus (s : State) : (s.keepByte).bus = s.bus := rfl
@[simp] theorem State.keepByte_latch (s : State) : (s.keepByte).latch = s.latch := rfl
@[simp] theorem State.keepByte_micro (s : State) : (s.keepByte).micro = { s.micro with tmp := s.micro.tmp ++ [s.bus.mbr] } := rfl
@[simp] theorem State.keepByte_irq (s : State) : (s.keepByte).irq = s.irq := rfl
@[simp] theorem State.keepByte_mem (s : State) : (s.keepByte).mem = s.mem := rfl
@[simp] theorem State.keepByte_params (s : State) : (s.keepByte).params = s.params := rfl
@[simp] theorem State.keepByte_draws (s : State) : (s.keepByte).draws = s.draws := rfl

@[simp] theorem State.dropBytes_regs (s : State) : (s.dropBytes).regs = s.regs := rfl
@[simp] theorem State.dropBytes_flags (s : State) : (s.dropBytes).flags = s.flags := rfl
@[simp] theorem State.dropBytes_bus (s : State) : (s.dropBytes).bus = s.bus := rfl
@[simp] theorem State.dropBytes_latch (s : State) : (s.dropBytes).latch = s.latch := rfl
@[simp] theorem State.dropBytes_micro (s : State) : (s.dropBytes).micro = { s.micro with tmp := [] } := rfl
@[simp] theorem State.dropBytes_irq (s : State) : (s.dropBytes).irq = s.irq := rfl
@[simp] theorem State.dropBytes_mem (s : State) : (s.dropBytes).mem = s.mem := rfl
@[simp] theorem State.dropBytes_params (s : State) : (s.dropBytes).params = s.params := rfl
@[simp] theorem State.dropBytes_draws (s : State) : (s.dropBytes).draws = s.draws := rfl

end Sys2Proof.Machine
end

