-- ==== Sys2Proof/Laws/Ops.lean ====
section
/-! SUPPORT. For each shared operation, once, everything it can do. -/

namespace Sys2Proof.Machine

open Sys2Proof

/-! ### Reads

A read answers `State.answer` and changes nothing but the bus latches and, where it takes a draw, the count
of draws. -/

/-- How many draws a read takes: one where no readable device answers. -/
def drawsTaken (io : Bool) (a : PhysAddr) (s : State) : Nat :=
  if (s.mem.read s.params.ioRouting io a).isSome then 0 else 1

/-- All that a bus read can do. -/
theorem busRead_spec (io : Bool) (a : PhysAddr) (s : State) :
    busRead io a s = (s.answer io a, { s with draws := s.draws + drawsTaken io a s }) := by
  unfold busRead State.answer drawsTaken
  split <;> rename_i h <;> simp [h, State.nextDraw]

/-- A read of a readable cell answers what it holds. -/
theorem State.answer_of_read {s : State} {io : Bool} {a : PhysAddr} {b : Byte}
    (h : s.mem.read s.params.ioRouting io a = some b) : s.answer io a = b := by simp [State.answer, h]

@[simp] theorem busRead_fst (io : Bool) (a : PhysAddr) (s : State) : (busRead io a s).1 = s.answer io a := by
  rw [busRead_spec]

@[simp] theorem busRead_regs (io : Bool) (a : PhysAddr) (s : State) : ((busRead io a s).2).regs = s.regs := by rw [busRead_spec]
@[simp] theorem busRead_flags (io : Bool) (a : PhysAddr) (s : State) : ((busRead io a s).2).flags = s.flags := by rw [busRead_spec]
@[simp] theorem busRead_bus (io : Bool) (a : PhysAddr) (s : State) : ((busRead io a s).2).bus = s.bus := by rw [busRead_spec]
@[simp] theorem busRead_latch (io : Bool) (a : PhysAddr) (s : State) : ((busRead io a s).2).latch = s.latch := by rw [busRead_spec]
@[simp] theorem busRead_micro (io : Bool) (a : PhysAddr) (s : State) : ((busRead io a s).2).micro = s.micro := by rw [busRead_spec]
@[simp] theorem busRead_irq (io : Bool) (a : PhysAddr) (s : State) : ((busRead io a s).2).irq = s.irq := by rw [busRead_spec]
@[simp] theorem busRead_mem (io : Bool) (a : PhysAddr) (s : State) : ((busRead io a s).2).mem = s.mem := by rw [busRead_spec]
@[simp] theorem busRead_params (io : Bool) (a : PhysAddr) (s : State) : ((busRead io a s).2).params = s.params := by rw [busRead_spec]
@[simp] theorem busRead_draws (io : Bool) (a : PhysAddr) (s : State) : ((busRead io a s).2).draws = s.draws + drawsTaken io a s := by rw [busRead_spec]

/-- All that a read cycle can do. -/
theorem readCycle_spec (io : Bool) (a : PhysAddr) (s : State) :
    readCycle io a s = (s.answer io a,
      { s with
        bus := ⟨a, s.answer io a, false, false, false, false, false⟩
        draws := s.draws + drawsTaken io a s }) := by
  simp only [readCycle, busRead_spec]
  rfl

@[simp] theorem readCycle_fst (io : Bool) (a : PhysAddr) (s : State) : (readCycle io a s).1 = s.answer io a := by
  rw [readCycle_spec]

@[simp] theorem readCycle_regs (io : Bool) (a : PhysAddr) (s : State) : ((readCycle io a s).2).regs = s.regs := by rw [readCycle_spec]
@[simp] theorem readCycle_flags (io : Bool) (a : PhysAddr) (s : State) : ((readCycle io a s).2).flags = s.flags := by rw [readCycle_spec]
@[simp] theorem readCycle_bus (io : Bool) (a : PhysAddr) (s : State) : ((readCycle io a s).2).bus = ⟨a, s.answer io a, false, false, false, false, false⟩ := by rw [readCycle_spec]
@[simp] theorem readCycle_latch (io : Bool) (a : PhysAddr) (s : State) : ((readCycle io a s).2).latch = s.latch := by rw [readCycle_spec]
@[simp] theorem readCycle_micro (io : Bool) (a : PhysAddr) (s : State) : ((readCycle io a s).2).micro = s.micro := by rw [readCycle_spec]
@[simp] theorem readCycle_irq (io : Bool) (a : PhysAddr) (s : State) : ((readCycle io a s).2).irq = s.irq := by rw [readCycle_spec]
@[simp] theorem readCycle_mem (io : Bool) (a : PhysAddr) (s : State) : ((readCycle io a s).2).mem = s.mem := by rw [readCycle_spec]
@[simp] theorem readCycle_params (io : Bool) (a : PhysAddr) (s : State) : ((readCycle io a s).2).params = s.params := by rw [readCycle_spec]
@[simp] theorem readCycle_draws (io : Bool) (a : PhysAddr) (s : State) : ((readCycle io a s).2).draws = s.draws + drawsTaken io a s := by rw [readCycle_spec]

/-! ### Writes -/

@[simp] theorem busWrite_regs (io : Bool) (a : PhysAddr) (v : Byte) (s : State) : (busWrite io a v s).regs = s.regs := rfl
@[simp] theorem busWrite_flags (io : Bool) (a : PhysAddr) (v : Byte) (s : State) : (busWrite io a v s).flags = s.flags := rfl
@[simp] theorem busWrite_bus (io : Bool) (a : PhysAddr) (v : Byte) (s : State) : (busWrite io a v s).bus = s.bus := rfl
@[simp] theorem busWrite_latch (io : Bool) (a : PhysAddr) (v : Byte) (s : State) : (busWrite io a v s).latch = s.latch := rfl
@[simp] theorem busWrite_micro (io : Bool) (a : PhysAddr) (v : Byte) (s : State) : (busWrite io a v s).micro = s.micro := rfl
@[simp] theorem busWrite_irq (io : Bool) (a : PhysAddr) (v : Byte) (s : State) : (busWrite io a v s).irq = s.irq := rfl
@[simp] theorem busWrite_mem (io : Bool) (a : PhysAddr) (v : Byte) (s : State) : (busWrite io a v s).mem = s.mem.write s.params.ioRouting io a v := rfl
@[simp] theorem busWrite_params (io : Bool) (a : PhysAddr) (v : Byte) (s : State) : (busWrite io a v s).params = s.params := rfl
@[simp] theorem busWrite_draws (io : Bool) (a : PhysAddr) (v : Byte) (s : State) : (busWrite io a v s).draws = s.draws := rfl

@[simp] theorem writeCycle_regs (io : Bool) (a : PhysAddr) (v : Byte) (s : State) : (writeCycle io a v s).regs = s.regs := rfl
@[simp] theorem writeCycle_flags (io : Bool) (a : PhysAddr) (v : Byte) (s : State) : (writeCycle io a v s).flags = s.flags := rfl
@[simp] theorem writeCycle_bus (io : Bool) (a : PhysAddr) (v : Byte) (s : State) : (writeCycle io a v s).bus = ⟨a, v, true, false, false, false, false⟩ := rfl
@[simp] theorem writeCycle_latch (io : Bool) (a : PhysAddr) (v : Byte) (s : State) : (writeCycle io a v s).latch = s.latch := rfl
@[simp] theorem writeCycle_micro (io : Bool) (a : PhysAddr) (v : Byte) (s : State) : (writeCycle io a v s).micro = s.micro := rfl
@[simp] theorem writeCycle_irq (io : Bool) (a : PhysAddr) (v : Byte) (s : State) : (writeCycle io a v s).irq = s.irq := rfl
@[simp] theorem writeCycle_mem (io : Bool) (a : PhysAddr) (v : Byte) (s : State) : (writeCycle io a v s).mem = s.mem.write s.params.ioRouting io a v := rfl
@[simp] theorem writeCycle_params (io : Bool) (a : PhysAddr) (v : Byte) (s : State) : (writeCycle io a v s).params = s.params := rfl
@[simp] theorem writeCycle_draws (io : Bool) (a : PhysAddr) (v : Byte) (s : State) : (writeCycle io a v s).draws = s.draws := rfl

/-! ### Code stream and stack -/

@[simp] theorem fetchCode8_fst (s : State) : (fetchCode8 s).1 = s.answer false (phys s.regs.cs s.regs.ip) := by
  simp [fetchCode8]

@[simp] theorem fetchCode8_regs (s : State) : ((fetchCode8 s).2).regs = { s.regs with ip := s.regs.ip + 1 } := by simp [fetchCode8]
@[simp] theorem fetchCode8_flags (s : State) : ((fetchCode8 s).2).flags = s.flags := by simp [fetchCode8]
@[simp] theorem fetchCode8_bus (s : State) : ((fetchCode8 s).2).bus = 
      ⟨phys s.regs.cs s.regs.ip, s.answer false (phys s.regs.cs s.regs.ip), false, false, false, false, false⟩ := by simp [fetchCode8]
@[simp] theorem fetchCode8_latch (s : State) : ((fetchCode8 s).2).latch = s.latch := by simp [fetchCode8]
@[simp] theorem fetchCode8_micro (s : State) : ((fetchCode8 s).2).micro = s.micro := by simp [fetchCode8]
@[simp] theorem fetchCode8_irq (s : State) : ((fetchCode8 s).2).irq = s.irq := by simp [fetchCode8]
@[simp] theorem fetchCode8_mem (s : State) : ((fetchCode8 s).2).mem = s.mem := by simp [fetchCode8]
@[simp] theorem fetchCode8_params (s : State) : ((fetchCode8 s).2).params = s.params := by simp [fetchCode8]
@[simp] theorem fetchCode8_draws (s : State) : ((fetchCode8 s).2).draws = s.draws + drawsTaken false (phys s.regs.cs s.regs.ip) s := by simp [fetchCode8]

@[simp] theorem push8_regs (v : Byte) (s : State) : (push8 v s).regs = { s.regs with sp := s.regs.sp - 1 } := rfl
@[simp] theorem push8_flags (v : Byte) (s : State) : (push8 v s).flags = s.flags := rfl
@[simp] theorem push8_bus (v : Byte) (s : State) : (push8 v s).bus = 
      ⟨phys s.regs.ss (s.regs.sp - 1), v, true, false, false, false, false⟩ := rfl
@[simp] theorem push8_latch (v : Byte) (s : State) : (push8 v s).latch = s.latch := rfl
@[simp] theorem push8_micro (v : Byte) (s : State) : (push8 v s).micro = s.micro := rfl
@[simp] theorem push8_irq (v : Byte) (s : State) : (push8 v s).irq = s.irq := rfl
@[simp] theorem push8_mem (v : Byte) (s : State) : (push8 v s).mem = 
      s.mem.write s.params.ioRouting false (phys s.regs.ss (s.regs.sp - 1)) v := rfl
@[simp] theorem push8_params (v : Byte) (s : State) : (push8 v s).params = s.params := rfl
@[simp] theorem push8_draws (v : Byte) (s : State) : (push8 v s).draws = s.draws := rfl

@[simp] theorem pop8_fst (s : State) : (pop8 s).1 = s.answer false (phys s.regs.ss s.regs.sp) := by
  simp [pop8]

@[simp] theorem pop8_regs (s : State) : ((pop8 s).2).regs = { s.regs with sp := s.regs.sp + 1 } := by simp [pop8]
@[simp] theorem pop8_flags (s : State) : ((pop8 s).2).flags = s.flags := by simp [pop8]
@[simp] theorem pop8_bus (s : State) : ((pop8 s).2).bus = 
      ⟨phys s.regs.ss s.regs.sp, s.answer false (phys s.regs.ss s.regs.sp), false, false, false, false, false⟩ := by simp [pop8]
@[simp] theorem pop8_latch (s : State) : ((pop8 s).2).latch = s.latch := by simp [pop8]
@[simp] theorem pop8_micro (s : State) : ((pop8 s).2).micro = s.micro := by simp [pop8]
@[simp] theorem pop8_irq (s : State) : ((pop8 s).2).irq = s.irq := by simp [pop8]
@[simp] theorem pop8_mem (s : State) : ((pop8 s).2).mem = s.mem := by simp [pop8]
@[simp] theorem pop8_params (s : State) : ((pop8 s).2).params = s.params := by simp [pop8]
@[simp] theorem pop8_draws (s : State) : ((pop8 s).2).draws = s.draws + drawsTaken false (phys s.regs.ss s.regs.sp) s := by simp [pop8]

theorem word_sub_sub (w a b : Word) : w - a - b = w - (a + b) := by bv_omega

theorem word_add_add (w a b : Word) : w + a + b = w + (a + b) := BitVec.add_assoc w a b

@[simp] theorem push16_flags (w : Word) (s : State) : (push16 w s).flags = s.flags := by simp [push16]
@[simp] theorem push16_latch (w : Word) (s : State) : (push16 w s).latch = s.latch := by simp [push16]
@[simp] theorem push16_micro (w : Word) (s : State) : (push16 w s).micro = s.micro := by simp [push16]
@[simp] theorem push16_irq (w : Word) (s : State) : (push16 w s).irq = s.irq := by simp [push16]
@[simp] theorem push16_params (w : Word) (s : State) : (push16 w s).params = s.params := by simp [push16]
@[simp] theorem push16_draws (w : Word) (s : State) : (push16 w s).draws = s.draws := by simp [push16]

@[simp] theorem push16_regs (w : Word) (s : State) :
    (push16 w s).regs = { s.regs with sp := s.regs.sp - 2 } := by
  simp [push16, word_sub_sub]

@[simp] theorem push16_mem (w : Word) (s : State) : (push16 w s).mem =
    (s.mem.write s.params.ioRouting false (phys s.regs.ss (s.regs.sp - 1)) (hiByte w)).write
      s.params.ioRouting false (phys s.regs.ss (s.regs.sp - 2)) (loByte w) := by
  simp [push16, word_sub_sub]

@[simp] theorem push16_bus (w : Word) (s : State) :
    (push16 w s).bus = ⟨phys s.regs.ss (s.regs.sp - 2), loByte w, true, false, false, false, false⟩ := by
  simp [push16, word_sub_sub]

/-- The word a 16-bit pop gives: low byte at SP, high byte above it. -/
theorem pop16_fst (s : State) : (pop16 s).1 = joinBytes ((pop8 s).2.answer false (phys s.regs.ss (s.regs.sp + 1)))
    (s.answer false (phys s.regs.ss s.regs.sp)) := by
  simp [pop16]

@[simp] theorem pop16_flags (s : State) : ((pop16 s).2).flags = s.flags := by simp [pop16]
@[simp] theorem pop16_latch (s : State) : ((pop16 s).2).latch = s.latch := by simp [pop16]
@[simp] theorem pop16_micro (s : State) : ((pop16 s).2).micro = s.micro := by simp [pop16]
@[simp] theorem pop16_irq (s : State) : ((pop16 s).2).irq = s.irq := by simp [pop16]
@[simp] theorem pop16_mem (s : State) : ((pop16 s).2).mem = s.mem := by simp [pop16]
@[simp] theorem pop16_params (s : State) : ((pop16 s).2).params = s.params := by simp [pop16]

@[simp] theorem pop16_regs (s : State) : (pop16 s).2.regs = { s.regs with sp := s.regs.sp + 2 } := by
  simp [pop16, word_add_add]

/-! ### The privilege check -/

theorem guarded_of_not_blocked {op : Op} {s : State} {effect : State → State} (h : s.blocked op = false) :
    guarded op s effect = .next (effect s) := by simp [guarded, h]

theorem guarded_of_blocked {op : Op} {s : State} {effect : State → State} (h : s.blocked op = true) :
    guarded op s effect = .next (privilegeFault (s.withIp (s.regs.ip - BitVec.ofNat 16 op.fmt.operandBytes))) := by
  simp [guarded, h]

/-- A guarded meaning always answers a next state. -/
theorem guarded_next (op : Op) (s : State) (effect : State → State) : ∃ t, guarded op s effect = .next t := by
  unfold guarded
  split <;> exact ⟨_, rfl⟩

/-- The check depends on the flags and the parameters alone. -/
theorem State.blocked_congr {s t : State} (hf : t.flags = s.flags) (hp : t.params = s.params) (op : Op) :
    t.blocked op = s.blocked op := by simp [State.blocked, hf, hp]

/-! ### Interrupt entry -/

@[simp] theorem swapIfUser_regs (s : State) : (swapIfUser s).regs =
    { s.regs with
      ss := entrySS s
      sp := entrySP s
      prevSS := if s.flags.us then s.regs.ss else s.regs.prevSS
      prevSP := if s.flags.us then s.regs.sp else s.regs.prevSP } := by
  unfold swapIfUser entrySS entrySP
  split <;> simp

@[simp] theorem swapIfUser_flags (s : State) : (swapIfUser s).flags = s.flags := by unfold swapIfUser; split <;> rfl
@[simp] theorem swapIfUser_bus (s : State) : (swapIfUser s).bus = s.bus := by unfold swapIfUser; split <;> rfl
@[simp] theorem swapIfUser_latch (s : State) : (swapIfUser s).latch = s.latch := by unfold swapIfUser; split <;> rfl
@[simp] theorem swapIfUser_micro (s : State) : (swapIfUser s).micro = s.micro := by unfold swapIfUser; split <;> rfl
@[simp] theorem swapIfUser_irq (s : State) : (swapIfUser s).irq = s.irq := by unfold swapIfUser; split <;> rfl
@[simp] theorem swapIfUser_mem (s : State) : (swapIfUser s).mem = s.mem := by unfold swapIfUser; split <;> rfl
@[simp] theorem swapIfUser_params (s : State) : (swapIfUser s).params = s.params := by unfold swapIfUser; split <;> rfl
@[simp] theorem swapIfUser_draws (s : State) : (swapIfUser s).draws = s.draws := by unfold swapIfUser; split <;> rfl

@[simp] theorem pushFrame_flags (s : State) : (pushFrame s).flags = s.flags := by simp [pushFrame]
@[simp] theorem pushFrame_latch (s : State) : (pushFrame s).latch = s.latch := by simp [pushFrame]
@[simp] theorem pushFrame_micro (s : State) : (pushFrame s).micro = s.micro := by simp [pushFrame]
@[simp] theorem pushFrame_irq (s : State) : (pushFrame s).irq = s.irq := by simp [pushFrame]
@[simp] theorem pushFrame_params (s : State) : (pushFrame s).params = s.params := by simp [pushFrame]
@[simp] theorem pushFrame_draws (s : State) : (pushFrame s).draws = s.draws := by simp [pushFrame]

@[simp] theorem pushFrame_regs (s : State) : (pushFrame s).regs = { s.regs with sp := s.regs.sp - 5 } := by
  simp [pushFrame, word_sub_sub]

/-- Where the five bytes of the frame go. -/
theorem pushFrame_mem (s : State) : (pushFrame s).mem =
    ((((s.mem.write s.params.ioRouting false (phys s.regs.ss (s.regs.sp - 1)) (flagsByte s.params.flagsLayout s.flags)).write
      s.params.ioRouting false (phys s.regs.ss (s.regs.sp - 2)) (hiByte s.regs.ip)).write
      s.params.ioRouting false (phys s.regs.ss (s.regs.sp - 3)) (loByte s.regs.ip)).write
      s.params.ioRouting false (phys s.regs.ss (s.regs.sp - 4)) (hiByte s.regs.cs)).write
      s.params.ioRouting false (phys s.regs.ss (s.regs.sp - 5)) (loByte s.regs.cs) := by
  simp [pushFrame, word_sub_sub]

@[simp] theorem readVector_regs (v : Byte) (s : State) : ((readVector v s).2).regs = s.regs := by simp [readVector]
@[simp] theorem readVector_flags (v : Byte) (s : State) : ((readVector v s).2).flags = s.flags := by simp [readVector]
@[simp] theorem readVector_latch (v : Byte) (s : State) : ((readVector v s).2).latch = s.latch := by simp [readVector]
@[simp] theorem readVector_micro (v : Byte) (s : State) : ((readVector v s).2).micro = s.micro := by simp [readVector]
@[simp] theorem readVector_irq (v : Byte) (s : State) : ((readVector v s).2).irq = s.irq := by simp [readVector]
@[simp] theorem readVector_mem (v : Byte) (s : State) : ((readVector v s).2).mem = s.mem := by simp [readVector]
@[simp] theorem readVector_params (v : Byte) (s : State) : ((readVector v s).2).params = s.params := by simp [readVector]

@[simp] theorem readVector_length (v : Byte) (s : State) : (readVector v s).1.length = 4 := by simp [readVector]

/-- Each descriptor byte is what memory holds there, where memory answers at all. -/
theorem readVector_byte (v : Byte) (s : State) {k : Nat} (hk : k < 4) {b : Byte}
    (h : s.mem.read s.params.ioRouting false (vectorAddr v k) = some b) : (readVector v s).1[k]? = some b := by
  match k, hk with
  | 0, _ => simp [readVector, State.answer, h]
  | 1, _ => simp [readVector, State.answer, h]
  | 2, _ => simp [readVector, State.answer, h]
  | 3, _ => simp [readVector, State.answer, h]

@[simp] theorem enterHandler_regs (s : State) : (enterHandler s).regs = 
    { s.regs with
      ip := (descriptor s.params.vectorLayout (readVector s.latch.source s).1).1
      cs := (descriptor s.params.vectorLayout (readVector s.latch.source s).1).2 } := by simp [enterHandler]
@[simp] theorem enterHandler_flags (s : State) : (enterHandler s).flags = s.flags := by simp [enterHandler]
@[simp] theorem enterHandler_latch (s : State) : (enterHandler s).latch = s.latch := by simp [enterHandler]
@[simp] theorem enterHandler_micro (s : State) : (enterHandler s).micro = s.micro := by simp [enterHandler]
@[simp] theorem enterHandler_irq (s : State) : (enterHandler s).irq = s.irq := by simp [enterHandler]
@[simp] theorem enterHandler_mem (s : State) : (enterHandler s).mem = s.mem := by simp [enterHandler]
@[simp] theorem enterHandler_params (s : State) : (enterHandler s).params = s.params := by simp [enterHandler]

/-- The vector number of an entry. -/
def entryVector (kind : IntKind) (s : State) : Byte :=
  match kind with
  | .hw => s.irq.vector
  | .sw | .fault => s.latch.source

@[simp] theorem takeVector_regs (kind : IntKind) (s : State) : (takeVector kind s).regs = s.regs := by cases kind <;> rfl
@[simp] theorem takeVector_flags (kind : IntKind) (s : State) : (takeVector kind s).flags = s.flags := by cases kind <;> rfl
@[simp] theorem takeVector_bus (kind : IntKind) (s : State) : (takeVector kind s).bus = s.bus := by cases kind <;> rfl
@[simp] theorem takeVector_latch (kind : IntKind) (s : State) : (takeVector kind s).latch = { s.latch with source := entryVector kind s } := by cases kind <;> rfl
@[simp] theorem takeVector_micro (kind : IntKind) (s : State) : (takeVector kind s).micro = s.micro := by cases kind <;> rfl
@[simp] theorem takeVector_irq (kind : IntKind) (s : State) : (takeVector kind s).irq = s.irq := by cases kind <;> rfl
@[simp] theorem takeVector_mem (kind : IntKind) (s : State) : (takeVector kind s).mem = s.mem := by cases kind <;> rfl
@[simp] theorem takeVector_params (kind : IntKind) (s : State) : (takeVector kind s).params = s.params := by cases kind <;> rfl
@[simp] theorem takeVector_draws (kind : IntKind) (s : State) : (takeVector kind s).draws = s.draws := by cases kind <;> rfl

/-! ### The whole of interrupt entry -/

/-- The state interrupt entry reads the descriptor from: the frame pushed, the flags clear, the vector number in
SOURCE. -/
def entered (kind : IntKind) (s : State) : State := takeVector kind ((pushFrame (swapIfUser s)).setFlags Flags.cleared)

theorem interrupt_eq (kind : IntKind) (s : State) : interrupt kind s = enterHandler (entered kind s) := rfl

@[simp] theorem interrupt_flags (kind : IntKind) (s : State) : (interrupt kind s).flags = Flags.cleared := by
  simp [interrupt]
@[simp] theorem interrupt_micro (kind : IntKind) (s : State) : (interrupt kind s).micro = s.micro := by simp [interrupt]
@[simp] theorem interrupt_irq (kind : IntKind) (s : State) : (interrupt kind s).irq = s.irq := by simp [interrupt]
@[simp] theorem interrupt_params (kind : IntKind) (s : State) : (interrupt kind s).params = s.params := by
  simp [interrupt]
@[simp] theorem interrupt_mem (kind : IntKind) (s : State) :
    (interrupt kind s).mem = (pushFrame (swapIfUser s)).mem := by simp [interrupt]

/-- SOURCE holds the vector number after entry; nothing else among the decode latches changes. -/
@[simp] theorem interrupt_latch (kind : IntKind) (s : State) :
    (interrupt kind s).latch = { s.latch with source := entryVector kind s } := by
  cases kind <;> simp [interrupt, entryVector]

/-- The register file after entry. -/
theorem interrupt_regs (kind : IntKind) (s : State) : (interrupt kind s).regs =
    { (swapIfUser s).regs with
      sp := entrySP s - 5
      ip := (descriptor s.params.vectorLayout (readVector (entryVector kind s) (entered kind s)).1).1
      cs := (descriptor s.params.vectorLayout (readVector (entryVector kind s) (entered kind s)).1).2 } := by
  rw [interrupt_eq]
  cases kind <;> simp [entered, entryVector]

end Sys2Proof.Machine
end

