-- ==== Sys2Proof/Machine/Effect.lean ====
section
/-! DEFINITION. Every meaning in one form: the privilege check (45_system.md R385), then the instruction's
effect. A proof about `exec` starts from `exec_of_not_blocked` and simplifies with `effect`. -/

namespace Sys2Proof.Machine

open Sys2Proof

/-- What an instruction does once the privilege check has let it through. -/
def effect (i : Instr) : State → State :=
  match i with
  | .nop => id
  | .hlt => actHlt
  | .movAlAh => actMovAlAh
  | .movAhAl => actMovAhAl
  | .movAxDs => actMovAxDs
  | .movAxSs => actMovAxSs
  | .movAxSp => actMovAxSp
  | .movAxDi => actMovAxDi
  | .movDsAx => actMovDsAx
  | .movSsAx => actMovSsAx
  | .movSpAx => actMovSpAx
  | .movDiAx => actMovDiAx
  | .movCsAx => actMovCsAx
  | .pushAl => actPushAl
  | .popAl => actPopAl
  | .notAl => actNot
  | .shl => actShl
  | .sal => actSal
  | .shr => actShr
  | .sar => actSar
  | .ret => actRet
  | .retf => actRetf
  | .iret => returnFromInterrupt
  | .cli => (actSetIf false)
  | .sti => (actSetIf true)
  | .ldpsr => stackSwap
  | .stum => actStum
  | .ldDi => fun t => actLoad (operandDi t)
  | .addDi => fun t => actAdd (operandDi t)
  | .subDi => fun t => actSub (operandDi t)
  | .andDi => fun t => actAnd (operandDi t)
  | .orDi => fun t => actOr (operandDi t)
  | .cmpDi => fun t => actCmp (operandDi t)
  | .stDi => fun t => actStore false (operandDestDi t)
  | .ldImm imm => fun t => actLoad (operandImm imm t)
  | .addImm imm => fun t => actAdd (operandImm imm t)
  | .subImm imm => fun t => actSub (operandImm imm t)
  | .andImm imm => fun t => actAnd (operandImm imm t)
  | .orImm imm => fun t => actOr (operandImm imm t)
  | .cmpImm imm => fun t => actCmp (operandImm imm t)
  | .intImm vector => fun t => interrupt .sw (operandImm vector t)
  | .ldD16 disp => fun t => actLoad (operandD16 disp t)
  | .addD16 disp => fun t => actAdd (operandD16 disp t)
  | .subD16 disp => fun t => actSub (operandD16 disp t)
  | .andD16 disp => fun t => actAnd (operandD16 disp t)
  | .orD16 disp => fun t => actOr (operandD16 disp t)
  | .cmpD16 disp => fun t => actCmp (operandD16 disp t)
  | .inPort port => fun t => actLoad (operandInPort port t)
  | .stD16 off => fun t => actStore false (operandDestD16 off t)
  | .outPort port => fun t => actStore true (operandOutPort port t)
  | .jmp off => fun t => actJump true (operandNear off t)
  | .je off => fun t => actJump (condJe t.flags) (operandNear off t)
  | .jne off => fun t => actJump (condJne t.flags) (operandNear off t)
  | .ja off => fun t => actJump (condJa t.flags) (operandNear off t)
  | .jae off => fun t => actJump (condJae t.flags) (operandNear off t)
  | .jb off => fun t => actJump (condJb t.flags) (operandNear off t)
  | .jbe off => fun t => actJump (condJbe t.params.jbeCond t.flags) (operandNear off t)
  | .jg off => fun t => actJump (condJg t.flags) (operandNear off t)
  | .jge off => fun t => actJump (condJge t.flags) (operandNear off t)
  | .jl off => fun t => actJump (condJl t.flags) (operandNear off t)
  | .jle off => fun t => actJump (condJle t.flags) (operandNear off t)
  | .jo off => fun t => actJump (condJo t.flags) (operandNear off t)
  | .jno off => fun t => actJump (condJno t.flags) (operandNear off t)
  | .js off => fun t => actJump (condJs t.flags) (operandNear off t)
  | .jns off => fun t => actJump (condJns t.flags) (operandNear off t)
  | .call off => fun t => actCall (operandNear off t)
  | .jmpf sel off => fun t => actJmpf (operandFar sel off t)
  | .callf sel off => fun t => actCallf (operandFar sel off t)

/-- Every meaning is its effect behind the privilege check. -/
theorem exec_eq (i : Instr) (s : State) : exec i s = guarded i.op s (effect i) := by
  cases i <;> rfl

/-- An instruction that the privilege check lets through has its effect. -/
theorem exec_of_not_blocked {i : Instr} {s : State} (h : s.blocked i.op = false) : exec i s = .next (effect i s) := by
  simp [exec_eq, guarded, h]

/-- A privileged instruction in user mode takes the fault of R424. -/
theorem exec_of_blocked {i : Instr} {s : State} (h : s.blocked i.op = true) :
    exec i s = .next (privilegeFault (s.withIp (s.regs.ip - BitVec.ofNat 16 i.op.fmt.operandBytes))) := by
  simp [exec_eq, guarded, h]

/-- Every meaning answers a next state. -/
theorem exec_next (i : Instr) (s : State) : ∃ t, exec i s = .next t := by
  rw [exec_eq]
  unfold guarded
  split <;> exact ⟨_, rfl⟩

end Sys2Proof.Machine
end

