-- ==== Sys2Proof/Laws/Step.lean ====
section
/-! SUPPORT. What fetching does, that the machine fetches the bytes the decoder reads, and everything an
instruction-level step can do, once. -/

namespace Sys2Proof.Machine

open Sys2Proof

/-! ### Decoding -/

/-- Assembling operand bytes does not change which instruction it is. -/
@[simp] theorem assemble_op (far : FarPtrLayout) (op : Op) (b1 b2 b3 b4 : Byte) : (assemble far op b1 b2 b3 b4).op = op := by
  cases op <;> rfl

/-- What decoding a list of exactly an instruction's bytes can answer. -/
theorem decode_ok {p : Params} {bytes rest : List Byte} {i : Instr} (h : decode p bytes = .ok (i, rest)) :
    ∃ b tail, bytes = b :: tail ∧ lookupOp p.opcodeMap b = some i.op ∧ i.op.fmt.operandBytes ≤ tail.length
      ∧ i = assemble p.farPtrLayout i.op (tail.getD 0 0) (tail.getD 1 0) (tail.getD 2 0) (tail.getD 3 0)
      ∧ rest = tail.drop i.op.fmt.operandBytes := by
  unfold decode at h
  split at h
  · cases h
  · rename_i b tail
    split at h
    · cases h
    · rename_i op hop
      split at h
      · cases h
      · rename_i hlen
        simp only [Except.ok.injEq, Prod.mk.injEq] at h
        obtain ⟨rfl, rfl⟩ := h
        exact ⟨b, tail, rfl, by simpa using hop, by simp only [assemble_op]; omega, by simp only [assemble_op],
          by simp only [assemble_op]⟩

/-! ### The code stream -/

@[simp] theorem fetchBytes_length (n : Nat) (s : State) : (fetchBytes n s).1.length = n := by
  induction n generalizing s with
  | zero => rfl
  | succ n ih => simp [fetchBytes, ih]

@[simp] theorem codeBytes_length (n : Nat) (s : State) : (codeBytes n s).length = n := fetchBytes_length n s

/-- Fetching depends on CS, IP, memory, routing and the count of draws alone. -/
theorem codeBytes_congr (n : Nat) {s t : State} (hcs : s.regs.cs = t.regs.cs) (hip : s.regs.ip = t.regs.ip)
    (hm : s.mem = t.mem) (hp : s.params = t.params) (hd : s.draws = t.draws) : codeBytes n s = codeBytes n t := by
  induction n generalizing s t with
  | zero => rfl
  | succ n ih =>
    have ha : s.answer false (phys s.regs.cs s.regs.ip) = t.answer false (phys t.regs.cs t.regs.ip) := by
      simp [State.answer, hcs, hip, hm, hp, hd]
    show (fetchCode8 s).1 :: codeBytes n (fetchCode8 s).2 = (fetchCode8 t).1 :: codeBytes n (fetchCode8 t).2
    rw [fetchCode8_fst, fetchCode8_fst, ha, ih]
    all_goals simp [hcs, hip, hm, hp, hd, drawsTaken]

@[simp] theorem fetchBytes_flags (n : Nat) (s : State) : (fetchBytes n s).2.flags = s.flags := by
  induction n generalizing s with
  | zero => rfl
  | succ n ih => simp [fetchBytes, ih]

@[simp] theorem fetchBytes_latch (n : Nat) (s : State) : (fetchBytes n s).2.latch = s.latch := by
  induction n generalizing s with
  | zero => rfl
  | succ n ih => simp [fetchBytes, ih]

@[simp] theorem fetchBytes_micro (n : Nat) (s : State) : (fetchBytes n s).2.micro = s.micro := by
  induction n generalizing s with
  | zero => rfl
  | succ n ih => simp [fetchBytes, ih]

@[simp] theorem fetchBytes_irq (n : Nat) (s : State) : (fetchBytes n s).2.irq = s.irq := by
  induction n generalizing s with
  | zero => rfl
  | succ n ih => simp [fetchBytes, ih]

@[simp] theorem fetchBytes_mem (n : Nat) (s : State) : (fetchBytes n s).2.mem = s.mem := by
  induction n generalizing s with
  | zero => rfl
  | succ n ih => simp [fetchBytes, ih]

@[simp] theorem fetchBytes_params (n : Nat) (s : State) : (fetchBytes n s).2.params = s.params := by
  induction n generalizing s with
  | zero => rfl
  | succ n ih => simp [fetchBytes, ih]

@[simp] theorem fetchBytes_regs (n : Nat) (s : State) :
    (fetchBytes n s).2.regs = { s.regs with ip := s.regs.ip + BitVec.ofNat 16 n } := by
  induction n generalizing s with
  | zero => simp [fetchBytes]
  | succ n ih =>
    have : s.regs.ip + 1#16 + BitVec.ofNat 16 n = s.regs.ip + BitVec.ofNat 16 (n + 1) := by
      rw [BitVec.add_assoc, Nat.add_comm n 1, BitVec.ofNat_add]
    simp [fetchBytes, ih, this]

/-! ### Opcode and operands -/

@[simp] theorem fetchOpcode_opcode (s : State) :
    (fetchOpcode s).latch.opcode = s.answer false (phys s.regs.cs s.regs.ip) := by simp [fetchOpcode]
@[simp] theorem fetchOpcode_latch (s : State) :
    (fetchOpcode s).latch = { s.latch with opcode := s.answer false (phys s.regs.cs s.regs.ip) } := by
  simp [fetchOpcode]
@[simp] theorem fetchOpcode_regs (s : State) : (fetchOpcode s).regs = { s.regs with ip := s.regs.ip + 1 } := by
  simp [fetchOpcode]
@[simp] theorem fetchOpcode_flags (s : State) : (fetchOpcode s).flags = s.flags := by simp [fetchOpcode]
@[simp] theorem fetchOpcode_micro (s : State) : (fetchOpcode s).micro = s.micro := by simp [fetchOpcode]
@[simp] theorem fetchOpcode_irq (s : State) : (fetchOpcode s).irq = s.irq := by simp [fetchOpcode]
@[simp] theorem fetchOpcode_mem (s : State) : (fetchOpcode s).mem = s.mem := by simp [fetchOpcode]
@[simp] theorem fetchOpcode_params (s : State) : (fetchOpcode s).params = s.params := by simp [fetchOpcode]

@[simp] theorem fetchOpcode_blocked (s : State) (op : Op) : (fetchOpcode s).blocked op = s.blocked op := by
  simp [State.blocked]

/-- The state an instruction's meaning starts from: opcode and operand bytes fetched. -/
def fetched (op : Op) (s : State) : State := (fetchOperands op (fetchOpcode s)).2

@[simp] theorem fetched_regs (op : Op) (s : State) :
    (fetched op s).regs = { s.regs with ip := s.regs.ip + BitVec.ofNat 16 (1 + op.fmt.operandBytes) } := by
  simp [fetched, fetchOperands, BitVec.ofNat_add, BitVec.add_assoc]
@[simp] theorem fetched_flags (op : Op) (s : State) : (fetched op s).flags = s.flags := by simp [fetched, fetchOperands]
@[simp] theorem fetched_latch (op : Op) (s : State) :
    (fetched op s).latch = { s.latch with opcode := s.answer false (phys s.regs.cs s.regs.ip) } := by
  simp [fetched, fetchOperands]
@[simp] theorem fetched_micro (op : Op) (s : State) :
    (fetched op s).micro = { s.micro with mjr := executeEntry op } := by simp [fetched, fetchOperands]
@[simp] theorem fetched_irq (op : Op) (s : State) : (fetched op s).irq = s.irq := by simp [fetched, fetchOperands]
@[simp] theorem fetched_mem (op : Op) (s : State) : (fetched op s).mem = s.mem := by simp [fetched, fetchOperands]
@[simp] theorem fetched_params (op : Op) (s : State) : (fetched op s).params = s.params := by
  simp [fetched, fetchOperands]
@[simp] theorem fetched_blocked (op op' : Op) (s : State) : (fetched op s).blocked op' = s.blocked op' := by
  simp [State.blocked]

/-- The operand bytes of a code stream are those after its opcode. -/
theorem codeBytes_succ (n : Nat) (m : MicroState) (s : State) :
    codeBytes (n + 1) s = s.answer false (phys s.regs.cs s.regs.ip) :: codeBytes n ((fetchOpcode s).withMjr m) := by
  show (fetchCode8 s).1 :: codeBytes n (fetchCode8 s).2 = _
  rw [fetchCode8_fst]
  congr 1
  apply codeBytes_congr <;> simp [fetchOpcode]

/-- The machine fetches the instruction that the decoder reads from the same bytes, and conversely. -/
theorem runs_iff {s : State} {i : Instr} :
    runs s i ↔ s.micro.halted = false ∧ s.blocked i.op = false
      ∧ lookupOp s.params.opcodeMap (s.answer false (phys s.regs.cs s.regs.ip)) = some i.op
      ∧ (fetchOperands i.op (fetchOpcode s)).1 = i := by
  have hbytes : codeBytes i.length s = s.answer false (phys s.regs.cs s.regs.ip) ::
      (fetchBytes i.op.fmt.operandBytes ((fetchOpcode s).withMjr (executeEntry i.op))).1 := by
    rw [Instr.length, Nat.add_comm 1]
    exact codeBytes_succ _ (executeEntry i.op) s
  unfold runs
  rw [hbytes]
  constructor
  · rintro ⟨h1, h2, h3⟩
    obtain ⟨b, tail, hb, hop, -, hi, -⟩ := decode_ok h3
    simp only [List.cons.injEq] at hb
    obtain ⟨rfl, rfl⟩ := hb
    exact ⟨h1, h2, hop, by simpa [fetchOperands] using hi.symm⟩
  · rintro ⟨h1, h2, h3, h4⟩
    refine ⟨h1, h2, ?_⟩
    simpa [decode, h3, fetchOperands] using h4

/-- The step of an instruction that runs (R199). -/
theorem step_of_runs {s : State} {i : Instr} (h : runs s i) :
    step s = .next (boundaryCheck (effect i (fetched i.op s))) := by
  obtain ⟨h1, h2, h3, h4⟩ := runs_iff.1 h
  have he : exec i (fetched i.op s) = .next (effect i (fetched i.op s)) := exec_of_not_blocked (by simpa using h2)
  unfold step fetchInstr
  simp only [h1, fetchOpcode_opcode, h3, fetchOpcode_blocked, h2, Bool.false_eq_true, if_false, h4]
  have : exec i (fetchOperands i.op (fetchOpcode s)).2 = .next (effect i (fetched i.op s)) := he
  rw [this]

/-- Everything a step can do (R198, R199, R422, R424). -/
theorem step_cases {s t : State} (h : step s = .next t) :
    (s.micro.halted = true ∧ t = s)
      ∨ (s.micro.halted = false
        ∧ lookupOp s.params.opcodeMap (s.answer false (phys s.regs.cs s.regs.ip)) = none
        ∧ t = raiseFault s.params.vecInvalidOpcode (fetchOpcode s))
      ∨ (∃ op, s.micro.halted = false ∧ s.blocked op = true
        ∧ lookupOp s.params.opcodeMap (s.answer false (phys s.regs.cs s.regs.ip)) = some op
        ∧ t = privilegeFault (fetchOpcode s))
      ∨ ∃ i, runs s i ∧ t = boundaryCheck (effect i (fetched i.op s)) := by
  cases hh : s.micro.halted with
  | true =>
    refine .inl ⟨rfl, ?_⟩
    simpa [step, fetchInstr, hh] using h.symm
  | false =>
    refine .inr ?_
    cases hl : lookupOp s.params.opcodeMap (s.answer false (phys s.regs.cs s.regs.ip)) with
    | none =>
      refine .inl ⟨rfl, rfl, ?_⟩
      simpa [step, fetchInstr, hh, hl] using h.symm
    | some op =>
      refine .inr ?_
      cases hb : s.blocked op with
      | true =>
        refine .inl ⟨op, rfl, hb, rfl, ?_⟩
        simpa [step, fetchInstr, hh, hl, hb] using h.symm
      | false =>
        refine .inr ⟨(fetchOperands op (fetchOpcode s)).1, ?_⟩
        have hop : (fetchOperands op (fetchOpcode s)).1.op = op := by simp [fetchOperands]
        have hr : runs s (fetchOperands op (fetchOpcode s)).1 := runs_iff.2 ⟨hh, by rw [hop]; exact hb, by rw [hop]; exact hl, by rw [hop]⟩
        refine ⟨hr, ?_⟩
        have := step_of_runs hr
        rw [h] at this
        simpa using this

end Sys2Proof.Machine
end

