-- ==== Sys2Proof/Laws/Frames.lean ====
section
/-! SUPPORT. The words frames are written in: what keeps every byte, what stores at some addresses only, and
when pushed bytes are popped again. -/

namespace Sys2Proof.Machine

open Sys2Proof

/-! ### Bytes and platform -/

theorem keepsBytes_of_mem {s t : State} (h : t.mem = s.mem) : keepsBytes s t := fun dev a => by
  simp [State.cell, h]

theorem samePlatform_of_mem {s t : State} (hp : t.params = s.params) (hm : t.mem = s.mem) : samePlatform s t :=
  ⟨hp, by rw [hm]⟩

theorem keepsControl_of_mem {s t : State} (hc : t.micro = s.micro) (hi : t.irq = s.irq) (hp : t.params = s.params)
    (hm : t.mem = s.mem) : keepsControl s t := ⟨hc, hi, samePlatform_of_mem hp hm⟩

/-! ### Store lists -/

/-- The devices after stores, in order. -/
def writeAll (r : IoRouting) (io : Bool) : List (PhysAddr × Byte) → Memory → Memory
  | [], m => m
  | (a, v) :: rest, m => writeAll r io rest (m.write r io a v)

@[simp] theorem map_shape_writeAll (r : IoRouting) (io : Bool) (l : List (PhysAddr × Byte)) (m : Memory) :
    (writeAll r io l m).map Device.shape = m.map Device.shape := by
  induction l generalizing m with
  | nil => rfl
  | cons e rest ih => simp [writeAll, ih]

@[simp] theorem select_writeAll (r : IoRouting) (io io' : Bool) (l : List (PhysAddr × Byte)) (m : Memory)
    (a : PhysAddr) : (writeAll r io l m).select r io' a = m.select r io' a :=
  Memory.select_congr (map_shape_writeAll r io l m) r io' a

/-- A cell that no accepted store reaches keeps its byte. -/
theorem cell_writeAll_other (r : IoRouting) (io : Bool) (l : List (PhysAddr × Byte)) (m : Memory) (dev b : Nat)
    (h : ∀ e ∈ l, m.select r io e.1 = some dev → (m[dev]?).elim false (·.writeable) = true → e.1.toNat ≠ b) :
    (writeAll r io l m).cell dev b = m.cell dev b := by
  induction l generalizing m with
  | nil => rfl
  | cons e rest ih =>
    obtain ⟨a, v⟩ := e
    have hw : ∀ k : Nat, ((m.write r io a v)[k]?).elim false (·.writeable) = (m[k]?).elim false (·.writeable) := by
      intro k
      have hs := congrArg (fun l => l[k]?) (Memory.map_shape_write m r io a v)
      simp only [List.getElem?_map] at hs
      cases h1 : (Memory.write m r io a v)[k]? <;> cases h2 : m[k]? <;> simp [h1, h2] at hs ⊢
      exact Device.writeable_of_shape hs
    rw [writeAll, ih]
    · by_cases hsel : m.select r io a = some dev
      · cases hd : m[dev]? with
        | none =>
          obtain ⟨d, hd', _⟩ := Memory.select_some hsel
          rw [hd] at hd'
          cases hd'
        | some d =>
          cases hwr : d.writeable with
          | true =>
            have := h (a, v) (by simp) hsel (by simp [hd, hwr])
            exact Memory.cell_write_other v dev b fun _ => this.symm
          | false => rw [Memory.write_refused v hsel hd hwr]
      · exact Memory.cell_write_other v dev b fun hs => absurd hs hsel
    · intro e he hse hwe
      rw [Memory.select_write] at hse
      rw [hw] at hwe
      exact h e (List.mem_cons_of_mem _ he) hse hwe

theorem accepts_eq {s : State} {io : Bool} {a : PhysAddr} {dev : Nat} (h : s.select io a = some dev) :
    s.accepts io a = (s.mem[dev]?).elim false (·.writeable) := by
  simp only [State.accepts, h]
  cases s.mem[dev]? <;> rfl

/-- Stores at different addresses store their bytes and nothing else. -/
theorem storesOnly_of_writeAll {s t : State} {io : Bool} {l : List (PhysAddr × Byte)}
    (h : t.mem = writeAll s.params.ioRouting io l s.mem) (hl : (l.map Prod.fst).Nodup) : storesOnly s t io l := by
  constructor
  · intro e he dev hsel hacc
    rw [accepts_eq hsel] at hacc
    unfold State.cell
    rw [h]
    unfold State.select at hsel
    generalize s.mem = m at *
    clear h
    induction l generalizing m with
    | nil => cases he
    | cons x rest ih =>
      obtain ⟨a, v⟩ := x
      simp only [List.map_cons, List.nodup_cons] at hl
      rcases List.mem_cons.1 he with rfl | he
      · rw [writeAll, cell_writeAll_other]
        · cases hd : m[dev]? with
          | none => simp [hd] at hacc
          | some d => exact Memory.cell_write_same v hsel hd (by simpa [hd] using hacc)
        · intro x hx _ _ hne
          exact hl.1 (List.mem_map.2 ⟨x, hx, BitVec.eq_of_toNat_eq hne⟩)
      · refine ih hl.2 he (Memory.write m s.params.ioRouting io a v) (by simpa using hsel) ?_
        have hs := congrArg (fun l => l[dev]?) (Memory.map_shape_write m s.params.ioRouting io a v)
        simp only [List.getElem?_map] at hs
        cases h1 : (Memory.write m s.params.ioRouting io a v)[dev]? <;> cases h2 : m[dev]? <;>
          simp [h1, h2] at hs hacc ⊢
        rw [Device.writeable_of_shape hs]
        exact hacc
  · intro dev b hb
    unfold State.cell
    rw [h]
    refine cell_writeAll_other _ _ _ _ _ _ fun e he hsel hw => hb e he hsel ?_
    rw [accepts_eq hsel]
    exact hw

/-- Offsets less than 2^16 apart in one selector have different physical addresses. -/
theorem phys_sub_ne (sel off : Word) {j k : Nat} (hj : j < 0x10000) (hk : k < 0x10000) (h : j ≠ k) :
    phys sel (off - BitVec.ofNat 16 j) ≠ phys sel (off - BitVec.ofNat 16 k) := by
  intro he
  have := congrArg BitVec.toNat he
  simp only [phys, BitVec.toNat_setWidth, BitVec.toNat_add, BitVec.toNat_mul, BitVec.toNat_sub, BitVec.toNat_ofNat] at this
  have := sel.isLt
  have := off.isLt
  omega

/-- A byte stored in RAM is read back, whatever the other stores of the list at other addresses are. -/
theorem read_writeAll {s : State} {io : Bool} {l : List (PhysAddr × Byte)} {e : PhysAddr × Byte} (he : e ∈ l)
    (hl : (l.map Prod.fst).Nodup) (hram : s.isRam io e.1 = true) :
    (writeAll s.params.ioRouting io l s.mem).read s.params.ioRouting io e.1 = some e.2 := by
  unfold State.isRam at hram
  cases hs : s.select io e.1 with
  | none => simp [hs] at hram
  | some k =>
    simp only [hs] at hram
    cases hd : s.mem[k]? with
    | none => simp [hd] at hram
    | some d =>
      simp only [hd, Bool.and_eq_true] at hram
      have hst := storesOnly_of_writeAll (s := s) (t := s.setMem (writeAll s.params.ioRouting io l s.mem)) (io := io)
        rfl hl
      have hc := hst.1 e he k hs (by simp [State.accepts, hs, hd, hram])
      have hsel : (writeAll s.params.ioRouting io l s.mem).select s.params.ioRouting io e.1 = some k := by
        rw [select_writeAll]
        exact hs
      have hsh := congrArg (fun l => l[k]?) (map_shape_writeAll s.params.ioRouting io l s.mem)
      simp only [List.getElem?_map, hd, Option.map_some, Option.map_eq_some_iff] at hsh
      obtain ⟨d', hd', hsh⟩ := hsh
      rw [Memory.read_eq hsel hd', Device.readable_of_shape hsh, hram.1, ← hc]
      rfl

/-- The five places of the entry frame are different. -/
theorem entryFrame_nodup (s : State) : ((entryFrame s).map Prod.fst).Nodup := by
  have e12 := phys_sub_ne (entrySS s) (entrySP s) (j := 1) (k := 2) (by omega) (by omega) (by omega)
  have e13 := phys_sub_ne (entrySS s) (entrySP s) (j := 1) (k := 3) (by omega) (by omega) (by omega)
  have e14 := phys_sub_ne (entrySS s) (entrySP s) (j := 1) (k := 4) (by omega) (by omega) (by omega)
  have e15 := phys_sub_ne (entrySS s) (entrySP s) (j := 1) (k := 5) (by omega) (by omega) (by omega)
  have e23 := phys_sub_ne (entrySS s) (entrySP s) (j := 2) (k := 3) (by omega) (by omega) (by omega)
  have e24 := phys_sub_ne (entrySS s) (entrySP s) (j := 2) (k := 4) (by omega) (by omega) (by omega)
  have e25 := phys_sub_ne (entrySS s) (entrySP s) (j := 2) (k := 5) (by omega) (by omega) (by omega)
  have e34 := phys_sub_ne (entrySS s) (entrySP s) (j := 3) (k := 4) (by omega) (by omega) (by omega)
  have e35 := phys_sub_ne (entrySS s) (entrySP s) (j := 3) (k := 5) (by omega) (by omega) (by omega)
  have e45 := phys_sub_ne (entrySS s) (entrySP s) (j := 4) (k := 5) (by omega) (by omega) (by omega)
  simp at e12 e13 e14 e15 e23 e24 e25 e34 e35 e45
  simp [entryFrame, *]

/-- What a stack read answers is what a pop may take. -/
theorem popsByte_of_answer {s u : State} (k : Nat) (hm : u.mem = s.mem) (hp : u.params = s.params) :
    popsByte s k (u.answer false (phys s.regs.ss (s.regs.sp + BitVec.ofNat 16 k))) := by
  intro v h
  simp [State.answer, hm, hp, h]

/-- The bytes of a word make it again. -/
@[simp] theorem joinBytes_hi_lo (w : Word) : joinBytes (hiByte w) (loByte w) = w := by
  apply BitVec.eq_of_getLsbD_eq
  intro i hi
  simp only [joinBytes, hiByte, loByte, BitVec.getLsbD_append, BitVec.getLsbD_extractLsb']
  by_cases h : i < 8
  · simp [h]
  · have h1 : i - 8 < 8 := by omega
    have h2 : 8 + (i - 8) = i := by omega
    simp [h, h1, h2]

@[simp] theorem hiByte_joinBytes (hi lo : Byte) : hiByte (joinBytes hi lo) = hi := by
  apply BitVec.eq_of_getLsbD_eq
  intro i h
  simp only [joinBytes, hiByte, BitVec.getLsbD_append, BitVec.getLsbD_extractLsb']
  simp [h]

@[simp] theorem loByte_joinBytes (hi lo : Byte) : loByte (joinBytes hi lo) = lo := by
  apply BitVec.eq_of_getLsbD_eq
  intro i h
  simp only [joinBytes, loByte, BitVec.getLsbD_append, BitVec.getLsbD_extractLsb']
  simp [h]

end Sys2Proof.Machine
end

