-- ==== Sys2Proof/Laws/Effects.lean ====
section
/-! SUPPORT. What each operand phase latches, and the effect of each family in terms of its operand byte. -/

namespace Sys2Proof.Machine

open Sys2Proof

/-! ### The operand phases -/

@[simp] theorem operandDi_regs (s : State) : (operandDi s).regs = s.regs := by simp [operandDi]
@[simp] theorem operandDi_flags (s : State) : (operandDi s).flags = s.flags := by simp [operandDi]
@[simp] theorem operandDi_micro (s : State) : (operandDi s).micro = s.micro := by simp [operandDi]
@[simp] theorem operandDi_irq (s : State) : (operandDi s).irq = s.irq := by simp [operandDi]
@[simp] theorem operandDi_mem (s : State) : (operandDi s).mem = s.mem := by simp [operandDi]
@[simp] theorem operandDi_params (s : State) : (operandDi s).params = s.params := by simp [operandDi]
@[simp] theorem operandDi_source (s : State) : (operandDi s).latch.source = s.answer false (phys s.regs.ds s.regs.di) := by simp [operandDi, State.answer]

@[simp] theorem operandImm_regs (imm : Byte) (s : State) : (operandImm imm s).regs = s.regs := by simp [operandImm]
@[simp] theorem operandImm_flags (imm : Byte) (s : State) : (operandImm imm s).flags = s.flags := by simp [operandImm]
@[simp] theorem operandImm_micro (imm : Byte) (s : State) : (operandImm imm s).micro = s.micro := by simp [operandImm]
@[simp] theorem operandImm_irq (imm : Byte) (s : State) : (operandImm imm s).irq = s.irq := by simp [operandImm]
@[simp] theorem operandImm_mem (imm : Byte) (s : State) : (operandImm imm s).mem = s.mem := by simp [operandImm]
@[simp] theorem operandImm_params (imm : Byte) (s : State) : (operandImm imm s).params = s.params := by simp [operandImm]
@[simp] theorem operandImm_source (imm : Byte) (s : State) : (operandImm imm s).latch.source = imm := by simp [operandImm]

@[simp] theorem operandD16_regs (disp : Word) (s : State) : (operandD16 disp s).regs = s.regs := by simp [operandD16, readEffective]
@[simp] theorem operandD16_flags (disp : Word) (s : State) : (operandD16 disp s).flags = s.flags := by simp [operandD16, readEffective]
@[simp] theorem operandD16_micro (disp : Word) (s : State) : (operandD16 disp s).micro = s.micro := by simp [operandD16, readEffective]
@[simp] theorem operandD16_irq (disp : Word) (s : State) : (operandD16 disp s).irq = s.irq := by simp [operandD16, readEffective]
@[simp] theorem operandD16_mem (disp : Word) (s : State) : (operandD16 disp s).mem = s.mem := by simp [operandD16, readEffective]
@[simp] theorem operandD16_params (disp : Word) (s : State) : (operandD16 disp s).params = s.params := by simp [operandD16, readEffective]
@[simp] theorem operandD16_source (disp : Word) (s : State) : (operandD16 disp s).latch.source = s.answer false (phys s.regs.ds disp) := by simp [operandD16, readEffective, State.answer]

@[simp] theorem operandInPort_regs (port : Word) (s : State) : (operandInPort port s).regs = s.regs := by simp [operandInPort, readEffective]
@[simp] theorem operandInPort_flags (port : Word) (s : State) : (operandInPort port s).flags = s.flags := by simp [operandInPort, readEffective]
@[simp] theorem operandInPort_micro (port : Word) (s : State) : (operandInPort port s).micro = s.micro := by simp [operandInPort, readEffective]
@[simp] theorem operandInPort_irq (port : Word) (s : State) : (operandInPort port s).irq = s.irq := by simp [operandInPort, readEffective]
@[simp] theorem operandInPort_mem (port : Word) (s : State) : (operandInPort port s).mem = s.mem := by simp [operandInPort, readEffective]
@[simp] theorem operandInPort_params (port : Word) (s : State) : (operandInPort port s).params = s.params := by simp [operandInPort, readEffective]
@[simp] theorem operandInPort_source (port : Word) (s : State) : (operandInPort port s).latch.source = s.answer true (phys 0 port) := by simp [operandInPort, readEffective, State.answer]

theorem operandDestDi_eq (s : State) : operandDestDi s = s.withDest s.regs.ds (s.regs.di) := rfl

theorem operandDestD16_eq (off : Word) (s : State) : operandDestD16 off s = s.withDest s.regs.ds off := rfl

theorem operandOutPort_eq (port : Word) (s : State) : operandOutPort port s = s.withDest 0 port := rfl

theorem operandNear_eq (off : Word) (s : State) : operandNear off s = s.withDest s.regs.cs off := rfl

theorem operandFar_eq (sel off : Word) (s : State) : operandFar sel off s = s.withDest sel off := rfl

/-! ### Families by operand byte -/

/-- A load's effect: AL takes the operand byte (R233 to R235, R238). -/
theorem effect_load {i : Instr} (hi : i.op ∈ [Op.ldDi, .ldImm, .ldD16, .inPort]) (s : State) :
    ∃ u : State, effect i s = u.withAl (operandByte i s) ∧ u.regs = s.regs ∧ u.flags = s.flags ∧ u.micro = s.micro
      ∧ u.irq = s.irq ∧ u.mem = s.mem ∧ u.params = s.params := by
  cases i <;> simp [Instr.op] at hi
  · exact ⟨operandDi s, by simp [effect, actLoad, operandByte], by simp⟩
  · rename_i v
    exact ⟨operandImm v s, by simp [effect, actLoad, operandByte], by simp⟩
  · rename_i v
    exact ⟨operandD16 v s, by simp [effect, actLoad, operandByte], by simp⟩
  · rename_i v
    exact ⟨operandInPort v s, by simp [effect, actLoad, operandByte], by simp⟩

/-- ADD in its three forms: its core on AL and the operand byte (R261). -/
theorem effect_add {i : Instr} (hi : i.op ∈ [Op.addDi, .addImm, .addD16]) (s : State) :
    ∃ u : State, effect i s = aluWrite u (addCore s.regs.al (operandByte i s) s.flags) ∧ u.regs = s.regs
      ∧ u.micro = s.micro ∧ u.irq = s.irq ∧ u.mem = s.mem ∧ u.params = s.params := by
  cases i <;> simp [Instr.op] at hi
  · exact ⟨operandDi s, by simp [effect, actAdd, operandByte], by simp⟩
  · rename_i v
    exact ⟨operandImm v s, by simp [effect, actAdd, operandByte], by simp⟩
  · rename_i v
    exact ⟨operandD16 v s, by simp [effect, actAdd, operandByte], by simp⟩

/-- SUB in its three forms: its core on AL and the operand byte (R263). -/
theorem effect_sub {i : Instr} (hi : i.op ∈ [Op.subDi, .subImm, .subD16]) (s : State) :
    ∃ u : State, effect i s = aluWrite u (subCore s.params.subFlagMode s.regs.al (operandByte i s) s.flags) ∧ u.regs = s.regs
      ∧ u.micro = s.micro ∧ u.irq = s.irq ∧ u.mem = s.mem ∧ u.params = s.params := by
  cases i <;> simp [Instr.op] at hi
  · exact ⟨operandDi s, by simp [effect, actSub, operandByte], by simp⟩
  · rename_i v
    exact ⟨operandImm v s, by simp [effect, actSub, operandByte], by simp⟩
  · rename_i v
    exact ⟨operandD16 v s, by simp [effect, actSub, operandByte], by simp⟩

/-- AND in its three forms: its core on AL and the operand byte (R266). -/
theorem effect_and {i : Instr} (hi : i.op ∈ [Op.andDi, .andImm, .andD16]) (s : State) :
    ∃ u : State, effect i s = aluWrite u (andCore s.params.logicCfOf s.regs.al (operandByte i s) s.flags) ∧ u.regs = s.regs
      ∧ u.micro = s.micro ∧ u.irq = s.irq ∧ u.mem = s.mem ∧ u.params = s.params := by
  cases i <;> simp [Instr.op] at hi
  · exact ⟨operandDi s, by simp [effect, actAnd, operandByte], by simp⟩
  · rename_i v
    exact ⟨operandImm v s, by simp [effect, actAnd, operandByte], by simp⟩
  · rename_i v
    exact ⟨operandD16 v s, by simp [effect, actAnd, operandByte], by simp⟩

/-- OR in its three forms: its core on AL and the operand byte (R266). -/
theorem effect_or {i : Instr} (hi : i.op ∈ [Op.orDi, .orImm, .orD16]) (s : State) :
    ∃ u : State, effect i s = aluWrite u (orCore s.params.logicCfOf s.regs.al (operandByte i s) s.flags) ∧ u.regs = s.regs
      ∧ u.micro = s.micro ∧ u.irq = s.irq ∧ u.mem = s.mem ∧ u.params = s.params := by
  cases i <;> simp [Instr.op] at hi
  · exact ⟨operandDi s, by simp [effect, actOr, operandByte], by simp⟩
  · rename_i v
    exact ⟨operandImm v s, by simp [effect, actOr, operandByte], by simp⟩
  · rename_i v
    exact ⟨operandD16 v s, by simp [effect, actOr, operandByte], by simp⟩

/-- CMP in its three forms: its core on AL and the operand byte, flags only (R264). -/
theorem effect_cmp {i : Instr} (hi : i.op ∈ [Op.cmpDi, .cmpImm, .cmpD16]) (s : State) :
    ∃ u : State, effect i s = u.setFlags (cmpCore s.params.cmpSignedMode s.regs.al (operandByte i s) s.flags)
      ∧ u.regs = s.regs ∧ u.micro = s.micro ∧ u.irq = s.irq ∧ u.mem = s.mem ∧ u.params = s.params := by
  cases i <;> simp [Instr.op] at hi
  · exact ⟨operandDi s, by simp [effect, actCmp, operandByte], by simp⟩
  · rename_i v
    exact ⟨operandImm v s, by simp [effect, actCmp, operandByte], by simp⟩
  · rename_i v
    exact ⟨operandD16 v s, by simp [effect, actCmp, operandByte], by simp⟩

/-! ### What every effect keeps -/

/-- A jump's effect is two register files' choice: IP only. -/
theorem actJump_cases (taken : Bool) (s : State) : actJump taken s = s ∨ actJump taken s = s.withIp s.latch.destOff := by
  cases taken <;> simp [actJump]

/-- The boundary check takes a hardware interrupt or does nothing. -/
theorem boundaryCheck_cases (s : State) : boundaryCheck s = s ∨ boundaryCheck s = interrupt .hw s := by
  unfold boundaryCheck
  split <;> simp

@[simp] theorem boundaryCheck_micro (s : State) : (boundaryCheck s).micro = s.micro := by
  rcases boundaryCheck_cases s with h | h <;> simp [h]

@[simp] theorem boundaryCheck_params (s : State) : (boundaryCheck s).params = s.params := by
  rcases boundaryCheck_cases s with h | h <;> simp [h]

/-- No effect changes the parameters or the interrupt line. -/
theorem effect_platform (i : Instr) (s : State) : (effect i s).params = s.params ∧ (effect i s).irq = s.irq := by
  cases i
  case jmp | je | jne | ja | jae | jb | jbe | jg | jge | jl | jle | jo | jno | js | jns =>
    simp only [effect]
    rcases actJump_cases _ (operandNear _ _) with e | e <;> rw [e] <;> exact ⟨rfl, rfl⟩
  all_goals
    simp [effect, actMovAlAh, actMovAhAl, actMovAxDs, actMovAxSs, actMovAxSp, actMovAxDi, actMovDsAx, actMovSsAx,
      actMovSpAx, actMovDiAx, actMovCsAx, actPushAl, actPopAl, actNot, actShl, actSal, actShr, actSar, aluWrite, actRet,
      actRetf, returnFromInterrupt, actSetIf, actStum, actHlt, actLoad, actStore, actAdd, actSub, actAnd, actOr, actCmp,
      actCall, actCallf, actJmpf, operandDestDi_eq, operandDestD16_eq, operandOutPort_eq, operandNear_eq, operandFar_eq]

/-- What every step of a machine that has not halted does: it enters the interrupt sequence, or it runs an
instruction to its end and takes nothing at the boundary (R199, R420). -/
theorem step_enters_or_runs {s t : State} (h : step s = .next t) (hh : s.micro.halted = false) :
    (∃ v, (v = s.params.vecInvalidOpcode ∨ v = s.params.vecPrivViolation)
        ∧ entersFrom s .fault ((fetchOpcode s).withSource v) ∧ t = interrupt .fault ((fetchOpcode s).withSource v))
      ∨ (∃ v, runs s (.intImm v) ∧ entersFrom s .sw (operandImm v (fetched .intImm s))
        ∧ t = interrupt .sw (operandImm v (fetched .intImm s)))
      ∨ ∃ i, runs s i ∧ (∀ v, i ≠ .intImm v)
        ∧ ((entersFrom s .hw (effect i (fetched i.op s)) ∧ t = interrupt .hw (effect i (fetched i.op s)))
          ∨ t = effect i (fetched i.op s)) := by
  rcases step_cases h with ⟨h1, -⟩ | ⟨-, -, rfl⟩ | ⟨op, -, -, -, rfl⟩ | ⟨i, hr, rfl⟩
  · simp [h1] at hh
  · exact .inl ⟨_, .inl rfl, ⟨by simp, by simp, _, .inl rfl, rfl⟩, rfl⟩
  · exact .inl ⟨_, .inr rfl, ⟨by simp, by simp, _, .inr rfl, rfl⟩, by simp [privilegeFault, raiseFault]⟩
  · refine .inr ?_
    by_cases hi : ∃ v, i = .intImm v
    · obtain ⟨v, rfl⟩ := hi
      refine .inl ⟨v, hr, ⟨by simp, by simp, v, hr, rfl⟩, ?_⟩
      simp [effect, boundaryCheck, Flags.cleared, Instr.op]
    · refine .inr ⟨i, hr, fun v hv => hi ⟨v, hv⟩, ?_⟩
      unfold boundaryCheck
      split
      · rename_i hb
        simp only [Bool.and_eq_true] at hb
        obtain ⟨hp, hq⟩ := effect_platform i (fetched i.op s)
        exact .inl ⟨⟨by rw [hp]; simp, by rw [hq]; simp, i, hr,
          exec_of_not_blocked (by have := hr.2.1; show (fetched i.op s).blocked _ = _; simpa using this), hb.1.2, hb.2⟩, rfl⟩
      · exact .inr rfl

/-- Whatever bus writes keep of the devices, interrupt entry keeps. -/
theorem interrupt_mem_induction {P : Memory → Prop} (hP : ∀ m r io a v, P m → P (Memory.write m r io a v)) (kind : IntKind)
    (s : State) (h : P s.mem) : P (interrupt kind s).mem := by
  simp only [interrupt_mem, pushFrame_mem, swapIfUser_mem]
  repeat apply hP
  exact h

/-- Whatever bus writes keep of the devices, every effect keeps. -/
theorem effect_mem_induction {P : Memory → Prop} (hP : ∀ m r io a v, P m → P (Memory.write m r io a v)) (i : Instr)
    (s : State) (h : P s.mem) : P (effect i s).mem := by
  cases i
  case jmp | je | jne | ja | jae | jb | jbe | jg | jge | jl | jle | jo | jno | js | jns =>
    simp only [effect]
    rcases actJump_cases _ (operandNear _ _) with e | e <;> rw [e] <;> exact h
  case intImm v => exact interrupt_mem_induction hP .sw _ (by simpa using h)
  case iret => simpa [effect, returnFromInterrupt] using h
  case pushAl => exact hP _ _ _ _ _ h
  case stDi => exact hP _ _ _ _ _ h
  case stD16 => exact hP _ _ _ _ _ h
  case outPort => exact hP _ _ _ _ _ h
  case call => exact hP _ _ _ _ _ (hP _ _ _ _ _ h)
  case callf => exact hP _ _ _ _ _ (hP _ _ _ _ _ (hP _ _ _ _ _ (hP _ _ _ _ _ h)))
  all_goals
    simpa [effect, actMovAlAh, actMovAhAl, actMovAxDs, actMovAxSs, actMovAxSp, actMovAxDi, actMovDsAx, actMovSsAx,
      actMovSpAx, actMovDiAx, actMovCsAx, actPopAl, actNot, actShl, actSal, actShr, actSar, aluWrite, actRet, actRetf,
      actSetIf, actStum, actHlt, actLoad, actAdd, actSub, actAnd, actOr, actCmp, actJmpf, operandFar_eq] using h

/-- Whatever bus writes keep of the devices, every step keeps. -/
theorem step_mem_induction {P : Memory → Prop} (hP : ∀ m r io a v, P m → P (Memory.write m r io a v)) {s t : State}
    (hs : step s = .next t) (h : P s.mem) : P t.mem := by
  rcases step_cases hs with ⟨-, rfl⟩ | ⟨-, -, rfl⟩ | ⟨op, -, -, -, rfl⟩ | ⟨i, -, rfl⟩
  · exact h
  · exact interrupt_mem_induction hP _ _ (by simpa using h)
  · exact interrupt_mem_induction hP _ _ (by simpa using h)
  · have he : P (effect i (fetched i.op s)).mem := effect_mem_induction hP i _ (by simpa using h)
    rcases boundaryCheck_cases (effect i (fetched i.op s)) with hb | hb <;> rw [hb]
    · exact he
    · exact interrupt_mem_induction hP _ _ he

end Sys2Proof.Machine
end

