-- ==== Sys2Proof/Laws/Encode.lean ====
section
/-! SUPPORT. Opcode maps that meet R141: every instruction has one byte, and it reads back; table names are
different. -/

namespace Sys2Proof

theorem Op.mem_all (op : Op) : op ∈ Op.all := by cases op <;> decide

/-- No two instructions share a table name (R140). -/
theorem tableNames_nodup : (Op.all.map Op.tableName).Nodup := by decide

theorem Op.tableName_inj {a b : Op} (h : a.tableName = b.tableName) : a = b :=
  List.inj_on_of_nodup_map tableNames_nodup (Op.mem_all a) (Op.mem_all b) h

theorem opcodeMapWf_of_wf {p : Params} (h : p.wf = true) : opcodeMapWf p.opcodeMap = true := by
  simp only [Params.wf, Bool.and_eq_true] at h
  exact h.1.1.1

/-- A well-formed map's entry is the byte of its instruction. -/
theorem byteOf_of_mem {m : List (Op × BitVec 5)} (h : opcodeMapWf m = true) {op : Op} {low : BitVec 5}
    (hm : (op, low) ∈ m) : byteOf m op = some (opcodeByte op low) := by
  simp only [opcodeMapWf, Bool.and_eq_true, decide_eq_true_eq] at h
  unfold byteOf
  cases hf : m.find? (fun e => e.1 == op) with
  | none => simpa using List.find?_eq_none.1 hf _ hm
  | some e =>
    have he := List.find?_some hf
    simp only [beq_iff_eq] at he
    have := List.inj_on_of_nodup_map h.1.2 (List.mem_of_find?_eq_some hf) hm he
    simp [this]

/-- A well-formed map assigns every instruction a byte. -/
theorem byteOf_some {m : List (Op × BitVec 5)} (h : opcodeMapWf m = true) (op : Op) :
    ∃ low, (op, low) ∈ m ∧ byteOf m op = some (opcodeByte op low) := by
  have hall := h
  simp only [opcodeMapWf, Bool.and_eq_true, List.all_eq_true] at hall
  have hop := hall.1.1 op (Op.mem_all op)
  simp only [List.contains_iff_mem, List.mem_map] at hop
  obtain ⟨⟨o, low⟩, hmem, rfl⟩ := hop
  exact ⟨low, hmem, byteOf_of_mem h hmem⟩

/-- A well-formed map's byte reads back as its instruction. -/
theorem lookupOp_of_mem {m : List (Op × BitVec 5)} (h : opcodeMapWf m = true) {op : Op} {low : BitVec 5}
    (hm : (op, low) ∈ m) : lookupOp m (opcodeByte op low) = some op := by
  simp only [opcodeMapWf, Bool.and_eq_true, decide_eq_true_eq] at h
  unfold lookupOp
  cases hf : m.find? (fun e => opcodeByte e.1 e.2 == opcodeByte op low) with
  | none => simpa using List.find?_eq_none.1 hf _ hm
  | some e =>
    have he := List.find?_some hf
    simp only [beq_iff_eq] at he
    have := List.inj_on_of_nodup_map h.2 (List.mem_of_find?_eq_some hf) hm he
    simp [this]

/-- An assigned byte is an entry of the map. -/
theorem mem_of_lookupOp {m : List (Op × BitVec 5)} {b : Byte} {op : Op} (h : lookupOp m b = some op) :
    ∃ low, (op, low) ∈ m ∧ b = opcodeByte op low := by
  unfold lookupOp at h
  simp only [Option.map_eq_some_iff] at h
  obtain ⟨⟨o, low⟩, hf, rfl⟩ := h
  have he := List.find?_some hf
  simp only [beq_iff_eq] at he
  exact ⟨low, List.mem_of_find?_eq_some hf, he.symm⟩

/-- The top three bits of an opcode byte are its instruction's format (R130, R131). -/
theorem formatOf_opcodeByte (op : Op) (low : BitVec 5) : formatOf (opcodeByte op low) = op.fmt := by
  unfold opcodeByte
  generalize op.fmt = f
  revert low
  cases f <;> decide

end Sys2Proof
end

