-- ==== Sys2Proof/Laws/Clock.lean ====
section
/-! SUPPORT. The micro-state machine one clock at a time: what `clock` makes of a state in each micro-state,
with every part of the state written out, and the 25 clocks of interrupt entry as one lemma
(40_fetch.md sections 1 to 4, 60_exceptions.md R430, 70_reset_and_hazards.md R493). -/

namespace Sys2Proof.Machine
open Sys2Proof

/-- The byte a read answers, of the parts of the state it depends on. -/
def readByte (io : Bool) (a : PhysAddr) (m : Memory) (p : Params) (n : Nat) : Byte :=
  (m.read p.ioRouting io a).getD (Config.anyByte n)

/-- The count of draws after a read. -/
def readDraws (io : Bool) (a : PhysAddr) (m : Memory) (p : Params) (n : Nat) : Nat :=
  n + if (m.read p.ioRouting io a).isSome then 0 else 1

theorem busRead_parts (io : Bool) (a : PhysAddr) (s : State) : busRead io a s =
    (readByte io a s.mem s.params s.draws, { s with draws := readDraws io a s.mem s.params s.draws }) :=
        busRead_spec io a s

/-- A running state, with everything given but the strobes, which are off. -/
abbrev calmState (r : Regs) (f : Flags) (mar : PhysAddr) (mbr : Byte) (dir : Bool) (l : DecodeLatches) (star mjr : MicroState)
    (tmp : List Byte) (q : IrqLine) (m : Memory) (p : Params) (n : Nat) : State :=
  ⟨r, f, ⟨mar, mbr, dir, false, false, false, false⟩, l, ⟨star, mjr, false, tmp⟩, q, m, p, n⟩

theorem busAccess_calm {s : State} (h1 : s.bus.memr = false) (h2 : s.bus.memw = false) (h3 : s.bus.ior =
    false) (h4 : s.bus.iow = false) : busAccess s = s := by
  simp [busAccess, h1, h2, h3, h4]

theorem clocks_add (a b : Nat) (s : State) : clocks (a + b) s = clocks b (clocks a s) := by
  induction a generalizing s with
  | zero => simp [clocks]
  | succ a ih => rw [Nat.add_right_comm]; simp only [clocks]; exact ih _

/-- A bus state's clock: the read. -/
theorem busAccess_strobeRead (s : State) (io : Bool) : busAccess (s.strobeRead io) =
    { s with bus := { s.bus.quiet with memr := !io, ior := io, mbr := readByte io s.bus.mar s.mem s.params s.draws }, draws := readDraws io s.bus.mar s.mem s.params s.draws } := by
  cases io <;> simp only [busAccess, busRead_parts] <;> rfl

theorem busAccess_strobeWrite (s : State) (io : Bool) : busAccess (s.strobeWrite io) =
    { s with bus := { s.bus.quiet with memw := !io, iow := io }, mem := s.mem.write s.params.ioRouting io s.bus.mar s.bus.mbr } := by
  cases io <;> rfl

variable (r : Regs) (f : Flags) (mar : PhysAddr) (mbr : Byte) (dir : Bool) (l : DecodeLatches) (mjr : MicroState)
    (tmp : List Byte) (q : IrqLine) (m : Memory) (p : Params) (n : Nat) (mr mw ir iw : Bool)

theorem clock_fetchAddr : clock ⟨r, f, ⟨mar, mbr, dir, mr, mw, ir, iw⟩, l, ⟨.fetchAddr, mjr, false, tmp⟩, q, m, p, n⟩ =
    calmState { r with ip := r.ip + 1 } f (phys r.cs r.ip) mbr false l .fetchBus mjr tmp q m p n := rfl
theorem clock_fetchBus : clock (calmState r f mar mbr dir l .fetchBus mjr tmp q m p n) =
    ⟨r, f, ⟨mar, readByte false mar m p n, dir, true, false, false, false⟩, l, ⟨.fetchLatch, mjr, false, tmp⟩, q, m,
        p, readDraws false mar m p n⟩ :=
  busAccess_strobeRead (calmState r f mar mbr dir l .fetchLatch mjr tmp q m p n) false
theorem clock_codeAddr (k) : clock ⟨r, f, ⟨mar, mbr, dir, mr, mw, ir, iw⟩, l, ⟨.codeAddr k, mjr, false, tmp⟩, q, m,
    p, n⟩ =
    calmState { r with ip := r.ip + 1 } f (phys r.cs r.ip) mbr false l (.codeBus k) mjr tmp q m p n := rfl
theorem clock_codeBus (k) : clock (calmState r f mar mbr dir l (.codeBus k) mjr tmp q m p n) =
    ⟨r, f, ⟨mar, readByte false mar m p n, dir, true, false, false, false⟩, l, ⟨.codeLatch k, mjr, false, tmp⟩, q, m,
        p, readDraws false mar m p n⟩ :=
  busAccess_strobeRead (calmState r f mar mbr dir l (.codeLatch k) mjr tmp q m p n) false
theorem clock_dsdiAddr : clock ⟨r, f, ⟨mar, mbr, dir, mr, mw, ir, iw⟩, l, ⟨.dsdiAddr, mjr, false, tmp⟩, q, m, p, n⟩ =
    calmState r f (phys r.ds r.di) mbr false l .dsdiBus mjr tmp q m p n := rfl
theorem clock_dsdiBus : clock (calmState r f mar mbr dir l .dsdiBus mjr tmp q m p n) =
    ⟨r, f, ⟨mar, readByte false mar m p n, dir, true, false, false, false⟩, l, ⟨.dsdiLatch, mjr, false, tmp⟩, q, m,
        p, readDraws false mar m p n⟩ :=
  busAccess_strobeRead (calmState r f mar mbr dir l .dsdiLatch mjr tmp q m p n) false
theorem clock_dsdiLatch : clock ⟨r, f, ⟨mar, mbr, dir, mr, mw, ir, iw⟩, l, ⟨.dsdiLatch, mjr, false, tmp⟩, q, m, p, n⟩ =
    calmState r f mar mbr dir { l with source := mbr } mjr mjr tmp q m p n := rfl
theorem clock_f2Set : clock ⟨r, f, ⟨mar, mbr, dir, mr, mw, ir, iw⟩, l, ⟨.f2Set, mjr, false, tmp⟩, q, m, p, n⟩ =
    calmState r f mar mbr dir { l with destSel := r.ds, destOff := r.di } mjr mjr tmp q m p n := rfl
theorem clock_eaAddr {op : Op} (hl : lookupOp p.opcodeMap l.opcode = some op) :
    clock ⟨r, f, ⟨mar, mbr, dir, mr, mw, ir, iw⟩, l, ⟨.eaAddr, mjr, false, tmp⟩, q, m, p, n⟩ =
    calmState r f (phys (if op = .inPort then 0 else r.ds) l.destOff) mbr false l .eaBus mjr tmp q m p n := by
  simp only [clock, transition, State.currentOp, hl, Option.some_beq_some, beq_iff_eq]
  rfl
theorem clock_eaBus {op : Op} (hl : lookupOp p.opcodeMap l.opcode = some op) :
    clock (calmState r f mar mbr dir l .eaBus mjr tmp q m p n) =
    ⟨r, f, ⟨mar, readByte (op == .inPort) mar m p n, dir, !(op == .inPort), false, op == .inPort, false⟩, l,
        ⟨.eaLatch, mjr, false, tmp⟩, q, m, p, readDraws (op == .inPort) mar m p n⟩ := by
  simp only [clock, transition, State.currentOp, hl, Option.some_beq_some, Bool.false_eq_true, if_false]
  exact busAccess_strobeRead (calmState r f mar mbr dir l .eaLatch mjr tmp q m p n) (op == .inPort)
theorem clock_eaLatch : clock ⟨r, f, ⟨mar, mbr, dir, mr, mw, ir, iw⟩, l, ⟨.eaLatch, mjr, false, tmp⟩, q, m, p, n⟩ =
    calmState r f mar mbr dir { l with source := mbr } mjr mjr tmp q m p n := rfl

theorem clock_fetchLatch_invalid (hl : lookupOp p.opcodeMap mbr = none) :
    clock ⟨r, f, ⟨mar, mbr, dir, mr, mw, ir, iw⟩, l, ⟨.fetchLatch, mjr, false, tmp⟩, q, m, p, n⟩ =
    calmState r f mar mbr dir { l with opcode := mbr, source := p.vecInvalidOpcode } (.intEntry .fault) mjr tmp q m p n := by
  simp only [clock, transition, latchOpcode, State.currentOp, State.quiet, State.withOpcode, State.setLatch,
      State.setBus, hl, Bool.false_eq_true, if_false]
  rfl
theorem clock_fetchLatch_blocked {op : Op} (hl : lookupOp p.opcodeMap mbr =
    some op) (hb : (f.us && p.privSet.contains op) = true) :
    clock ⟨r, f, ⟨mar, mbr, dir, mr, mw, ir, iw⟩, l, ⟨.fetchLatch, mjr, false, tmp⟩, q, m, p, n⟩ =
    calmState r f mar mbr dir { l with opcode := mbr, source := p.vecPrivViolation } (.intEntry .fault) mjr tmp q m p n := by
  simp only [clock, transition, latchOpcode, State.currentOp, State.blocked, State.quiet, State.withOpcode,
      State.setLatch, State.setBus, hl, hb, Bool.false_eq_true, if_false, if_true]
  rfl
theorem clock_fetchLatch {op : Op} (hl : lookupOp p.opcodeMap mbr = some op) (hb : (f.us && p.privSet.contains op) =
    false) (hh : op ≠ .hlt) :
    clock ⟨r, f, ⟨mar, mbr, dir, mr, mw, ir, iw⟩, l, ⟨.fetchLatch, mjr, false, tmp⟩, q, m, p, n⟩ =
    calmState r f mar mbr dir { l with opcode := mbr } (operandEntry op.fmt (executeEntry op)) (executeEntry op) tmp q m p n := by
  obtain ⟨low, -, hm⟩ := mem_of_lookupOp hl
  have hf : formatOf mbr = op.fmt := by rw [hm, formatOf_opcodeByte]
  simp only [clock, transition, latchOpcode, State.currentOp, State.quiet, State.withOpcode, State.setLatch,
      State.setBus, State.blocked, hl, hb, hh, if_false, Bool.false_eq_true, hf]
  rfl
theorem clock_fetchLatch_hlt (hl : lookupOp p.opcodeMap mbr = some .hlt) (hb : (f.us && p.privSet.contains .hlt) =
    false) :
    clock ⟨r, f, ⟨mar, mbr, dir, mr, mw, ir, iw⟩, l, ⟨.fetchLatch, mjr, false, tmp⟩, q, m, p, n⟩ =
    ⟨r, f, ⟨mar, mbr, dir, false, false, false, false⟩, { l with opcode := mbr }, ⟨.halt, .halt, true, tmp⟩, q, m, p,
        n⟩ := by
  simp only [clock, transition, latchOpcode, State.currentOp, State.quiet, State.withOpcode, State.setLatch,
      State.setBus, State.blocked, hl, hb, if_false, Bool.false_eq_true, if_true]
  rfl

theorem formatOf_lookup {m : List (Op × BitVec 5)} {b : Byte} {op : Op} (h : lookupOp m b = some op) : formatOf b =
    op.fmt := by
  obtain ⟨low, -, hm⟩ := mem_of_lookupOp h
  rw [hm, formatOf_opcodeByte]

theorem clock_codeLatch (k : Fin 4) : clock ⟨r, f, ⟨mar, mbr, dir, mr, mw, ir, iw⟩, l, ⟨.codeLatch k, mjr, false,
    tmp⟩, q, m, p, n⟩ =
    busAccess (codeLatch k ⟨r, f, ⟨mar, mbr, dir, mr, mw, ir, iw⟩, l, ⟨.codeLatch k, mjr, false, tmp⟩, q, m, p,
        n⟩) := rfl

variable {op : Op} (hl : lookupOp p.opcodeMap l.opcode = some op)
include hl

theorem clock_codeLatch_f3 (hf : op.fmt = .f3) : clock ⟨r, f, ⟨mar, mbr, dir, mr, mw, ir, iw⟩, l, ⟨.codeLatch 0, mjr,
    false, tmp⟩, q, m, p, n⟩ =
    calmState r f mar mbr dir { l with source := mbr } mjr mjr tmp q m p n := by
  have h := formatOf_lookup hl; rw [hf] at h
  simp only [clock_codeLatch, codeLatch, latchOperand, State.quiet, State.setBus, h]
  rfl

theorem clock_codeLatch_f4_0 (hf : op.fmt = .f4) : clock ⟨r, f, ⟨mar, mbr, dir, mr, mw, ir, iw⟩, l, ⟨.codeLatch 0,
    mjr, false, tmp⟩, q, m, p, n⟩ =
    calmState r f mar mbr dir { l with destOff := joinBytes (hiByte l.destOff) mbr } (.codeAddr 1) mjr tmp q m p n := by
  have h := formatOf_lookup hl; rw [hf] at h
  simp only [clock_codeLatch, codeLatch, latchOperand, State.quiet, State.setBus, h]
  rfl
theorem clock_codeLatch_f4_1 (hf : op.fmt = .f4) : clock ⟨r, f, ⟨mar, mbr, dir, mr, mw, ir, iw⟩, l, ⟨.codeLatch 1,
    mjr, false, tmp⟩, q, m, p, n⟩ =
    calmState r f mar mbr dir { l with destOff := joinBytes mbr (loByte l.destOff) } .eaAddr mjr tmp q m p n := by
  have h := formatOf_lookup hl; rw [hf] at h
  simp only [clock_codeLatch, codeLatch, latchOperand, State.quiet, State.setBus, h]
  rfl
theorem clock_codeLatch_f5_0 (hf : op.fmt = .f5) : clock ⟨r, f, ⟨mar, mbr, dir, mr, mw, ir, iw⟩, l, ⟨.codeLatch 0,
    mjr, false, tmp⟩, q, m, p, n⟩ =
    calmState r f mar mbr dir { l with destOff := joinBytes (hiByte l.destOff) mbr } (.codeAddr 1) mjr tmp q m p n := by
  have h := formatOf_lookup hl; rw [hf] at h
  simp only [clock_codeLatch, codeLatch, latchOperand, State.quiet, State.setBus, h]
  rfl
theorem clock_codeLatch_f5_1 (hf : op.fmt = .f5) : clock ⟨r, f, ⟨mar, mbr, dir, mr, mw, ir, iw⟩, l, ⟨.codeLatch 1,
    mjr, false, tmp⟩, q, m, p, n⟩ =
    calmState r f mar mbr dir { l with destSel := if op = .outPort then 0 else r.ds, destOff := joinBytes mbr (loByte l.destOff) } mjr mjr tmp q m p n := by
  have h := formatOf_lookup hl; rw [hf] at h
  simp only [clock_codeLatch, codeLatch, latchOperand, State.quiet, State.setBus, h, State.currentOp, hl,
      Option.some_beq_some, beq_iff_eq]
  rfl
theorem clock_codeLatch_f6_0 (hf : op.fmt = .f6) : clock ⟨r, f, ⟨mar, mbr, dir, mr, mw, ir, iw⟩, l, ⟨.codeLatch 0,
    mjr, false, tmp⟩, q, m, p, n⟩ =
    calmState r f mar mbr dir { l with destOff := joinBytes (hiByte l.destOff) mbr } (.codeAddr 1) mjr tmp q m p n := by
  have h := formatOf_lookup hl; rw [hf] at h
  simp only [clock_codeLatch, codeLatch, latchOperand, State.quiet, State.setBus, h]
  rfl
theorem clock_codeLatch_f6_1 (hf : op.fmt = .f6) : clock ⟨r, f, ⟨mar, mbr, dir, mr, mw, ir, iw⟩, l, ⟨.codeLatch 1,
    mjr, false, tmp⟩, q, m, p, n⟩ =
    calmState r f mar mbr dir { l with destSel := r.cs, destOff := joinBytes mbr (loByte l.destOff) } mjr mjr tmp q m p n := by
  have h := formatOf_lookup hl; rw [hf] at h
  simp only [clock_codeLatch, codeLatch, latchOperand, State.quiet, State.setBus, h]
  rfl
theorem clock_codeLatch_f7 (hf : op.fmt = .f7) (k : Fin 4) : clock ⟨r, f, ⟨mar, mbr, dir, mr, mw, ir, iw⟩, l,
    ⟨.codeLatch k, mjr, false, tmp⟩, q, m, p, n⟩ =
    calmState r f mar mbr dir
      (if (decide (k.val < 2)) == (p.farPtrLayout ==
          .offsetFirst) then { l with destOff := putByte l.destOff (k.val % 2 == 1) mbr } else { l with destSel := putByte l.destSel (k.val % 2 == 1) mbr })
      (match nextIndex k 4 with | some j => .codeAddr j | none => mjr) mjr tmp q m p n := by
  have h := formatOf_lookup hl; rw [hf] at h
  have hp : p.farPtrLayout = .offsetFirst ∨ p.farPtrLayout = .selectorFirst := by
    cases p.farPtrLayout
    · exact .inl rfl
    · exact .inr rfl
  rcases hp with hp | hp <;> simp only [clock_codeLatch, codeLatch, latchOperand, State.quiet, State.setBus, h, hp] <;>
    (match k with | 0 => rfl | 1 => rfl | 2 => rfl | 3 => rfl)

omit hl in
theorem clock_xrAddr (k) : clock ⟨r, f, ⟨mar, mbr, dir, mr, mw, ir, iw⟩, l, ⟨.xrAddr k, mjr, false, tmp⟩, q, m, p, n⟩ =
    calmState r f (phys r.ss r.sp) mbr false l (.xrBus k) mjr tmp q m p n := rfl
omit hl in
theorem clock_xrBus (k) : clock (calmState r f mar mbr dir l (.xrBus k) mjr tmp q m p n) =
    ⟨r, f, ⟨mar, readByte false mar m p n, dir, true, false, false, false⟩, l, ⟨.xrLatch k, mjr, false, tmp⟩, q, m,
        p, readDraws false mar m p n⟩ :=
  busAccess_strobeRead (calmState r f mar mbr dir l (.xrLatch k) mjr tmp q m p n) false
theorem clock_xrLatch (k) : clock ⟨r, f, ⟨mar, mbr, dir, mr, mw, ir, iw⟩, l, ⟨.xrLatch k, mjr, false, tmp⟩, q, m, p,
    n⟩ =
    calmState { r with sp := r.sp + 1 } f mar mbr dir l (match nextIndex k (popCount op) with | some j => .xrAddr j | none => .execEnd) mjr (tmp ++ [mbr]) q m p n := by
  simp only [clock, transition, State.currentOp, State.quiet, State.setBus, State.withSp, State.setRegs, hl]
  cases nextIndex k (popCount op) <;> rfl

theorem clock_xwAddr_push (k) (hw : op = .pushAl ∨ op = .call ∨ op = .callf) : clock ⟨r, f, ⟨mar, mbr, dir, mr, mw,
    ir, iw⟩, l, ⟨.xwAddr k, mjr, false, tmp⟩, q, m, p, n⟩ =
    calmState { r with sp := r.sp - 1 } f (phys r.ss (r.sp - 1)) (writtenByte op k.val (calmState r f mar mbr dir l .execEnd mjr tmp q m p n)) true l (.xwBus k) mjr tmp q m p n := by
  simp only [clock, transition, State.currentOp, hl]
  rcases hw with rfl | rfl | rfl <;> (match k with | 0 => rfl | 1 => rfl | 2 => rfl | 3 => rfl)
theorem clock_xwBus (k) : clock (calmState r f mar mbr dir l (.xwBus k) mjr tmp q m p n) =
    ⟨r, f, ⟨mar, mbr, dir, false, !(op == .outPort), false, op == .outPort⟩, l,
        ⟨match nextIndex k (writeCount op) with | some j => .xwAddr j | none => .execEnd, mjr, false, tmp⟩, q,
        m.write p.ioRouting (op == .outPort) mar mbr, p, n⟩ := by
  simp only [clock, transition, State.currentOp, hl]
  cases nextIndex k (writeCount op) with
  | none => exact busAccess_strobeWrite (calmState r f mar mbr dir l .execEnd mjr tmp q m p n) (op == .outPort)
  | some j => exact busAccess_strobeWrite (calmState r f mar mbr dir l (.xwAddr j) mjr tmp q m p n) (op == .outPort)

omit hl
theorem clock_intEntry (k) : clock ⟨r, f, ⟨mar, mbr, dir, mr, mw, ir, iw⟩, l, ⟨.intEntry k, mjr, false, tmp⟩, q, m,
    p, n⟩ =
    calmState (if f.us then { r with ss := r.prevSS, sp := r.prevSP, prevSS := r.ss, prevSP := r.sp } else r) f mar mbr dir l (.intPushAddr k 0) mjr tmp q m p n := by
  cases h : f.us <;> simp only [clock, transition, intEntry, swapIfUser, State.quiet, State.setBus, h] <;> rfl
theorem clock_intPushAddr_0 (kind : IntKind) : clock ⟨r, f, ⟨mar, mbr, dir, mr, mw, ir, iw⟩, l, ⟨.intPushAddr kind 0,
    mjr, false, tmp⟩, q, m, p, n⟩ =
    calmState { r with sp := r.sp - 1 } f (phys r.ss (r.sp - 1)) (flagsByte p.flagsLayout f) true l (.intPushBus kind 0) mjr tmp q m p n := rfl
theorem clock_intPushBus_0 (kind : IntKind) : clock (calmState r f mar mbr dir l (.intPushBus kind 0) mjr tmp q m p n) =
    ⟨r, f, ⟨mar, mbr, dir, false, true, false, false⟩, l, ⟨.intPushAddr kind 1, mjr, false, tmp⟩, q,
        m.write p.ioRouting false mar mbr, p, n⟩ := rfl
theorem clock_intPushAddr_1 (kind : IntKind) : clock ⟨r, f, ⟨mar, mbr, dir, mr, mw, ir, iw⟩, l, ⟨.intPushAddr kind 1,
    mjr, false, tmp⟩, q, m, p, n⟩ =
    calmState { r with sp := r.sp - 1 } f (phys r.ss (r.sp - 1)) (hiByte r.ip) true l (.intPushBus kind 1) mjr tmp q m p n := rfl
theorem clock_intPushBus_1 (kind : IntKind) : clock (calmState r f mar mbr dir l (.intPushBus kind 1) mjr tmp q m p n) =
    ⟨r, f, ⟨mar, mbr, dir, false, true, false, false⟩, l, ⟨.intPushAddr kind 2, mjr, false, tmp⟩, q,
        m.write p.ioRouting false mar mbr, p, n⟩ := rfl
theorem clock_intPushAddr_2 (kind : IntKind) : clock ⟨r, f, ⟨mar, mbr, dir, mr, mw, ir, iw⟩, l, ⟨.intPushAddr kind 2,
    mjr, false, tmp⟩, q, m, p, n⟩ =
    calmState { r with sp := r.sp - 1 } f (phys r.ss (r.sp - 1)) (loByte r.ip) true l (.intPushBus kind 2) mjr tmp q m p n := rfl
theorem clock_intPushBus_2 (kind : IntKind) : clock (calmState r f mar mbr dir l (.intPushBus kind 2) mjr tmp q m p n) =
    ⟨r, f, ⟨mar, mbr, dir, false, true, false, false⟩, l, ⟨.intPushAddr kind 3, mjr, false, tmp⟩, q,
        m.write p.ioRouting false mar mbr, p, n⟩ := rfl
theorem clock_intPushAddr_3 (kind : IntKind) : clock ⟨r, f, ⟨mar, mbr, dir, mr, mw, ir, iw⟩, l, ⟨.intPushAddr kind 3,
    mjr, false, tmp⟩, q, m, p, n⟩ =
    calmState { r with sp := r.sp - 1 } f (phys r.ss (r.sp - 1)) (hiByte r.cs) true l (.intPushBus kind 3) mjr tmp q m p n := rfl
theorem clock_intPushBus_3 (kind : IntKind) : clock (calmState r f mar mbr dir l (.intPushBus kind 3) mjr tmp q m p n) =
    ⟨r, f, ⟨mar, mbr, dir, false, true, false, false⟩, l, ⟨.intPushAddr kind 4, mjr, false, tmp⟩, q,
        m.write p.ioRouting false mar mbr, p, n⟩ := rfl
theorem clock_intPushAddr_4 (kind : IntKind) : clock ⟨r, f, ⟨mar, mbr, dir, mr, mw, ir, iw⟩, l, ⟨.intPushAddr kind 4,
    mjr, false, tmp⟩, q, m, p, n⟩ =
    calmState { r with sp := r.sp - 1 } f (phys r.ss (r.sp - 1)) (loByte r.cs) true l (.intPushBus kind 4) mjr tmp q m p n := rfl
theorem clock_intPushBus_4 (kind : IntKind) : clock (calmState r f mar mbr dir l (.intPushBus kind 4) mjr tmp q m p n) =
    ⟨r, f, ⟨mar, mbr, dir, false, true, false, false⟩, l, ⟨.intClear kind, mjr, false, tmp⟩, q,
        m.write p.ioRouting false mar mbr, p, n⟩ := rfl
theorem clock_intClear (kind) : clock ⟨r, f, ⟨mar, mbr, dir, mr, mw, ir, iw⟩, l, ⟨.intClear kind, mjr, false, tmp⟩,
    q, m, p, n⟩ =
    calmState r Flags.cleared mar mbr dir (match kind with | .hw => { l with source := q.vector } | .sw | .fault => l) (.intVecAddr 0) mjr tmp (match kind with | .hw => { q with ack := true } | .sw | .fault => q) m p n := by
  cases kind <;> rfl
theorem clock_intVecAddr_0 : clock ⟨r, f, ⟨mar, mbr, dir, mr, mw, ir, iw⟩, l, ⟨.intVecAddr 0, mjr, false, tmp⟩, q, m,
    p, n⟩ =
    calmState r f (vectorAddr l.source 0) mbr false l (.intVecBus 0) mjr tmp { q with ack := false } m p n := rfl
theorem clock_intVecLatch_0 : clock ⟨r, f, ⟨mar, mbr, dir, mr, mw, ir, iw⟩, l, ⟨.intVecLatch 0, mjr, false, tmp⟩, q,
    m, p, n⟩ =
    calmState r f mar mbr dir l (.intVecAddr 1) mjr (tmp ++ [mbr]) q m p n := rfl
theorem clock_intVecAddr_1 : clock ⟨r, f, ⟨mar, mbr, dir, mr, mw, ir, iw⟩, l, ⟨.intVecAddr 1, mjr, false, tmp⟩, q, m,
    p, n⟩ =
    calmState r f (vectorAddr l.source 1) mbr false l (.intVecBus 1) mjr tmp q m p n := rfl
theorem clock_intVecLatch_1 : clock ⟨r, f, ⟨mar, mbr, dir, mr, mw, ir, iw⟩, l, ⟨.intVecLatch 1, mjr, false, tmp⟩, q,
    m, p, n⟩ =
    calmState r f mar mbr dir l (.intVecAddr 2) mjr (tmp ++ [mbr]) q m p n := rfl
theorem clock_intVecAddr_2 : clock ⟨r, f, ⟨mar, mbr, dir, mr, mw, ir, iw⟩, l, ⟨.intVecAddr 2, mjr, false, tmp⟩, q, m,
    p, n⟩ =
    calmState r f (vectorAddr l.source 2) mbr false l (.intVecBus 2) mjr tmp q m p n := rfl
theorem clock_intVecLatch_2 : clock ⟨r, f, ⟨mar, mbr, dir, mr, mw, ir, iw⟩, l, ⟨.intVecLatch 2, mjr, false, tmp⟩, q,
    m, p, n⟩ =
    calmState r f mar mbr dir l (.intVecAddr 3) mjr (tmp ++ [mbr]) q m p n := rfl
theorem clock_intVecAddr_3 : clock ⟨r, f, ⟨mar, mbr, dir, mr, mw, ir, iw⟩, l, ⟨.intVecAddr 3, mjr, false, tmp⟩, q, m,
    p, n⟩ =
    calmState r f (vectorAddr l.source 3) mbr false l (.intVecBus 3) mjr tmp q m p n := rfl
theorem clock_intVecLatch_3 : clock ⟨r, f, ⟨mar, mbr, dir, mr, mw, ir, iw⟩, l, ⟨.intVecLatch 3, mjr, false, tmp⟩, q,
    m, p, n⟩ =
    calmState r f mar mbr dir l (.intEnd) mjr (tmp ++ [mbr]) q m p n := rfl
theorem clock_intVecBus (k) : clock (calmState r f mar mbr dir l (.intVecBus k) mjr tmp q m p n) =
    ⟨r, f, ⟨mar, readByte false mar m p n, dir, true, false, false, false⟩, l, ⟨.intVecLatch k, mjr, false, tmp⟩, q,
        m, p, readDraws false mar m p n⟩ :=
  busAccess_strobeRead (calmState r f mar mbr dir l (.intVecLatch k) mjr tmp q m p n) false
theorem clock_intEnd : clock ⟨r, f, ⟨mar, mbr, dir, mr, mw, ir, iw⟩, l, ⟨.intEnd, mjr, false, tmp⟩, q, m, p, n⟩ =
    calmState { r with ip := (descriptor p.vectorLayout tmp).1, cs := (descriptor p.vectorLayout tmp).2 } f mar mbr dir l .fetchAddr mjr [] q m p n := rfl

theorem readCycle_parts (io : Bool) (a : PhysAddr) (s : State) : readCycle io a s =
    (readByte io a s.mem s.params s.draws,
        { s with bus := ⟨a, readByte io a s.mem s.params s.draws, false, false, false, false, false⟩, draws := readDraws io a s.mem s.params s.draws }) := by
  simp only [readCycle, busRead_parts]; rfl

/-- No strobe is asserted. -/
def State.calm (s : State) : Prop := s.bus.memr = false ∧ s.bus.memw = false ∧ s.bus.ior = false ∧ s.bus.iow = false

/-- The swap and the five pushes take eleven clocks. -/
theorem clocks_pushFrame (kind : IntKind) :
    clocks 11 (calmState r f mar mbr dir l (.intEntry kind) mjr tmp q m p n) =
      ((pushFrame (swapIfUser (calmState r f mar mbr dir l .fetchAddr mjr tmp q m p n))).setBus
        { (pushFrame (swapIfUser (calmState r f mar mbr dir l .fetchAddr mjr tmp q m p n))).bus with memw := true }).goto (.intClear kind) := by
  cases h : f.us <;>
  (simp only [clocks, clock_intEntry, h, clock_intPushAddr_0, clock_intPushBus_0, clock_intPushAddr_1,
      clock_intPushBus_1, clock_intPushAddr_2, clock_intPushBus_2, clock_intPushAddr_3, clock_intPushBus_3,
      clock_intPushAddr_4, clock_intPushBus_4]
   simp only [pushFrame, push16, push8, writeCycle, busWrite, swapIfUser, stackSwap, h, State.withSp, State.setRegs,
       State.setMem, State.withCycle, State.setBus, State.goto, State.setMicro]
   simp only [Bool.false_eq_true, if_false, if_true])

/-- From `INT_CLEAR` to the handler's first fetch takes 14 clocks. -/
theorem clocks_enterHandler (kind : IntKind) (hq : q.ack = false) :
    clocks 14 ⟨r, f, ⟨mar, mbr, dir, mr, mw, ir, iw⟩, l, ⟨.intClear kind, mjr, false, []⟩, q, m, p, n⟩ =
      enterHandler (takeVector kind (calmState r Flags.cleared mar mbr dir l .fetchAddr mjr [] q m p n)) := by
  obtain ⟨pend, vec, ack⟩ := q
  subst hq
  cases kind <;>
  (simp only [clocks, clock_intClear, clock_intVecBus, clock_intEnd, clock_intVecAddr_0, clock_intVecLatch_0,
      clock_intVecAddr_1, clock_intVecLatch_1, clock_intVecAddr_2, clock_intVecLatch_2, clock_intVecAddr_3,
      clock_intVecLatch_3]
   simp only [enterHandler, readVector, readCycle_parts, takeVector, State.withSource, State.setLatch, State.withIp,
       State.withCs, State.setRegs]
   rfl)

/-- Interrupt entry takes 25 clocks and is `interrupt` (R430, R493). -/
theorem clocks_entry (kind : IntKind) (hq : q.ack = false) :
    clocks 25 (calmState r f mar mbr dir l (.intEntry kind) mjr [] q m p n) =
        interrupt kind (calmState r f mar mbr dir l .fetchAddr mjr [] q m p n) := by
  rw [show 25 = 11 + 14 from rfl, clocks_add, clocks_pushFrame]
  have hm := pushFrame_micro (swapIfUser (calmState r f mar mbr dir l .fetchAddr mjr [] q m p n))
  have hi := pushFrame_irq (swapIfUser (calmState r f mar mbr dir l .fetchAddr mjr [] q m p n))
  have hb := congrArg State.bus (rfl : pushFrame (swapIfUser (calmState r f mar mbr dir l .fetchAddr mjr [] q m p n)) = pushFrame (swapIfUser (calmState r f mar mbr dir l .fetchAddr mjr [] q m p n)))
  simp only [swapIfUser_micro, swapIfUser_irq] at hm hi
  have hc : State.calm (pushFrame (swapIfUser (calmState r f mar mbr dir l .fetchAddr mjr [] q m p n))) := by
    simp [State.calm, pushFrame]
  unfold interrupt
  generalize pushFrame (swapIfUser (calmState r f mar mbr dir l .fetchAddr mjr [] q m p n)) = u at *
  obtain ⟨r', f', ⟨mar', mbr', dir', a, b, c, d⟩, l', mc', q', m', p', n'⟩ := u
  simp only at hm hi
  obtain ⟨rfl, rfl, rfl, rfl⟩ := hc
  subst hm hi
  exact clocks_enterHandler r' f' mar' mbr' dir' l' mjr _ m' p' n' _ true _ _ kind hq

end Sys2Proof.Machine
end

