-- ==== Sys2Proof/Laws/ClockPhases.lean ====
section
/-! SUPPORT. The phases of an instruction at the clock level, each as the instruction level has it: opcode fetch and
the faults it finds, the operand phase of every format, the execute phase of every instruction, and its end
(40_fetch.md R184 to R197, 70_reset_and_hazards.md R492). -/

namespace Sys2Proof.Machine

open Sys2Proof

/-- Interrupt entry from any calm state that is at `INT_ENTRY` (R430). -/
theorem clocks_entry_of {s : State} {kind : IntKind} (hs : s.micro.star = .intEntry kind) (hc : s.calm)
    (hh : s.micro.halted = false) (ht : s.micro.tmp = []) (hq : s.irq.ack = false) :
    clocks 25 s = interrupt kind (s.goto .fetchAddr) := by
  obtain ⟨r, f, ⟨mar, mbr, dir, a, b, c, d⟩, l, ⟨st, mjr, h, t⟩, q, m, p, n⟩ := s
  obtain ⟨rfl, rfl, rfl, rfl⟩ := hc
  simp only at hs hh ht hq
  subst hs hh ht
  exact clocks_entry r f mar mbr dir l mjr q m p n kind hq

/-- The final writes of an instruction write registers and flags only. -/
theorem finalWrites_frame (op : Op) (s : State) : ∃ r f, finalWrites op s = { s with regs := r, flags := f } := by
  cases op <;> first
    | exact ⟨_, _, rfl⟩
    | (simp only [finalWrites, actJump, swapIfUser]; split <;> exact ⟨_, _, rfl⟩)

/-- A jump does not look at micro-program control. -/
theorem actJump_setMicro (b : Bool) (s : State) (m : MicroControl) :
    actJump b (s.setMicro m) = (actJump b s).setMicro m := by cases b <;> rfl

/-- The final writes look at micro-program control only for bytes popped. -/
theorem finalWrites_setMicro {op : Op} (hp : popCount op = 0) (s : State) (m : MicroControl) :
    finalWrites op (s.setMicro m) = (finalWrites op s).setMicro m := by
  cases op <;> first
    | rfl
    | (exact absurd hp (by decide))
    | exact actJump_setMicro _ _ _

/-- The end of an instruction: the final writes, and the interrupt that the boundary check takes. -/
theorem clocks_execEnd {s : State} {op : Op} (ho : s.currentOp = some op) (hh : s.micro.halted = false)
    (hq : s.irq.ack = false) :
    clocks (if (finalWrites op s.quiet).flags.ie && s.irq.pending then 25 else 0) (execEnd s)
      = boundaryCheck ((finalWrites op s.quiet).setMicro ⟨.fetchAddr, s.micro.mjr, false, []⟩) := by
  obtain ⟨r', f', he⟩ := finalWrites_frame op s.quiet
  simp only [execEnd, ho]
  rw [he]
  obtain ⟨r, f, ⟨mar, mbr, dir, a, b, c, d⟩, l, ⟨st, mjr, h, t⟩, q, m, p, n⟩ := s
  simp only at hh hq
  subst hh
  by_cases hi : (f'.ie && q.pending) = true
  · simp only [State.dropBytes, State.setMicro, State.quiet, State.setBus, BusLatches.quiet, hi, if_true,
      boundaryCheck, Bool.not_false, Bool.true_and]
    exact clocks_entry r' f' mar mbr dir l mjr q m p n .hw hq
  · simp only [State.dropBytes, State.setMicro, State.quiet, State.setBus, BusLatches.quiet, hi, boundaryCheck,
      Bool.not_false, Bool.true_and]
    rfl

/-! ### The fetch -/

/-- What the boundary state and the given parts make. -/
theorem fetchOpcode_parts (s : State) : fetchOpcode s =
    { s with
      regs := { s.regs with ip := s.regs.ip + 1 }
      bus := ⟨phys s.regs.cs s.regs.ip, readByte false (phys s.regs.cs s.regs.ip) s.mem s.params s.draws, false,
          false, false, false, false⟩
      latch := { s.latch with opcode := readByte false (phys s.regs.cs s.regs.ip) s.mem s.params s.draws }
      draws := readDraws false (phys s.regs.cs s.regs.ip) s.mem s.params s.draws } := by
  simp only [fetchOpcode, fetchCode8, readCycle_parts]; rfl

/-- The three clocks of opcode fetch: an instruction to run. -/
theorem clocks_fetch {s : State} {op : Op} (hs : s.micro.star = .fetchAddr) (hh : s.micro.halted = false)
    (hl : (fetchOpcode s).currentOp = some op) (hb : s.blocked op = false) (hn : op ≠ .hlt) :
    clocks 3 s = ((fetchOpcode s).withMjr (executeEntry op)).goto (operandEntry op.fmt (executeEntry op)) := by
  rw [fetchOpcode_parts] at hl ⊢
  obtain ⟨r, f, ⟨mar, mbr, dir, a, b, c, d⟩, l, ⟨st, mjr, h, t⟩, q, m, p, n⟩ := s
  simp only at hs hh
  subst hs hh
  simp only [clocks, clock_fetchAddr, clock_fetchBus]
  rw [clock_fetchLatch _ _ _ _ _ _ _ _ _ _ _ _ _ _ _ _ hl hb hn]
  rfl

/-- The three clocks of opcode fetch of HLT park the machine. -/
theorem clocks_fetch_hlt {s : State} (hs : s.micro.star = .fetchAddr) (hh : s.micro.halted = false)
    (hl : (fetchOpcode s).currentOp = some .hlt) (hb : s.blocked .hlt = false) :
    clocks 3 s = actHlt ((fetchOpcode s).withMjr .halt) := by
  rw [fetchOpcode_parts] at hl ⊢
  obtain ⟨r, f, ⟨mar, mbr, dir, a, b, c, d⟩, l, ⟨st, mjr, h, t⟩, q, m, p, n⟩ := s
  simp only at hs hh
  subst hs hh
  simp only [clocks, clock_fetchAddr, clock_fetchBus]
  rw [clock_fetchLatch_hlt _ _ _ _ _ _ _ _ _ _ _ _ _ _ _ _ hl hb]
  rfl

/-- The clocks of an invalid opcode, to the handler's fetch (R422). -/
theorem clocks_fetch_invalid {s : State} (hs : s.micro.star = .fetchAddr) (hh : s.micro.halted = false)
    (ht : s.micro.tmp = []) (hq : s.irq.ack = false) (hl : (fetchOpcode s).currentOp = none) :
    clocks 28 s = raiseFault s.params.vecInvalidOpcode (fetchOpcode s) := by
  rw [fetchOpcode_parts] at hl ⊢
  obtain ⟨r, f, ⟨mar, mbr, dir, a, b, c, d⟩, l, ⟨st, mjr, h, t⟩, q, m, p, n⟩ := s
  simp only at hs hh ht hq
  subst hs hh ht
  rw [show 28 = 3 + 25 from rfl, clocks_add]
  simp only [clocks, clock_fetchAddr, clock_fetchBus]
  rw [clock_fetchLatch_invalid _ _ _ _ _ _ _ _ _ _ _ _ _ _ _ _ hl]
  exact clocks_entry _ _ _ _ _ _ _ _ _ _ _ .fault hq

/-- The clocks of a privilege violation, to the handler's fetch (R424). -/
theorem clocks_fetch_blocked {s : State} {op : Op} (hs : s.micro.star = .fetchAddr) (hh : s.micro.halted = false)
    (ht : s.micro.tmp = []) (hq : s.irq.ack = false) (hl : (fetchOpcode s).currentOp = some op) (hb : s.blocked op =
        true) :
    clocks 28 s = privilegeFault (fetchOpcode s) := by
  rw [privilegeFault, fetchOpcode_parts] at *
  obtain ⟨r, f, ⟨mar, mbr, dir, a, b, c, d⟩, l, ⟨st, mjr, h, t⟩, q, m, p, n⟩ := s
  simp only at hs hh ht hq
  subst hs hh ht
  rw [show 28 = 3 + 25 from rfl, clocks_add]
  simp only [clocks, clock_fetchAddr, clock_fetchBus]
  rw [clock_fetchLatch_blocked _ _ _ _ _ _ _ _ _ _ _ _ _ _ _ _ hl hb]
  exact clocks_entry _ _ _ _ _ _ _ _ _ _ _ .fault hq

/-! ### The operand phases -/

theorem fetchCode8_parts (s : State) : fetchCode8 s =
    (readByte false (phys s.regs.cs s.regs.ip) s.mem s.params s.draws,
      { s with
        regs := { s.regs with ip := s.regs.ip + 1 }
        bus := ⟨phys s.regs.cs s.regs.ip, readByte false (phys s.regs.cs s.regs.ip) s.mem s.params s.draws, false,
            false, false, false, false⟩
        draws := readDraws false (phys s.regs.cs s.regs.ip) s.mem s.params s.draws }) := by
  simp only [fetchCode8, readCycle_parts]; rfl

/-- The F1 operand phase (R189). -/
theorem clocks_operand_f1 {u : State} (hc : u.calm) (hh : u.micro.halted = false) :
    clocks 3 (u.goto .dsdiAddr) = (operandDi u).goto u.micro.mjr := by
  simp only [operandDi, readCycle_parts]
  obtain ⟨r, f, ⟨mar, mbr, dir, a, b, c, d⟩, l, ⟨st, mjr, h, t⟩, q, m, p, n⟩ := u
  obtain ⟨rfl, rfl, rfl, rfl⟩ := hc
  simp only at hh
  subst hh
  simp only [clocks, State.goto, State.setMicro, clock_dsdiAddr, clock_dsdiBus, clock_dsdiLatch]
  rfl

/-- The F2 operand phase (R190). -/
theorem clocks_operand_f2 {u : State} (hc : u.calm) (hh : u.micro.halted = false) :
    clocks 1 (u.goto .f2Set) = (operandDestDi u).goto u.micro.mjr := by
  obtain ⟨r, f, ⟨mar, mbr, dir, a, b, c, d⟩, l, ⟨st, mjr, h, t⟩, q, m, p, n⟩ := u
  obtain ⟨rfl, rfl, rfl, rfl⟩ := hc
  simp only at hh
  subst hh
  rfl

/-- The F3 operand phase (R191). -/
theorem clocks_operand_f3 {u : State} {op : Op} (hh : u.micro.halted = false)
    (hl : u.currentOp = some op) (hf : op.fmt = .f3) :
    clocks 3 (u.goto (.codeAddr 0)) = (operandImm ((codeBytes 1 u).getD 0 0) (fetchBytes 1 u).2).goto u.micro.mjr := by
  simp only [codeBytes, fetchBytes, fetchCode8_parts]
  obtain ⟨r, f, ⟨mar, mbr, dir, a, b, c, d⟩, l, ⟨st, mjr, h, t⟩, q, m, p, n⟩ := u
  simp only [State.currentOp] at hh hl
  subst hh
  simp only [clocks, State.goto, State.setMicro, clock_codeAddr, clock_codeBus]
  rw [clock_codeLatch_f3 _ _ _ _ _ _ _ _ _ _ _ _ _ _ _ _ hl hf]
  rfl

/-- The F4 operand phase (R192). -/
theorem clocks_operand_f4 {u : State} {op : Op} (hh : u.micro.halted = false)
    (hl : u.currentOp = some op) (hf : op.fmt = .f4) :
    clocks 9 (u.goto (.codeAddr 0)) =
      (readEffective (op == .inPort) (if op = .inPort then 0 else u.regs.ds)
        ((fetchBytes 2 u).2.withDestOff (joinBytes ((codeBytes 2 u).getD 1 0) ((codeBytes 2 u).getD 0 0)))).goto u.micro.mjr := by
  simp only [codeBytes, fetchBytes, fetchCode8_parts, readEffective, readCycle_parts]
  obtain ⟨r, f, ⟨mar, mbr, dir, a, b, c, d⟩, l, ⟨st, mjr, h, t⟩, q, m, p, n⟩ := u
  simp only [State.currentOp] at hh hl
  subst hh
  have hl' : ∀ x y z, lookupOp p.opcodeMap (DecodeLatches.mk l.opcode x y z).opcode = some op := fun _ _ _ => hl
  simp only [clocks, State.goto, State.setMicro, clock_codeAddr, clock_codeBus]
  rw [clock_codeLatch_f4_0 _ _ _ _ _ _ _ _ _ _ _ _ _ _ _ _ hl hf]
  simp only [clock_codeAddr, clock_codeBus]
  rw [clock_codeLatch_f4_1 _ _ _ _ _ _ _ _ _ _ _ _ _ _ _ _ (hl' _ _ _) hf]
  rw [clock_eaAddr _ _ _ _ _ _ _ _ _ _ _ _ _ _ _ _ (hl' _ _ _)]
  rw [clock_eaBus _ _ _ _ _ _ _ _ _ _ _ _ (hl' _ _ _)]
  rw [clock_eaLatch]
  simp only [loByte_joinBytes]
  rfl

/-- The F5 operand phase (R193). -/
theorem clocks_operand_f5 {u : State} {op : Op} (hh : u.micro.halted = false)
    (hl : u.currentOp = some op) (hf : op.fmt = .f5) :
    clocks 6 (u.goto (.codeAddr 0)) =
      ((fetchBytes 2 u).2.withDest (if op = .outPort then 0 else u.regs.ds)
        (joinBytes ((codeBytes 2 u).getD 1 0) ((codeBytes 2 u).getD 0 0))).goto u.micro.mjr := by
  simp only [codeBytes, fetchBytes, fetchCode8_parts]
  obtain ⟨r, f, ⟨mar, mbr, dir, a, b, c, d⟩, l, ⟨st, mjr, h, t⟩, q, m, p, n⟩ := u
  simp only [State.currentOp] at hh hl
  subst hh
  have hl' : ∀ x y z, lookupOp p.opcodeMap (DecodeLatches.mk l.opcode x y z).opcode = some op := fun _ _ _ => hl
  simp only [clocks, State.goto, State.setMicro, clock_codeAddr, clock_codeBus]
  rw [clock_codeLatch_f5_0 _ _ _ _ _ _ _ _ _ _ _ _ _ _ _ _ hl hf]
  simp only [clock_codeAddr, clock_codeBus]
  rw [clock_codeLatch_f5_1 _ _ _ _ _ _ _ _ _ _ _ _ _ _ _ _ (hl' _ _ _) hf]
  simp only [loByte_joinBytes]
  rfl

/-- The F6 operand phase (R194). -/
theorem clocks_operand_f6 {u : State} {op : Op} (hh : u.micro.halted = false)
    (hl : u.currentOp = some op) (hf : op.fmt = .f6) :
    clocks 6 (u.goto (.codeAddr 0)) =
      ((fetchBytes 2 u).2.withDest u.regs.cs
        (joinBytes ((codeBytes 2 u).getD 1 0) ((codeBytes 2 u).getD 0 0))).goto u.micro.mjr := by
  simp only [codeBytes, fetchBytes, fetchCode8_parts]
  obtain ⟨r, f, ⟨mar, mbr, dir, a, b, c, d⟩, l, ⟨st, mjr, h, t⟩, q, m, p, n⟩ := u
  simp only [State.currentOp] at hh hl
  subst hh
  have hl' : ∀ x y z, lookupOp p.opcodeMap (DecodeLatches.mk l.opcode x y z).opcode = some op := fun _ _ _ => hl
  simp only [clocks, State.goto, State.setMicro, clock_codeAddr, clock_codeBus]
  rw [clock_codeLatch_f6_0 _ _ _ _ _ _ _ _ _ _ _ _ _ _ _ _ hl hf]
  simp only [clock_codeAddr, clock_codeBus]
  rw [clock_codeLatch_f6_1 _ _ _ _ _ _ _ _ _ _ _ _ _ _ _ _ (hl' _ _ _) hf]
  simp only [loByte_joinBytes]
  rfl

section FarBytes
variable (r : Regs) (f : Flags) (mar : PhysAddr) (mbr : Byte) (dir : Bool) (l : DecodeLatches) (mjr : MicroState)
    (tmp : List Byte) (q : IrqLine) (m : Memory) (p : Params) (n : Nat) (mr mw ir iw : Bool)
    {op : Op} (hl : lookupOp p.opcodeMap l.opcode = some op) (hf : op.fmt = .f7)
include hl hf

theorem clock_codeLatch_f7_offsetFirst_0 (hp : p.farPtrLayout = .offsetFirst) :
    clock ⟨r, f, ⟨mar, mbr, dir, mr, mw, ir, iw⟩, l, ⟨.codeLatch 0, mjr, false, tmp⟩, q, m, p, n⟩ =
    calmState r f mar mbr dir { l with destOff := putByte l.destOff false mbr } (.codeAddr 1) mjr tmp q m p n := by
  rw [clock_codeLatch_f7 r f mar mbr dir l mjr tmp q m p n mr mw ir iw hl hf]
  simp only [hp]
  rfl

theorem clock_codeLatch_f7_offsetFirst_1 (hp : p.farPtrLayout = .offsetFirst) :
    clock ⟨r, f, ⟨mar, mbr, dir, mr, mw, ir, iw⟩, l, ⟨.codeLatch 1, mjr, false, tmp⟩, q, m, p, n⟩ =
    calmState r f mar mbr dir { l with destOff := putByte l.destOff true mbr } (.codeAddr 2) mjr tmp q m p n := by
  rw [clock_codeLatch_f7 r f mar mbr dir l mjr tmp q m p n mr mw ir iw hl hf]
  simp only [hp]
  rfl

theorem clock_codeLatch_f7_offsetFirst_2 (hp : p.farPtrLayout = .offsetFirst) :
    clock ⟨r, f, ⟨mar, mbr, dir, mr, mw, ir, iw⟩, l, ⟨.codeLatch 2, mjr, false, tmp⟩, q, m, p, n⟩ =
    calmState r f mar mbr dir { l with destSel := putByte l.destSel false mbr } (.codeAddr 3) mjr tmp q m p n := by
  rw [clock_codeLatch_f7 r f mar mbr dir l mjr tmp q m p n mr mw ir iw hl hf]
  simp only [hp]
  rfl

theorem clock_codeLatch_f7_offsetFirst_3 (hp : p.farPtrLayout = .offsetFirst) :
    clock ⟨r, f, ⟨mar, mbr, dir, mr, mw, ir, iw⟩, l, ⟨.codeLatch 3, mjr, false, tmp⟩, q, m, p, n⟩ =
    calmState r f mar mbr dir { l with destSel := putByte l.destSel true mbr } mjr mjr tmp q m p n := by
  rw [clock_codeLatch_f7 r f mar mbr dir l mjr tmp q m p n mr mw ir iw hl hf]
  simp only [hp]
  rfl

theorem clock_codeLatch_f7_selectorFirst_0 (hp : p.farPtrLayout = .selectorFirst) :
    clock ⟨r, f, ⟨mar, mbr, dir, mr, mw, ir, iw⟩, l, ⟨.codeLatch 0, mjr, false, tmp⟩, q, m, p, n⟩ =
    calmState r f mar mbr dir { l with destSel := putByte l.destSel false mbr } (.codeAddr 1) mjr tmp q m p n := by
  rw [clock_codeLatch_f7 r f mar mbr dir l mjr tmp q m p n mr mw ir iw hl hf]
  simp only [hp]
  rfl

theorem clock_codeLatch_f7_selectorFirst_1 (hp : p.farPtrLayout = .selectorFirst) :
    clock ⟨r, f, ⟨mar, mbr, dir, mr, mw, ir, iw⟩, l, ⟨.codeLatch 1, mjr, false, tmp⟩, q, m, p, n⟩ =
    calmState r f mar mbr dir { l with destSel := putByte l.destSel true mbr } (.codeAddr 2) mjr tmp q m p n := by
  rw [clock_codeLatch_f7 r f mar mbr dir l mjr tmp q m p n mr mw ir iw hl hf]
  simp only [hp]
  rfl

theorem clock_codeLatch_f7_selectorFirst_2 (hp : p.farPtrLayout = .selectorFirst) :
    clock ⟨r, f, ⟨mar, mbr, dir, mr, mw, ir, iw⟩, l, ⟨.codeLatch 2, mjr, false, tmp⟩, q, m, p, n⟩ =
    calmState r f mar mbr dir { l with destOff := putByte l.destOff false mbr } (.codeAddr 3) mjr tmp q m p n := by
  rw [clock_codeLatch_f7 r f mar mbr dir l mjr tmp q m p n mr mw ir iw hl hf]
  simp only [hp]
  rfl

theorem clock_codeLatch_f7_selectorFirst_3 (hp : p.farPtrLayout = .selectorFirst) :
    clock ⟨r, f, ⟨mar, mbr, dir, mr, mw, ir, iw⟩, l, ⟨.codeLatch 3, mjr, false, tmp⟩, q, m, p, n⟩ =
    calmState r f mar mbr dir { l with destOff := putByte l.destOff true mbr } mjr mjr tmp q m p n := by
  rw [clock_codeLatch_f7 r f mar mbr dir l mjr tmp q m p n mr mw ir iw hl hf]
  simp only [hp]
  rfl

end FarBytes

/-- The F7 operand phase (R195). -/
theorem clocks_operand_f7 {u : State} {op : Op} (hh : u.micro.halted = false)
    (hl : u.currentOp = some op) (hf : op.fmt = .f7) :
    clocks 12 (u.goto (.codeAddr 0)) =
      (match u.params.farPtrLayout with
        | .offsetFirst => (fetchBytes 4 u).2.withDest (joinBytes ((codeBytes 4 u).getD 3 0) ((codeBytes 4 u).getD 2 0))
            (joinBytes ((codeBytes 4 u).getD 1 0) ((codeBytes 4 u).getD 0 0))
        | .selectorFirst => (fetchBytes 4 u).2.withDest (joinBytes ((codeBytes 4 u).getD 1 0) ((codeBytes 4 u).getD 0 0))
            (joinBytes ((codeBytes 4 u).getD 3 0) ((codeBytes 4 u).getD 2 0))).goto u.micro.mjr := by
  simp only [codeBytes, fetchBytes, fetchCode8_parts]
  obtain ⟨r, f, ⟨mar, mbr, dir, a, b, c, d⟩, l, ⟨st, mjr, h, t⟩, q, m, p, n⟩ := u
  simp only [State.currentOp] at hh hl
  subst hh
  have hl' : ∀ x y z, lookupOp p.opcodeMap (DecodeLatches.mk l.opcode x y z).opcode = some op := fun _ _ _ => hl
  simp only [clocks, State.goto, State.setMicro, clock_codeAddr, clock_codeBus]
  cases hp : p.farPtrLayout
  · rw [clock_codeLatch_f7_offsetFirst_0 _ _ _ _ _ _ _ _ _ _ _ _ _ _ _ _ hl hf hp]
    simp only [clock_codeAddr, clock_codeBus]
    rw [clock_codeLatch_f7_offsetFirst_1 _ _ _ _ _ _ _ _ _ _ _ _ _ _ _ _ (hl' _ _ _) hf hp]
    simp only [clock_codeAddr, clock_codeBus]
    rw [clock_codeLatch_f7_offsetFirst_2 _ _ _ _ _ _ _ _ _ _ _ _ _ _ _ _ (hl' _ _ _) hf hp]
    simp only [clock_codeAddr, clock_codeBus]
    rw [clock_codeLatch_f7_offsetFirst_3 _ _ _ _ _ _ _ _ _ _ _ _ _ _ _ _ (hl' _ _ _) hf hp]
    simp only [putByte, loByte_joinBytes, if_true, Bool.false_eq_true, if_false]
    rfl
  · rw [clock_codeLatch_f7_selectorFirst_0 _ _ _ _ _ _ _ _ _ _ _ _ _ _ _ _ hl hf hp]
    simp only [clock_codeAddr, clock_codeBus]
    rw [clock_codeLatch_f7_selectorFirst_1 _ _ _ _ _ _ _ _ _ _ _ _ _ _ _ _ (hl' _ _ _) hf hp]
    simp only [clock_codeAddr, clock_codeBus]
    rw [clock_codeLatch_f7_selectorFirst_2 _ _ _ _ _ _ _ _ _ _ _ _ _ _ _ _ (hl' _ _ _) hf hp]
    simp only [clock_codeAddr, clock_codeBus]
    rw [clock_codeLatch_f7_selectorFirst_3 _ _ _ _ _ _ _ _ _ _ _ _ _ _ _ _ (hl' _ _ _) hf hp]
    simp only [putByte, loByte_joinBytes, if_true, Bool.false_eq_true, if_false]
    rfl

/-! ### Operand phases by instruction -/

/-- The operand phase of an instruction, as its meaning performs it. -/
def operandPhase (i : Instr) : State → State :=
  match i with
  | .ldDi | .addDi | .subDi | .andDi | .orDi | .cmpDi => operandDi
  | .stDi => operandDestDi
  | .ldImm k | .addImm k | .subImm k | .andImm k | .orImm k | .cmpImm k | .intImm k => operandImm k
  | .ldD16 d | .addD16 d | .subD16 d | .andD16 d | .orD16 d | .cmpD16 d => operandD16 d
  | .inPort d => operandInPort d
  | .stD16 off => operandDestD16 off
  | .outPort off => operandOutPort off
  | .jmp off | .je off | .jne off | .ja off | .jae off | .jb off | .jbe off | .jg off | .jge off | .jl off
  | .jle off | .jo off | .jno off | .js off | .jns off | .call off => operandNear off
  | .jmpf sel off | .callf sel off => operandFar sel off
  | _ => id

/-- The execute phase of an instruction, as its meaning performs it. -/
def act (op : Op) : State → State :=
  match op with
  | .hlt => actHlt
  | .pushAl => actPushAl
  | .popAl => actPopAl
  | .ret => actRet
  | .retf => actRetf
  | .iret => returnFromInterrupt
  | .intImm => interrupt .sw
  | .stDi | .stD16 => actStore false
  | .outPort => actStore true
  | .call => actCall
  | .callf => actCallf
  | op => finalWrites op

/-- An effect is its operand phase and then its execute phase. -/
theorem effect_eq_act (i : Instr) (s : State) : effect i s = act i.op (operandPhase i s) := by
  cases i <;> rfl

/-- The clocks of the operand phase. -/
def operandClocks : Fmt → Nat
  | .f0 => 0 | .f1 => 3 | .f2 => 1 | .f3 => 3 | .f4 => 9 | .f5 => 6 | .f6 => 6 | .f7 => 12

/-- The operand phase of every instruction, as its meaning performs it. -/
theorem clocks_operand {u : State} {op : Op} (hc : u.calm) (hh : u.micro.halted = false) (hl : u.currentOp = some op) :
    clocks (operandClocks op.fmt) (u.goto (operandEntry op.fmt u.micro.mjr)) =
      (operandPhase (assemble u.params.farPtrLayout op ((codeBytes op.fmt.operandBytes u).getD 0 0)
        ((codeBytes op.fmt.operandBytes u).getD 1 0) ((codeBytes op.fmt.operandBytes u).getD 2 0)
        ((codeBytes op.fmt.operandBytes u).getD 3 0)) (fetchBytes op.fmt.operandBytes u).2).goto u.micro.mjr := by
  have hr : ∀ k, (fetchBytes k u).2.regs.ds = u.regs.ds := by intro k; simp
  have hr' : ∀ k, (fetchBytes k u).2.regs.cs = u.regs.cs := by intro k; simp
  cases hf : op.fmt
  · cases op <;> first | (exact absurd hf (by decide)) | rfl
  · refine (clocks_operand_f1 hc hh).trans ?_
    cases op <;> first | (exact absurd hf (by decide)) | rfl
  · refine (clocks_operand_f2 hc hh).trans ?_
    cases op <;> first | (exact absurd hf (by decide)) | rfl
  · refine (clocks_operand_f3 hh hl hf).trans ?_
    cases op <;> first | (exact absurd hf (by decide)) | rfl
  · refine (clocks_operand_f4 hh hl hf).trans ?_
    cases op <;> first
      | (exact absurd hf (by decide))
      | (simp only [assemble, operandPhase, operandD16, operandInPort, Fmt.operandBytes, hr]; rfl)
  · refine (clocks_operand_f5 hh hl hf).trans ?_
    cases op <;> first
      | (exact absurd hf (by decide))
      | (simp only [assemble, operandPhase, operandDestD16, operandOutPort, Fmt.operandBytes, hr]; rfl)
  · refine (clocks_operand_f6 hh hl hf).trans ?_
    cases op <;> first
      | (exact absurd hf (by decide))
      | simp only [assemble, operandPhase, operandNear, Fmt.operandBytes, hr']
  · refine (clocks_operand_f7 hh hl hf).trans ?_
    cases op <;> first
      | (exact absurd hf (by decide))
      | (cases u.params.farPtrLayout <;> simp only [assemble, operandPhase, operandFar, farSelector, farOffset,
          Fmt.operandBytes])

/-! ### Execute phases -/

/-- `EXEC_END` makes no access. -/
theorem busAccess_execEnd {s : State} {op : Op} (ho : s.currentOp = some op) : busAccess (execEnd s) = execEnd s := by
  obtain ⟨r, f, he⟩ := finalWrites_frame op s.quiet
  apply busAccess_calm <;> simp only [execEnd, ho, he] <;> split <;> rfl

/-- The clock of `EXEC_END`. -/
theorem clock_execEnd {s : State} {op : Op} (ho : s.currentOp = some op) (hh : s.micro.halted = false)
    (hs : s.micro.star = .execEnd) : clock s = execEnd s := by
  simp only [clock, hh, Bool.false_eq_true, if_false, transition, hs, busAccess_execEnd ho]

/-- `EXEC_END` and what follows at the boundary. -/
theorem clocks_execEnd_star {s t : State} {op : Op} (ho : s.currentOp = some op) (hh : s.micro.halted = false)
    (hs : s.micro.star = .execEnd) (hq : s.irq.ack = false)
    (ht : (finalWrites op s.quiet).setMicro ⟨.fetchAddr, s.micro.mjr, false, []⟩ = t) :
    clocks (1 + if t.flags.ie && t.irq.pending then 25 else 0) s = boundaryCheck t := by
  have hf : t.flags = (finalWrites op s.quiet).flags := by rw [← ht]; rfl
  have hi : t.irq = s.irq := by
    obtain ⟨r, f, he⟩ := finalWrites_frame op s.quiet
    rw [← ht, he]; rfl
  rw [clocks_add, hf, hi, ← ht, show clocks 1 s = clock s from rfl, clock_execEnd ho hh hs]
  exact clocks_execEnd ho hh hq

/-- An instruction without stack or store accesses does its final writes. -/
theorem act_simple {op : Op} (hp : popCount op = 0) (hw : writeCount op = 0) (hn : op ≠ .hlt) (hn' : op ≠ .intImm)
    (t : State) : act op t = finalWrites op t := by
  cases op <;> first
    | (exact absurd hp (by decide)) | (exact absurd hw (by decide)) | (exact absurd rfl hn) | (exact absurd rfl hn') | rfl

/-- Such an instruction's execute entry is `EXEC_END`. -/
theorem transition_simple {op : Op} (hp : popCount op = 0) (hw : writeCount op = 0)
    (hn : op ≠ .hlt) (hn' : op ≠ .intImm)
    {s : State} (ho : s.currentOp = some op) (hs : s.micro.star = executeEntry op) : transition s = execEnd s := by
  cases op <;> first
    | (exact absurd hp (by decide)) | (exact absurd hw (by decide)) | (exact absurd rfl hn) | (exact absurd rfl hn')
    | (simp only [executeEntry, categoryOf, reduceCtorEq, if_false] at hs
       simp only [transition, hs, executeState, ho])

/-- Quieting a calm state changes nothing. -/
theorem State.quiet_of_calm {t : State} (hc : t.calm) : t.quiet = t := by
  obtain ⟨h1, h2, h3, h4⟩ := hc
  obtain ⟨r, f, ⟨mar, mbr, dir, a, b, c, d⟩, l, mc, q, m, p, n⟩ := t
  simp only at h1 h2 h3 h4
  subst h1 h2 h3 h4
  rfl

/-- The execute phase of an instruction without stack or store accesses. -/
theorem clocks_execute_simple {t : State} {op : Op} (hc : t.calm) (ho : t.currentOp = some op) (hh : t.micro.halted =
    false)
    (ht : t.micro.tmp = []) (hq : t.irq.ack = false) (hs : t.micro.star = .fetchAddr) (hm : t.micro.mjr =
        executeEntry op)
    (hp : popCount op = 0) (hw : writeCount op = 0) (hn : op ≠ .hlt) (hn' : op ≠ .intImm) :
    clocks (1 + if (act op t).flags.ie && (act op t).irq.pending then 25 else 0) (t.goto (executeEntry op)) =
      boundaryCheck (act op t) := by
  have hact := act_simple hp hw hn hn' t
  have hclock : clock (t.goto (executeEntry op)) = execEnd (t.goto (executeEntry op)) := by
    rw [← busAccess_execEnd (s := t.goto (executeEntry op)) (op := op) ho]
    have hg : (t.goto (executeEntry op)).micro.halted = false := hh
    simp only [clock, hg, Bool.false_eq_true, if_false, transition_simple hp hw hn hn' (s :=
        t.goto (executeEntry op)) ho rfl]
  have hq' := State.quiet_of_calm hc
  have hmc : t.micro = ⟨.fetchAddr, executeEntry op, false, []⟩ := by
    rw [← hs, ← hm, ← hh, ← ht]
  have he : (finalWrites op (t.goto (executeEntry op)).quiet).setMicro ⟨.fetchAddr,
      (t.goto (executeEntry op)).micro.mjr, false, []⟩ = finalWrites op t := by
    have h1 : (t.goto (executeEntry op)).quiet = t.setMicro { t.micro with star := executeEntry op } := by
      conv_rhs => rw [← hq']
      rfl
    rw [h1, finalWrites_setMicro hp]
    obtain ⟨r, f, hfr⟩ := finalWrites_frame op t
    rw [hfr]
    simp only [State.setMicro, State.goto, hmc]
  obtain ⟨r, f, hfr⟩ := finalWrites_frame op t
  rw [hact, clocks_add, show clocks 1 (t.goto (executeEntry op)) = clock (t.goto (executeEntry op)) from rfl, hclock]
  have key := clocks_execEnd (s := t.goto (executeEntry op)) (op := op) ho hh hq
  rw [he] at key
  rw [← key, hfr]
  congr 2
  have h2 : (finalWrites op (t.goto (executeEntry op)).quiet).flags = (finalWrites op t).flags := by
    rw [← he]; rfl
  rw [h2, hfr]
  rfl

/-- A pop, with every part of the state written out. -/
theorem pop8_parts (s : State) : pop8 s =
    (readByte false (phys s.regs.ss s.regs.sp) s.mem s.params s.draws,
      { s with
        regs := { s.regs with sp := s.regs.sp + 1 }
        bus := ⟨phys s.regs.ss s.regs.sp, readByte false (phys s.regs.ss s.regs.sp) s.mem s.params s.draws, false,
            false, false, false, false⟩
        draws := readDraws false (phys s.regs.ss s.regs.sp) s.mem s.params s.draws }) := by
  simp only [pop8, readCycle_parts]; rfl

/-- The swap does not look at micro-program control. -/
theorem swapIfUser_setMicro (s : State) (m : MicroControl) : swapIfUser (s.setMicro m) = (swapIfUser s).setMicro m := by
  cases h : s.flags.us <;> simp only [swapIfUser, State.setMicro, h] <;> rfl

section Execute
variable (r : Regs) (f : Flags) (mar : PhysAddr) (mbr : Byte) (dir : Bool) (l : DecodeLatches)
    (q : IrqLine) (m : Memory) (p : Params) (n : Nat) (mr mw ir iw : Bool)

/-- The write set-up of a store or OUT. -/
theorem clock_xwAddr_store {op : Op} (hl : lookupOp p.opcodeMap l.opcode = some op) (hw : op = .stDi ∨ op =
    .stD16 ∨ op = .outPort)
    (mjr : MicroState) (tmp : List Byte) (k : Fin 4) :
    clock ⟨r, f, ⟨mar, mbr, dir, mr, mw, ir, iw⟩, l, ⟨.xwAddr k, mjr, false, tmp⟩, q, m, p, n⟩ =
    calmState r f (phys l.destSel l.destOff) r.al true l (.xwBus k) mjr tmp q m p n := by
  simp only [clock, transition, State.currentOp, hl]
  rcases hw with rfl | rfl | rfl <;> rfl

/-- The execute entry of a storing instruction is its first write. -/
theorem clock_execute_write {op : Op} (hl : lookupOp p.opcodeMap l.opcode = some op)
    {c : Category} (hw : c = .store ∨ c = .push ∨ c = .call) (mjr : MicroState) (tmp : List Byte) :
    clock ⟨r, f, ⟨mar, mbr, dir, mr, mw, ir, iw⟩, l, ⟨.execute c, mjr, false, tmp⟩, q, m, p, n⟩ =
    clock ⟨r, f, ⟨mar, mbr, dir, mr, mw, ir, iw⟩, l, ⟨.xwAddr 0, mjr, false, tmp⟩, q, m, p, n⟩ := by
  rcases hw with rfl | rfl | rfl <;>
    simp only [clock, transition, executeState, State.currentOp, hl, writeAddr, Bool.false_eq_true, if_false] <;>
    split <;> rfl

/-- The execute entry of a popping instruction is its first read. -/
theorem clock_execute_read {op : Op} (hl : lookupOp p.opcodeMap l.opcode = some op)
    {c : Category} (hw : c = .pop ∨ c = .ret ∨ c = .returnFromInterrupt) (mjr : MicroState) (tmp : List Byte) :
    clock ⟨r, f, ⟨mar, mbr, dir, mr, mw, ir, iw⟩, l, ⟨.execute c, mjr, false, tmp⟩, q, m, p, n⟩ =
    clock ⟨r, f, ⟨mar, mbr, dir, mr, mw, ir, iw⟩, l, ⟨.xrAddr 0, mjr, false, tmp⟩, q, m, p, n⟩ := by
  rcases hw with rfl | rfl | rfl <;> simp only [clock, transition, executeState, State.currentOp, hl] <;> rfl

/-- The execute entry of INT is interrupt entry. -/
theorem clock_execute_int {op : Op} (hl : lookupOp p.opcodeMap l.opcode =
    some op) (mjr : MicroState) (tmp : List Byte) :
    clock ⟨r, f, ⟨mar, mbr, dir, mr, mw, ir, iw⟩, l, ⟨.execute .softwareInterrupt, mjr, false, tmp⟩, q, m, p, n⟩ =
    clock ⟨r, f, ⟨mar, mbr, dir, mr, mw, ir, iw⟩, l, ⟨.intEntry .sw, mjr, false, tmp⟩, q, m, p, n⟩ := by
  simp only [clock, transition, executeState, State.currentOp, hl, intEntry, swapIfUser, Bool.false_eq_true, if_false]
  cases h : f.us <;> simp only [State.quiet, State.setBus, h] <;> rfl

theorem clocks_execute_stDi (hl : lookupOp p.opcodeMap l.opcode = some .stDi) (hq : q.ack = false)
    (t : State) (ht : t = calmState r f mar mbr dir l .fetchAddr (executeEntry .stDi) [] q m p n) :
    clocks (3 + if (act .stDi t).flags.ie && (act .stDi t).irq.pending then 25 else 0) (t.goto (executeEntry .stDi)) =
      boundaryCheck (act .stDi t) := by
  subst ht
  rw [show ∀ k, 3 + k = 2 + (1 + k) from fun k => by omega, clocks_add]
  simp only [clocks, State.goto, State.setMicro, executeEntry, categoryOf]
  rw [clock_execute_write _ _ _ _ _ _ _ _ _ _ _ _ _ _ hl (.inl rfl),
    clock_xwAddr_store _ _ _ _ _ _ _ _ _ _ _ _ _ _ hl (by simp), clock_xwBus _ _ _ _ _ _ _ _ _ _ _ _ hl]
  exact clocks_execEnd_star (op := .stDi) hl rfl rfl hq rfl

theorem clocks_execute_stD16 (hl : lookupOp p.opcodeMap l.opcode = some .stD16) (hq : q.ack = false)
    (t : State) (ht : t = calmState r f mar mbr dir l .fetchAddr (executeEntry .stD16) [] q m p n) :
    clocks (3 + if (act .stD16 t).flags.ie &&
        (act .stD16 t).irq.pending then 25 else 0) (t.goto (executeEntry .stD16)) =
      boundaryCheck (act .stD16 t) := by
  subst ht
  rw [show ∀ k, 3 + k = 2 + (1 + k) from fun k => by omega, clocks_add]
  simp only [clocks, State.goto, State.setMicro, executeEntry, categoryOf]
  rw [clock_execute_write _ _ _ _ _ _ _ _ _ _ _ _ _ _ hl (.inl rfl),
    clock_xwAddr_store _ _ _ _ _ _ _ _ _ _ _ _ _ _ hl (by simp), clock_xwBus _ _ _ _ _ _ _ _ _ _ _ _ hl]
  exact clocks_execEnd_star (op := .stD16) hl rfl rfl hq rfl

theorem clocks_execute_outPort (hl : lookupOp p.opcodeMap l.opcode = some .outPort) (hq : q.ack = false)
    (t : State) (ht : t = calmState r f mar mbr dir l .fetchAddr (executeEntry .outPort) [] q m p n) :
    clocks (3 + if (act .outPort t).flags.ie &&
        (act .outPort t).irq.pending then 25 else 0) (t.goto (executeEntry .outPort)) =
      boundaryCheck (act .outPort t) := by
  subst ht
  rw [show ∀ k, 3 + k = 2 + (1 + k) from fun k => by omega, clocks_add]
  simp only [clocks, State.goto, State.setMicro, executeEntry, categoryOf]
  rw [clock_execute_write _ _ _ _ _ _ _ _ _ _ _ _ _ _ hl (.inl rfl),
    clock_xwAddr_store _ _ _ _ _ _ _ _ _ _ _ _ _ _ hl (by simp), clock_xwBus _ _ _ _ _ _ _ _ _ _ _ _ hl]
  exact clocks_execEnd_star (op := .outPort) hl rfl rfl hq rfl

theorem clocks_execute_pushAl (hl : lookupOp p.opcodeMap l.opcode = some .pushAl) (hq : q.ack = false)
    (t : State) (ht : t = calmState r f mar mbr dir l .fetchAddr (executeEntry .pushAl) [] q m p n) :
    clocks (3 + if (act .pushAl t).flags.ie &&
        (act .pushAl t).irq.pending then 25 else 0) (t.goto (executeEntry .pushAl)) =
      boundaryCheck (act .pushAl t) := by
  subst ht
  rw [show ∀ k, 3 + k = 2 + (1 + k) from fun k => by omega, clocks_add]
  simp only [clocks, State.goto, State.setMicro, executeEntry, categoryOf]
  rw [clock_execute_write _ _ _ _ _ _ _ _ _ _ _ _ _ _ hl (.inr (.inl rfl))]
  rw [clock_xwAddr_push _ _ _ _ _ _ _ _ _ _ _ _ _ _ _ _ hl 0 (by simp), clock_xwBus _ _ _ _ _ _ _ _ _ _ _ _ hl 0]
  exact clocks_execEnd_star (op := .pushAl) hl rfl rfl hq rfl

theorem clocks_execute_call (hl : lookupOp p.opcodeMap l.opcode = some .call) (hq : q.ack = false)
    (t : State) (ht : t = calmState r f mar mbr dir l .fetchAddr (executeEntry .call) [] q m p n) :
    clocks (5 + if (act .call t).flags.ie && (act .call t).irq.pending then 25 else 0) (t.goto (executeEntry .call)) =
      boundaryCheck (act .call t) := by
  subst ht
  rw [show ∀ k, 5 + k = 4 + (1 + k) from fun k => by omega, clocks_add]
  simp only [clocks, State.goto, State.setMicro, executeEntry, categoryOf]
  rw [clock_execute_write _ _ _ _ _ _ _ _ _ _ _ _ _ _ hl (.inr (.inr rfl))]
  rw [clock_xwAddr_push _ _ _ _ _ _ _ _ _ _ _ _ _ _ _ _ hl 0 (by simp), clock_xwBus _ _ _ _ _ _ _ _ _ _ _ _ hl 0]
  change clocks _ (clock (clock (⟨_, _, _, _, ⟨.xwAddr 1, _, _, _⟩, _, _, _, _⟩))) = _
  rw [clock_xwAddr_push _ _ _ _ _ _ _ _ _ _ _ _ _ _ _ _ hl 1 (by simp), clock_xwBus _ _ _ _ _ _ _ _ _ _ _ _ hl 1]
  exact clocks_execEnd_star (op := .call) hl rfl rfl hq rfl

theorem clocks_execute_callf (hl : lookupOp p.opcodeMap l.opcode = some .callf) (hq : q.ack = false)
    (t : State) (ht : t = calmState r f mar mbr dir l .fetchAddr (executeEntry .callf) [] q m p n) :
    clocks (9 + if (act .callf t).flags.ie &&
        (act .callf t).irq.pending then 25 else 0) (t.goto (executeEntry .callf)) =
      boundaryCheck (act .callf t) := by
  subst ht
  rw [show ∀ k, 9 + k = 8 + (1 + k) from fun k => by omega, clocks_add]
  simp only [clocks, State.goto, State.setMicro, executeEntry, categoryOf]
  rw [clock_execute_write _ _ _ _ _ _ _ _ _ _ _ _ _ _ hl (.inr (.inr rfl))]
  rw [clock_xwAddr_push _ _ _ _ _ _ _ _ _ _ _ _ _ _ _ _ hl 0 (by simp), clock_xwBus _ _ _ _ _ _ _ _ _ _ _ _ hl 0]
  change clocks _ (clock (clock (clock (clock (clock (clock (⟨_, _, _, _, ⟨.xwAddr 1, _, _, _⟩, _, _, _, _⟩))))))) = _
  rw [clock_xwAddr_push _ _ _ _ _ _ _ _ _ _ _ _ _ _ _ _ hl 1 (by simp), clock_xwBus _ _ _ _ _ _ _ _ _ _ _ _ hl 1]
  change clocks _ (clock (clock (clock (clock (⟨_, _, _, _, ⟨.xwAddr 2, _, _, _⟩, _, _, _, _⟩))))) = _
  rw [clock_xwAddr_push _ _ _ _ _ _ _ _ _ _ _ _ _ _ _ _ hl 2 (by simp), clock_xwBus _ _ _ _ _ _ _ _ _ _ _ _ hl 2]
  change clocks _ (clock (clock (⟨_, _, _, _, ⟨.xwAddr 3, _, _, _⟩, _, _, _, _⟩))) = _
  rw [clock_xwAddr_push _ _ _ _ _ _ _ _ _ _ _ _ _ _ _ _ hl 3 (by simp), clock_xwBus _ _ _ _ _ _ _ _ _ _ _ _ hl 3]
  exact clocks_execEnd_star (op := .callf) hl rfl rfl hq rfl

theorem clocks_execute_popAl (hl : lookupOp p.opcodeMap l.opcode = some .popAl) (hq : q.ack = false)
    (t : State) (ht : t = calmState r f mar mbr dir l .fetchAddr (executeEntry .popAl) [] q m p n) :
    clocks (4 + if (act .popAl t).flags.ie &&
        (act .popAl t).irq.pending then 25 else 0) (t.goto (executeEntry .popAl)) =
      boundaryCheck (act .popAl t) := by
  subst ht
  rw [show ∀ k, 4 + k = 3 + (1 + k) from fun k => by omega, clocks_add]
  simp only [clocks, State.goto, State.setMicro, executeEntry, categoryOf]
  rw [clock_execute_read _ _ _ _ _ _ _ _ _ _ _ _ _ _ hl (.inl rfl)]
  rw [clock_xrAddr, clock_xrBus, clock_xrLatch _ _ _ _ _ _ _ _ _ _ _ _ _ _ _ _ hl 0]
  refine clocks_execEnd_star (op := .popAl) hl rfl rfl hq ?_
  simp only [act, actPopAl, pop8_parts]
  rfl

theorem clocks_execute_ret (hl : lookupOp p.opcodeMap l.opcode = some .ret) (hq : q.ack = false)
    (t : State) (ht : t = calmState r f mar mbr dir l .fetchAddr (executeEntry .ret) [] q m p n) :
    clocks (7 + if (act .ret t).flags.ie && (act .ret t).irq.pending then 25 else 0) (t.goto (executeEntry .ret)) =
      boundaryCheck (act .ret t) := by
  subst ht
  rw [show ∀ k, 7 + k = 6 + (1 + k) from fun k => by omega, clocks_add]
  simp only [clocks, State.goto, State.setMicro, executeEntry, categoryOf]
  rw [clock_execute_read _ _ _ _ _ _ _ _ _ _ _ _ _ _ hl (.inr (.inl rfl))]
  rw [clock_xrAddr, clock_xrBus, clock_xrLatch _ _ _ _ _ _ _ _ _ _ _ _ _ _ _ _ hl 0]
  change clocks _ (clock (clock (clock (⟨_, _, _, _, ⟨.xrAddr 1, _, _, _⟩, _, _, _, _⟩)))) = _
  rw [clock_xrAddr, clock_xrBus, clock_xrLatch _ _ _ _ _ _ _ _ _ _ _ _ _ _ _ _ hl 1]
  refine clocks_execEnd_star (op := .ret) hl rfl rfl hq ?_
  simp only [act, actRet, pop16, pop8_parts]
  rfl

theorem clocks_execute_retf (hl : lookupOp p.opcodeMap l.opcode = some .retf) (hq : q.ack = false)
    (t : State) (ht : t = calmState r f mar mbr dir l .fetchAddr (executeEntry .retf) [] q m p n) :
    clocks (13 + if (act .retf t).flags.ie && (act .retf t).irq.pending then 25 else 0) (t.goto (executeEntry .retf)) =
      boundaryCheck (act .retf t) := by
  subst ht
  rw [show ∀ k, 13 + k = 12 + (1 + k) from fun k => by omega, clocks_add]
  simp only [clocks, State.goto, State.setMicro, executeEntry, categoryOf]
  rw [clock_execute_read _ _ _ _ _ _ _ _ _ _ _ _ _ _ hl (.inr (.inl rfl))]
  rw [clock_xrAddr, clock_xrBus, clock_xrLatch _ _ _ _ _ _ _ _ _ _ _ _ _ _ _ _ hl 0]
  change clocks _ (clock (clock (clock (clock (clock (clock (clock (clock (clock (⟨_, _, _, _, ⟨.xrAddr 1, _, _, _⟩,
      _, _, _, _⟩)))))))))) = _
  rw [clock_xrAddr, clock_xrBus, clock_xrLatch _ _ _ _ _ _ _ _ _ _ _ _ _ _ _ _ hl 1]
  change clocks _ (clock (clock (clock (clock (clock (clock (⟨_, _, _, _, ⟨.xrAddr 2, _, _, _⟩, _, _, _, _⟩))))))) = _
  rw [clock_xrAddr, clock_xrBus, clock_xrLatch _ _ _ _ _ _ _ _ _ _ _ _ _ _ _ _ hl 2]
  change clocks _ (clock (clock (clock (⟨_, _, _, _, ⟨.xrAddr 3, _, _, _⟩, _, _, _, _⟩)))) = _
  rw [clock_xrAddr, clock_xrBus, clock_xrLatch _ _ _ _ _ _ _ _ _ _ _ _ _ _ _ _ hl 3]
  refine clocks_execEnd_star (op := .retf) hl rfl rfl hq ?_
  simp only [act, actRetf, pop16, pop8_parts]
  rfl

theorem clocks_execute_iret (hl : lookupOp p.opcodeMap l.opcode = some .iret) (hq : q.ack = false)
    (t : State) (ht : t = calmState r f mar mbr dir l .fetchAddr (executeEntry .iret) [] q m p n) :
    clocks (16 + if (act .iret t).flags.ie && (act .iret t).irq.pending then 25 else 0) (t.goto (executeEntry .iret)) =
      boundaryCheck (act .iret t) := by
  subst ht
  rw [show ∀ k, 16 + k = 15 + (1 + k) from fun k => by omega, clocks_add]
  simp only [clocks, State.goto, State.setMicro, executeEntry, categoryOf]
  rw [clock_execute_read _ _ _ _ _ _ _ _ _ _ _ _ _ _ hl (.inr (.inr rfl))]
  rw [clock_xrAddr, clock_xrBus, clock_xrLatch _ _ _ _ _ _ _ _ _ _ _ _ _ _ _ _ hl 0]
  change clocks _ (clock (clock (clock (clock (clock (clock (clock (clock (clock (clock (clock (clock (⟨_, _, _, _,
      ⟨.xrAddr 1, _, _, _⟩, _, _, _, _⟩))))))))))))) = _
  rw [clock_xrAddr, clock_xrBus, clock_xrLatch _ _ _ _ _ _ _ _ _ _ _ _ _ _ _ _ hl 1]
  change clocks _ (clock (clock (clock (clock (clock (clock (clock (clock (clock (⟨_, _, _, _, ⟨.xrAddr 2, _, _, _⟩,
      _, _, _, _⟩)))))))))) = _
  rw [clock_xrAddr, clock_xrBus, clock_xrLatch _ _ _ _ _ _ _ _ _ _ _ _ _ _ _ _ hl 2]
  change clocks _ (clock (clock (clock (clock (clock (clock (⟨_, _, _, _, ⟨.xrAddr 3, _, _, _⟩, _, _, _, _⟩))))))) = _
  rw [clock_xrAddr, clock_xrBus, clock_xrLatch _ _ _ _ _ _ _ _ _ _ _ _ _ _ _ _ hl 3]
  change clocks _ (clock (clock (clock (⟨_, _, _, _, ⟨.xrAddr 4, _, _, _⟩, _, _, _, _⟩)))) = _
  rw [clock_xrAddr, clock_xrBus, clock_xrLatch _ _ _ _ _ _ _ _ _ _ _ _ _ _ _ _ hl 4]
  refine clocks_execEnd_star (op := .iret) hl rfl rfl hq ?_
  simp only [act, returnFromInterrupt, pop16, pop8_parts]
  exact (swapIfUser_setMicro _ _).symm

end Execute

/-- The clocks of the execute phase and the boundary. -/
def execClocks : Op → Nat
  | .stDi | .stD16 | .outPort | .pushAl => 3
  | .call => 5
  | .callf => 9
  | .popAl => 4
  | .ret => 7
  | .retf => 13
  | .iret => 16
  | .intImm => 25
  | _ => 1

/-- A calm state at a fetch, with its parts written out. -/
theorem State.eq_calmState {t : State} {e : MicroState} (hc : t.calm) (hh : t.micro.halted = false)
    (ht : t.micro.tmp = [])
    (hs : t.micro.star = .fetchAddr) (hm : t.micro.mjr = e) :
    t = calmState t.regs t.flags t.bus.mar t.bus.mbr t.bus.dir t.latch .fetchAddr e [] t.irq t.mem t.params t.draws := by
  obtain ⟨r, f, ⟨mar, mbr, dir, a, b, c, d⟩, l, ⟨st, mjr, h, tm⟩, q, m, p, n⟩ := t
  obtain ⟨rfl, rfl, rfl, rfl⟩ := hc
  simp only at hh ht hs hm
  subst hh ht hs hm
  rfl

/-- The execute phase of every instruction but HLT, and the interrupt taken at its boundary. -/
theorem clocks_execute {t : State} {op : Op} (hc : t.calm) (ho : t.currentOp = some op) (hh : t.micro.halted = false)
    (ht : t.micro.tmp = []) (hq : t.irq.ack = false) (hs : t.micro.star = .fetchAddr) (hm : t.micro.mjr =
        executeEntry op)
    (hn : op ≠ .hlt) :
    clocks (execClocks op + if (act op t).flags.ie &&
        (act op t).irq.pending then 25 else 0) (t.goto (executeEntry op)) =
      boundaryCheck (act op t) := by
  have he := State.eq_calmState hc hh ht hs hm
  by_cases hp : popCount op = 0
  · by_cases hw : writeCount op = 0
    · by_cases hi : op = .intImm
      · subst hi
        have hb : boundaryCheck (act .intImm t) = act .intImm t := by simp [act, boundaryCheck, Flags.cleared]
        have hf : (act .intImm t).flags.ie = false := by simp [act, Flags.cleared]
        rw [hb, hf]
        obtain ⟨r, f, ⟨mar, mbr, dir, a, b, c, d⟩, l, ⟨st, mjr, h, tm⟩, q, m, p, n⟩ := t
        obtain ⟨rfl, rfl, rfl, rfl⟩ := hc
        simp only at hh ht hs hm
        subst hh ht hs hm
        refine Eq.trans ?_ (clocks_entry r f mar mbr dir l _ q m p n .sw hq)
        exact congrArg (clocks 24) (clock_execute_int _ _ _ _ _ _ _ _ _ _ _ _ _ _ ho _ _)
      · have h1 : execClocks op = 1 := by
          cases op <;> first | rfl | (exact absurd hp (by decide)) | (exact absurd hw (by decide)) | (exact absurd rfl hi)
        rw [h1]
        exact clocks_execute_simple hc ho hh ht hq hs hm hp hw hn hi
    · cases op <;> first
        | (exact absurd rfl hw)
        | exact clocks_execute_stDi _ _ _ _ _ _ _ _ _ _ ho hq t he
        | exact clocks_execute_stD16 _ _ _ _ _ _ _ _ _ _ ho hq t he
        | exact clocks_execute_outPort _ _ _ _ _ _ _ _ _ _ ho hq t he
        | exact clocks_execute_pushAl _ _ _ _ _ _ _ _ _ _ ho hq t he
        | exact clocks_execute_call _ _ _ _ _ _ _ _ _ _ ho hq t he
        | exact clocks_execute_callf _ _ _ _ _ _ _ _ _ _ ho hq t he
  · cases op <;> first
      | (exact absurd rfl hp)
      | exact clocks_execute_popAl _ _ _ _ _ _ _ _ _ _ ho hq t he
      | exact clocks_execute_ret _ _ _ _ _ _ _ _ _ _ ho hq t he
      | exact clocks_execute_retf _ _ _ _ _ _ _ _ _ _ ho hq t he
      | exact clocks_execute_iret _ _ _ _ _ _ _ _ _ _ ho hq t he

/-- Code reads leave no strobe asserted. -/
theorem fetchBytes_calm (k : Nat) (s : State) (h : s.calm) : (fetchBytes k s).2.calm := by
  induction k generalizing s with
  | zero => exact h
  | succ k ih => exact ih _ (by simp [fetchCode8_parts, State.calm])

/-- What an operand phase leaves alone. -/
theorem operandPhase_frame (i : Instr) {s : State} (h : s.calm) :
    (operandPhase i s).calm ∧ (operandPhase i s).micro = s.micro ∧ (operandPhase i s).irq = s.irq
      ∧ (operandPhase i s).latch.opcode = s.latch.opcode ∧ (operandPhase i s).params = s.params := by
  cases i <;> simp [operandPhase, operandDi, operandDestDi, operandImm, operandD16, operandInPort, operandDestD16,
    operandOutPort, operandNear, operandFar, readEffective, State.calm, readCycle_parts] <;> exact h

/-- Only HLT halts. -/
theorem effect_halted {i : Instr} (hn : i.op ≠ .hlt) (s : State) : (effect i s).micro.halted = s.micro.halted := by
  cases i <;> first
    | (exact absurd rfl hn)
    | (simp [effect]; done)
    | (simp [effect, aluWrite, actLoad, actAdd, actSub, actAnd, actOr, actCmp, actNot, actShl, actSal, actShr,
        actSar, actStore,
        actMovAlAh, actMovAhAl, actMovAxDs, actMovAxSs, actMovAxSp, actMovAxDi, actMovDsAx, actMovSsAx, actMovSpAx,
        actMovDiAx, actMovCsAx, actPushAl, actPopAl, actRet, actRetf, actSetIf, actStum, actCall, actJmpf,
        actCallf, returnFromInterrupt, operandDestDi, operandDestD16, operandOutPort, operandNear, operandFar]; done)
    | (simp only [effect, actJump, operandNear]; split <;> rfl)

end Sys2Proof.Machine
end

