-- ==== Sys2Proof/Laws/PerInstr.lean ====
section
/-! SUPPORT. Per instruction: its operand bytes are as many as its format's, and they read back as the same
instruction (30_encoding.md R132 to R137). -/

namespace Sys2Proof.Laws.OperandRoundTrip

open Sys2Proof

/-- The operand bytes of an instruction, under either far pointer layout, have its format's length and
assemble to the instruction again. -/
def Statement (i : Instr) : Prop :=
  ∀ far : FarPtrLayout, (i.operands far).length = i.op.fmt.operandBytes
    ∧ assemble far i.op ((i.operands far).getD 0 0) ((i.operands far).getD 1 0) ((i.operands far).getD 2 0)
        ((i.operands far).getD 3 0) = i

theorem nop : Statement .nop := fun _ => ⟨rfl, rfl⟩
theorem hlt : Statement .hlt := fun _ => ⟨rfl, rfl⟩
theorem movAlAh : Statement .movAlAh := fun _ => ⟨rfl, rfl⟩
theorem movAhAl : Statement .movAhAl := fun _ => ⟨rfl, rfl⟩
theorem movAxDs : Statement .movAxDs := fun _ => ⟨rfl, rfl⟩
theorem movAxSs : Statement .movAxSs := fun _ => ⟨rfl, rfl⟩
theorem movAxSp : Statement .movAxSp := fun _ => ⟨rfl, rfl⟩
theorem movAxDi : Statement .movAxDi := fun _ => ⟨rfl, rfl⟩
theorem movDsAx : Statement .movDsAx := fun _ => ⟨rfl, rfl⟩
theorem movSsAx : Statement .movSsAx := fun _ => ⟨rfl, rfl⟩
theorem movSpAx : Statement .movSpAx := fun _ => ⟨rfl, rfl⟩
theorem movDiAx : Statement .movDiAx := fun _ => ⟨rfl, rfl⟩
theorem movCsAx : Statement .movCsAx := fun _ => ⟨rfl, rfl⟩
theorem pushAl : Statement .pushAl := fun _ => ⟨rfl, rfl⟩
theorem popAl : Statement .popAl := fun _ => ⟨rfl, rfl⟩
theorem notAl : Statement .notAl := fun _ => ⟨rfl, rfl⟩
theorem shl : Statement .shl := fun _ => ⟨rfl, rfl⟩
theorem sal : Statement .sal := fun _ => ⟨rfl, rfl⟩
theorem shr : Statement .shr := fun _ => ⟨rfl, rfl⟩
theorem sar : Statement .sar := fun _ => ⟨rfl, rfl⟩
theorem ret : Statement .ret := fun _ => ⟨rfl, rfl⟩
theorem retf : Statement .retf := fun _ => ⟨rfl, rfl⟩
theorem iret : Statement .iret := fun _ => ⟨rfl, rfl⟩
theorem cli : Statement .cli := fun _ => ⟨rfl, rfl⟩
theorem sti : Statement .sti := fun _ => ⟨rfl, rfl⟩
theorem ldpsr : Statement .ldpsr := fun _ => ⟨rfl, rfl⟩
theorem stum : Statement .stum := fun _ => ⟨rfl, rfl⟩
theorem ldDi : Statement .ldDi := fun _ => ⟨rfl, rfl⟩
theorem addDi : Statement .addDi := fun _ => ⟨rfl, rfl⟩
theorem subDi : Statement .subDi := fun _ => ⟨rfl, rfl⟩
theorem andDi : Statement .andDi := fun _ => ⟨rfl, rfl⟩
theorem orDi : Statement .orDi := fun _ => ⟨rfl, rfl⟩
theorem cmpDi : Statement .cmpDi := fun _ => ⟨rfl, rfl⟩
theorem stDi : Statement .stDi := fun _ => ⟨rfl, rfl⟩
theorem ldImm (v : Byte) : Statement (.ldImm v) := fun _ => ⟨rfl, rfl⟩
theorem addImm (v : Byte) : Statement (.addImm v) := fun _ => ⟨rfl, rfl⟩
theorem subImm (v : Byte) : Statement (.subImm v) := fun _ => ⟨rfl, rfl⟩
theorem andImm (v : Byte) : Statement (.andImm v) := fun _ => ⟨rfl, rfl⟩
theorem orImm (v : Byte) : Statement (.orImm v) := fun _ => ⟨rfl, rfl⟩
theorem cmpImm (v : Byte) : Statement (.cmpImm v) := fun _ => ⟨rfl, rfl⟩
theorem intImm (v : Byte) : Statement (.intImm v) := fun _ => ⟨rfl, rfl⟩
theorem ldD16 (v : Word) : Statement (.ldD16 v) := fun _ => ⟨rfl, congrArg _ (Machine.joinBytes_hi_lo v)⟩
theorem addD16 (v : Word) : Statement (.addD16 v) := fun _ => ⟨rfl, congrArg _ (Machine.joinBytes_hi_lo v)⟩
theorem subD16 (v : Word) : Statement (.subD16 v) := fun _ => ⟨rfl, congrArg _ (Machine.joinBytes_hi_lo v)⟩
theorem andD16 (v : Word) : Statement (.andD16 v) := fun _ => ⟨rfl, congrArg _ (Machine.joinBytes_hi_lo v)⟩
theorem orD16 (v : Word) : Statement (.orD16 v) := fun _ => ⟨rfl, congrArg _ (Machine.joinBytes_hi_lo v)⟩
theorem cmpD16 (v : Word) : Statement (.cmpD16 v) := fun _ => ⟨rfl, congrArg _ (Machine.joinBytes_hi_lo v)⟩
theorem inPort (v : Word) : Statement (.inPort v) := fun _ => ⟨rfl, congrArg _ (Machine.joinBytes_hi_lo v)⟩
theorem stD16 (v : Word) : Statement (.stD16 v) := fun _ => ⟨rfl, congrArg _ (Machine.joinBytes_hi_lo v)⟩
theorem outPort (v : Word) : Statement (.outPort v) := fun _ => ⟨rfl, congrArg _ (Machine.joinBytes_hi_lo v)⟩
theorem jmp (v : Word) : Statement (.jmp v) := fun _ => ⟨rfl, congrArg _ (Machine.joinBytes_hi_lo v)⟩
theorem je (v : Word) : Statement (.je v) := fun _ => ⟨rfl, congrArg _ (Machine.joinBytes_hi_lo v)⟩
theorem jne (v : Word) : Statement (.jne v) := fun _ => ⟨rfl, congrArg _ (Machine.joinBytes_hi_lo v)⟩
theorem ja (v : Word) : Statement (.ja v) := fun _ => ⟨rfl, congrArg _ (Machine.joinBytes_hi_lo v)⟩
theorem jae (v : Word) : Statement (.jae v) := fun _ => ⟨rfl, congrArg _ (Machine.joinBytes_hi_lo v)⟩
theorem jb (v : Word) : Statement (.jb v) := fun _ => ⟨rfl, congrArg _ (Machine.joinBytes_hi_lo v)⟩
theorem jbe (v : Word) : Statement (.jbe v) := fun _ => ⟨rfl, congrArg _ (Machine.joinBytes_hi_lo v)⟩
theorem jg (v : Word) : Statement (.jg v) := fun _ => ⟨rfl, congrArg _ (Machine.joinBytes_hi_lo v)⟩
theorem jge (v : Word) : Statement (.jge v) := fun _ => ⟨rfl, congrArg _ (Machine.joinBytes_hi_lo v)⟩
theorem jl (v : Word) : Statement (.jl v) := fun _ => ⟨rfl, congrArg _ (Machine.joinBytes_hi_lo v)⟩
theorem jle (v : Word) : Statement (.jle v) := fun _ => ⟨rfl, congrArg _ (Machine.joinBytes_hi_lo v)⟩
theorem jo (v : Word) : Statement (.jo v) := fun _ => ⟨rfl, congrArg _ (Machine.joinBytes_hi_lo v)⟩
theorem jno (v : Word) : Statement (.jno v) := fun _ => ⟨rfl, congrArg _ (Machine.joinBytes_hi_lo v)⟩
theorem js (v : Word) : Statement (.js v) := fun _ => ⟨rfl, congrArg _ (Machine.joinBytes_hi_lo v)⟩
theorem jns (v : Word) : Statement (.jns v) := fun _ => ⟨rfl, congrArg _ (Machine.joinBytes_hi_lo v)⟩
theorem call (v : Word) : Statement (.call v) := fun _ => ⟨rfl, congrArg _ (Machine.joinBytes_hi_lo v)⟩
theorem jmpf (sel off : Word) : Statement (.jmpf sel off) := fun far => by
  cases far <;> exact ⟨rfl, congrArg₂ _ (Machine.joinBytes_hi_lo sel) (Machine.joinBytes_hi_lo off)⟩
theorem callf (sel off : Word) : Statement (.callf sel off) := fun far => by
  cases far <;> exact ⟨rfl, congrArg₂ _ (Machine.joinBytes_hi_lo sel) (Machine.joinBytes_hi_lo off)⟩

end Sys2Proof.Laws.OperandRoundTrip
end

