-- ==== Sys2Proof/Machine/Assembler.lean ====
section
/-! DEFINITION. The assembler's reading of program text (30_encoding.md R138, R147, R148): statements, labels,
numbers and the syntax column of R140. It is a tool beside the machine; no step uses it. -/

namespace Sys2Proof.Machine

open Sys2Proof

/-! ### Characters and numbers -/

/-- Split at every character a predicate holds of. -/
def splitChars (sep : Char → Bool) : List Char → List (List Char)
  | [] => [[]]
  | c :: cs =>
    let rest := splitChars sep cs
    if sep c then [] :: rest else (c :: rest.headD []) :: rest.tail

/-- A text without the blanks at its two ends. -/
def trimChars (cs : List Char) : List Char :=
  ((cs.dropWhile (· == ' ')).reverse.dropWhile (· == ' ')).reverse

/-- A character of a number or a label. -/
def isWordChar (c : Char) : Bool := c.isAlphanum || c == '_'

/-- The value of a digit; hexadecimal ones in either case (log 25). -/
def digitOf (c : Char) : Option Nat :=
  if c.isDigit then some (c.toNat - 48)
  else if 97 ≤ c.toNat ∧ c.toNat ≤ 102 then some (c.toNat - 87)
  else if 65 ≤ c.toNat ∧ c.toNat ≤ 70 then some (c.toNat - 55)
  else none

/-- A number's digits in a base, the first the most significant. -/
def parseDigits (base : Nat) : List Char → Nat → Option Nat
  | [], acc => some acc
  | c :: cs, acc =>
    match digitOf c with
    | none => none
    | some d => if d < base then parseDigits base cs (base * acc + d) else none

/-- A number: decimal, or hexadecimal after `0x` (R147). -/
def parseNumber : List Char → Option Nat
  | [] => none
  | ['0', 'x'] => none
  | '0' :: 'x' :: ds => parseDigits 16 ds 0
  | ds => parseDigits 10 ds 0

/-! ### Statements -/

/-- The operand names of the syntax column of R140. -/
def operandNames : List (List Char) :=
  ["imm8".toList, "addr16".toList, "port16".toList, "off16".toList, "sel16".toList]

/-- Read a text by a spelling of the syntax column: the words that stand for its operands, in order. `fuel`
bounds the steps by the spelling's length. -/
def matchSyntax : Nat → List Char → List Char → Option (List (List Char))
  | 0, _, _ => none
  | _ + 1, [], text => if text.isEmpty then some [] else none
  | fuel + 1, c :: spelling, text =>
    match operandNames.find? fun n => n.isPrefixOf (c :: spelling) with
    | some n =>
      let word := text.takeWhile isWordChar
      if word.isEmpty then none
      else (matchSyntax fuel ((c :: spelling).drop n.length) (text.drop word.length)).map (word :: ·)
    | none => if text.head? = some c then matchSyntax fuel spelling text.tail else none

/-- Every spelling with its instruction: the syntax column, and the three aliases in place of their base
(R147, R148). -/
def spellings : List (List Char × Op) :=
  Op.all.map (fun op => (op.asmSyntax.toList, op))
    ++ asmAliases.map fun a => ((a.1 ++ " off16").toList, a.2)

/-- One statement: its instruction's name and its operand words. -/
def parseStatement (text : List Char) : Option (Op × List (List Char)) :=
  spellings.findSome? fun sp => (matchSyntax (sp.1.length + 1) sp.1 text).map fun words => (sp.2, words)

/-- A piece of program text between two separators: its label, if it starts with one, and its statement. A
label is a word and a colon before the instruction (log 22). -/
def parseLabelled (text : List Char) : Option (List Char) × List Char :=
  let t := trimChars text
  let word := t.takeWhile isWordChar
  match word, t.drop word.length with
  | _ :: _, ':' :: rest => (some word, trimChars rest)
  | _, _ => (none, t)

/-! ### Programs -/

/-- The instruction of a name and its operand values; `none` where a value does not fit its field. -/
def buildInstr (op : Op) (values : List Nat) : Option Instr :=
  let lo := fun n : Nat => BitVec.ofNat 8 n
  let hi := fun n : Nat => BitVec.ofNat 8 (n / 256)
  match op.fmt, values with
  | .f3, [v] => if v < 256 then some (assemble .offsetFirst op (lo v) 0 0 0) else none
  | .f4, [v] | .f5, [v] | .f6, [v] => if v < 65536 then some (assemble .offsetFirst op (lo v) (hi v) 0 0) else none
  | .f7, [sel, off] =>
    if sel < 65536 ∧ off < 65536 then some (assemble .offsetFirst op (lo off) (hi off) (lo sel) (hi sel)) else none
  | .f0, [] | .f1, [] | .f2, [] => some (assemble .offsetFirst op 0 0 0 0)
  | _, _ => none

/-- The value of an operand word: a number, or, for a near target, a label's offset (R138, R147). A label that is
defined twice names its first definition, and a word that reads as a number is one even if a label is spelled
so; R147 settles neither: the model's choices (log 25). -/
def operandValue (labels : List (List Char × Nat)) (op : Op) (word : List Char) : Option Nat :=
  match parseNumber word with
  | some n => some n
  | none => if op.fmt = .f6 then labels.lookup word else none

/-- The first pass: the statements in order, and each label with the offset of the instruction that follows
it, the first at `off` (R147). Empty statements are skipped, and offsets wrap at 65536 (log 25). -/
def firstPass (off : Nat) : List (List Char) → Option (List (Op × List (List Char)) × List (List Char × Nat))
  | [] => some ([], [])
  | piece :: pieces =>
    let l := parseLabelled piece
    let mark := l.1.toList.map fun name => (name, off % 65536)
    if l.2.isEmpty then (firstPass off pieces).map fun r => (r.1, mark ++ r.2)
    else
      match parseStatement l.2 with
      | none => none
      | some st =>
        (firstPass (off + 1 + st.1.fmt.operandBytes) pieces).map fun r => (st :: r.1, mark ++ r.2)

/-- The instructions of a program text whose first instruction stands at offset `origin` of its code segment;
statements are separated by newlines or semicolons (R147). -/
def parseProgram (origin : Nat) (text : List Char) : Option (List Instr) :=
  (firstPass origin (splitChars (fun c => c == '\n' || c == ';') text)).bind fun r =>
    r.1.mapM fun st => (st.2.mapM (operandValue r.2 st.1)).bind (buildInstr st.1)

/-- The bytes of a program text, a program image (R117). -/
def assembleProgram (p : Params) (origin : Nat) (text : List Char) : Option (List Byte) :=
  (parseProgram origin text).map fun is => is.flatMap (encode p)

end Sys2Proof.Machine
end

