-- ==== Sys2Proof/Tests/Slice0.lean ====
section
/-! SUPPORT. The model's own tests: the decoding of every constructor from a word written out from the spec's
encoding (30_encoding.md R132, R136, R137, R140), one or two steps per instruction from the vectors of
95_test_vectors.md, an ill-formed term for each check of WellFormed.lean, and a witness for the hypotheses of
every statement that has some. Expected results come from the spec's tables, not from the model. -/

namespace Sys2Proof.Tests

open Sys2Proof Sys2Proof.Machine

/-! ### Decoding: opcode byte in binary (format bits, then the low five), operand bytes above it -/
theorem test_decode_nop : decodeTableWord 8 (0b00000000) = some .nop := by decide
theorem test_decode_hlt : decodeTableWord 8 (0b00000001) = some .hlt := by decide
theorem test_decode_movAlAh : decodeTableWord 8 (0b00000010) = some .movAlAh := by decide
theorem test_decode_movAhAl : decodeTableWord 8 (0b00000011) = some .movAhAl := by decide
theorem test_decode_movAxDs : decodeTableWord 8 (0b00000100) = some .movAxDs := by decide
theorem test_decode_movAxSs : decodeTableWord 8 (0b00000101) = some .movAxSs := by decide
theorem test_decode_movAxSp : decodeTableWord 8 (0b00000110) = some .movAxSp := by decide
theorem test_decode_movAxDi : decodeTableWord 8 (0b00000111) = some .movAxDi := by decide
theorem test_decode_movDsAx : decodeTableWord 8 (0b00001000) = some .movDsAx := by decide
theorem test_decode_movSsAx : decodeTableWord 8 (0b00001001) = some .movSsAx := by decide
theorem test_decode_movSpAx : decodeTableWord 8 (0b00001010) = some .movSpAx := by decide
theorem test_decode_movDiAx : decodeTableWord 8 (0b00001011) = some .movDiAx := by decide
theorem test_decode_movCsAx : decodeTableWord 8 (0b00001100) = some .movCsAx := by decide
theorem test_decode_pushAl : decodeTableWord 8 (0b00001101) = some .pushAl := by decide
theorem test_decode_popAl : decodeTableWord 8 (0b00001110) = some .popAl := by decide
theorem test_decode_notAl : decodeTableWord 8 (0b00001111) = some .notAl := by decide
theorem test_decode_shl : decodeTableWord 8 (0b00010000) = some .shl := by decide
theorem test_decode_sal : decodeTableWord 8 (0b00010001) = some .sal := by decide
theorem test_decode_shr : decodeTableWord 8 (0b00010010) = some .shr := by decide
theorem test_decode_sar : decodeTableWord 8 (0b00010011) = some .sar := by decide
theorem test_decode_ret : decodeTableWord 8 (0b00010100) = some .ret := by decide
theorem test_decode_retf : decodeTableWord 8 (0b00010101) = some .retf := by decide
theorem test_decode_iret : decodeTableWord 8 (0b00010110) = some .iret := by decide
theorem test_decode_cli : decodeTableWord 8 (0b00010111) = some .cli := by decide
theorem test_decode_sti : decodeTableWord 8 (0b00011000) = some .sti := by decide
theorem test_decode_ldpsr : decodeTableWord 8 (0b00011001) = some .ldpsr := by decide
theorem test_decode_stum : decodeTableWord 8 (0b00011010) = some .stum := by decide
theorem test_decode_ldDi : decodeTableWord 8 (0b00100000) = some .ldDi := by decide
theorem test_decode_addDi : decodeTableWord 8 (0b00100001) = some .addDi := by decide
theorem test_decode_subDi : decodeTableWord 8 (0b00100010) = some .subDi := by decide
theorem test_decode_andDi : decodeTableWord 8 (0b00100011) = some .andDi := by decide
theorem test_decode_orDi : decodeTableWord 8 (0b00100100) = some .orDi := by decide
theorem test_decode_cmpDi : decodeTableWord 8 (0b00100101) = some .cmpDi := by decide
theorem test_decode_stDi : decodeTableWord 8 (0b01000000) = some .stDi := by decide
theorem test_decode_ldImm : decodeTableWord 16 (0x5A00 + 0b01100000) = some (.ldImm 0x5A) := by decide
theorem test_decode_addImm : decodeTableWord 16 (0x5A00 + 0b01100001) = some (.addImm 0x5A) := by decide
theorem test_decode_subImm : decodeTableWord 16 (0x5A00 + 0b01100010) = some (.subImm 0x5A) := by decide
theorem test_decode_andImm : decodeTableWord 16 (0x5A00 + 0b01100011) = some (.andImm 0x5A) := by decide
theorem test_decode_orImm : decodeTableWord 16 (0x5A00 + 0b01100100) = some (.orImm 0x5A) := by decide
theorem test_decode_cmpImm : decodeTableWord 16 (0x5A00 + 0b01100101) = some (.cmpImm 0x5A) := by decide
theorem test_decode_intImm : decodeTableWord 16 (0x5A00 + 0b01100110) = some (.intImm 0x5A) := by decide
theorem test_decode_ldD16 : decodeTableWord 24 (0x123400 + 0b10000000) = some (.ldD16 0x1234) := by decide
theorem test_decode_addD16 : decodeTableWord 24 (0x123400 + 0b10000001) = some (.addD16 0x1234) := by decide
theorem test_decode_subD16 : decodeTableWord 24 (0x123400 + 0b10000010) = some (.subD16 0x1234) := by decide
theorem test_decode_andD16 : decodeTableWord 24 (0x123400 + 0b10000011) = some (.andD16 0x1234) := by decide
theorem test_decode_orD16 : decodeTableWord 24 (0x123400 + 0b10000100) = some (.orD16 0x1234) := by decide
theorem test_decode_cmpD16 : decodeTableWord 24 (0x123400 + 0b10000101) = some (.cmpD16 0x1234) := by decide
theorem test_decode_inPort : decodeTableWord 24 (0x123400 + 0b10000110) = some (.inPort 0x1234) := by decide
theorem test_decode_stD16 : decodeTableWord 24 (0x123400 + 0b10100000) = some (.stD16 0x1234) := by decide
theorem test_decode_outPort : decodeTableWord 24 (0x123400 + 0b10100001) = some (.outPort 0x1234) := by decide
theorem test_decode_jmp : decodeTableWord 24 (0x123400 + 0b11000000) = some (.jmp 0x1234) := by decide
theorem test_decode_je : decodeTableWord 24 (0x123400 + 0b11000001) = some (.je 0x1234) := by decide
theorem test_decode_jne : decodeTableWord 24 (0x123400 + 0b11000010) = some (.jne 0x1234) := by decide
theorem test_decode_ja : decodeTableWord 24 (0x123400 + 0b11000011) = some (.ja 0x1234) := by decide
theorem test_decode_jae : decodeTableWord 24 (0x123400 + 0b11000100) = some (.jae 0x1234) := by decide
theorem test_decode_jb : decodeTableWord 24 (0x123400 + 0b11000101) = some (.jb 0x1234) := by decide
theorem test_decode_jbe : decodeTableWord 24 (0x123400 + 0b11000110) = some (.jbe 0x1234) := by decide
theorem test_decode_jg : decodeTableWord 24 (0x123400 + 0b11000111) = some (.jg 0x1234) := by decide
theorem test_decode_jge : decodeTableWord 24 (0x123400 + 0b11001000) = some (.jge 0x1234) := by decide
theorem test_decode_jl : decodeTableWord 24 (0x123400 + 0b11001001) = some (.jl 0x1234) := by decide
theorem test_decode_jle : decodeTableWord 24 (0x123400 + 0b11001010) = some (.jle 0x1234) := by decide
theorem test_decode_jo : decodeTableWord 24 (0x123400 + 0b11001011) = some (.jo 0x1234) := by decide
theorem test_decode_jno : decodeTableWord 24 (0x123400 + 0b11001100) = some (.jno 0x1234) := by decide
theorem test_decode_js : decodeTableWord 24 (0x123400 + 0b11001101) = some (.js 0x1234) := by decide
theorem test_decode_jns : decodeTableWord 24 (0x123400 + 0b11001110) = some (.jns 0x1234) := by decide
theorem test_decode_call : decodeTableWord 24 (0x123400 + 0b11001111) = some (.call 0x1234) := by decide
theorem test_decode_jmpf : decodeTableWord 40 (0xABCD123400 + 0b11100000) = some (.jmpf 0xABCD 0x1234) := by decide
theorem test_decode_callf : decodeTableWord 40 (0xABCD123400 + 0b11100001) = some (.callf 0xABCD 0x1234) := by decide

/-- 0x1B, the first invalid byte (R143). -/
theorem test_decode_invalid : decodeTableWord 8 0x1B = none := by decide

/-- The other FAR_PTR_LAYOUT: `E0 00 F0 00 01` is F000:0100 (95_test_vectors.md 2.6). -/
theorem test_decode_selectorFirst :
    decode { defaultParams with farPtrLayout := .selectorFirst } [0xE0, 0x00, 0xF0, 0x00, 0x01] =
      .ok (.jmpf 0xF000 0x0100, []) := by rfl

/-- Four bytes of a five-byte instruction (R146). -/
theorem test_decode_truncated : decode defaultParams [0xE0, 0, 0, 0] = .error .truncated := by rfl

/-- S1 of 95_test_vectors.md: the opcode table's names. -/
theorem test_mnemonics : toMnemonic defaultOpcodeMap 0x66 = "INT" ∧ fromMnemonic defaultOpcodeMap "INT" = some 0x66
    ∧ toMnemonic defaultOpcodeMap 0x1B = "unknown" ∧ fromMnemonic defaultOpcodeMap "XOR" = none := by decide

/-! ### Well-formedness: each check refuses an ill-formed term -/

theorem test_wf_params : defaultParams.wf = true := by decide
theorem test_wf_vectorLayout : VectorLayout.wf ⟨0, 0, 2, 3⟩ = false := by decide
theorem test_wf_flagsLayout : FlagsLayout.wf ⟨0, 1, 2, 3, 4, 0⟩ = false := by decide
theorem test_wf_opcodeMap_missing : opcodeMapWf (defaultOpcodeMap.drop 1) = false := by decide
theorem test_wf_opcodeMap_twoBytes : opcodeMapWf ((.nop, 0x1F) :: defaultOpcodeMap) = false := by decide
theorem test_wf_opcodeMap_shared : opcodeMapWf ((.nop, 0x01) :: defaultOpcodeMap.drop 1) = false := by decide
theorem test_wf_privSet_ldpsr : privSetWf [.stum] = false := by decide
theorem test_wf_privSet_stum : privSetWf [.ldpsr] = false := by decide
theorem test_wf_params_vector : Params.wf { defaultParams with vectorLayout := ⟨0, 1, 1, 3⟩ } = false := by decide
theorem test_wf_params_flags : Params.wf { defaultParams with flagsLayout := ⟨0, 1, 2, 3, 4, 4⟩ } = false := by decide
theorem test_wf_params_map : Params.wf { defaultParams with opcodeMap := [] } = false := by decide
theorem test_wf_params_priv : Params.wf { defaultParams with privSet := [] } = false := by decide
theorem test_wf_instr : Instr.wf { defaultParams with opcodeMap := defaultOpcodeMap.drop 1 } .nop = false := by decide
theorem test_wf_instr_shadowed :
    Instr.wf { defaultParams with opcodeMap := (.nop, 0x01) :: defaultOpcodeMap.drop 1 } .hlt = false := by decide
theorem test_wf_device_range : Device.wf ⟨5, 4, true, true, false, []⟩ = false := by decide
theorem test_wf_device_bits : Device.wf ⟨0, 2 ^ 32, true, true, false, []⟩ = false := by decide
theorem test_wf_device_order : Device.wf ⟨0, 9, true, true, false, [(2, 0), (1, 0)]⟩ = false := by decide
theorem test_wf_device_cells : Device.wf ⟨0, 9, true, true, false, [(10, 0)]⟩ = false := by decide
theorem test_wf_memory : Memory.wf [rom, ⟨5, 4, true, true, false, []⟩] = false := by decide

/-! ### One step: helpers -/

/-- Registers of the tests: AX = 0x3412, SS:SP = 0000:0800, DS:DI = 0000:0100, IP past the instruction. -/
def regs : Regs := ⟨0x12, 0x34, 0, 0, 0x0800, 0x0100, 0xF000, 0x0013, 0, 0x0400⟩

/-- No flag set but CF, OF and US as given. -/
def flagsWith (cf ovf us : Bool) : Flags := ⟨cf, false, false, ovf, false, us⟩

/-- The default platform with the given registers, flags and bytes of RAM0 and RAM1. -/
def machine (r : Regs) (f : Flags) (low : List Host.Cell) (high : List Host.Cell) : State :=
  { State.reset with regs := r, flags := f, mem := [rom, { ram0 with cells := low }, ioRegion, { ram1 with cells := high }] }

/-- AL as given, no flag set, a byte at DS:DI and at DS:0x0200. -/
def alu (al b : Byte) : State := machine { regs with al := al } Flags.cleared [(0x100, b), (0x200, b)] []

/-- The same with CF and OF set. -/
def aluSet (al b : Byte) : State := machine { regs with al := al } (flagsWith true true false) [(0x100, b), (0x200, b)] []

def regsOf (r : Result) : Option Regs :=
  match r with
  | .next t => some t.regs
  | .fault _ => none
  | .refused _ => none

def flagsOf (r : Result) : Option Flags :=
  match r with
  | .next t => some t.flags
  | .fault _ => none
  | .refused _ => none

/-- AL and CF, ZF, SF, OF. -/
def aluOf (r : Result) : Option (Byte × Bool × Bool × Bool × Bool) :=
  match r with
  | .next t => some (t.regs.al, t.flags.cf, t.flags.zf, t.flags.sf, t.flags.ovf)
  | .fault _ => none
  | .refused _ => none

/-- The listed cells of a device. -/
def cellsOf (dev : Nat) (r : Result) : Option (List Host.Cell) :=
  match r with
  | .next t => (t.mem[dev]?).map (·.cells)
  | .fault _ => none
  | .refused _ => none

/-- The state after, for a second instruction. -/
def andThen (r : Result) (k : State → Result) : Result :=
  match r with
  | .next t => k t
  | .fault e => .fault e
  | .refused e => .refused e

/-! ### Moves, loads, stores, I/O (95_test_vectors.md 2.4) -/
theorem test_movAlAh : regsOf (exec .movAlAh (machine regs Flags.cleared [] [])) = some { regs with ah := 0x12 } := by
  decide
theorem test_movAhAl : regsOf (exec .movAhAl (machine regs Flags.cleared [] [])) = some { regs with al := 0x34 } := by
  decide
theorem test_movAxDs :
    regsOf (exec .movAxDs (machine regs Flags.cleared [] [])) = some { regs with ds := 0x3412 } := by
  decide
theorem test_movAxSs :
    regsOf (exec .movAxSs (machine regs Flags.cleared [] [])) = some { regs with ss := 0x3412 } := by
  decide
theorem test_movAxSp :
    regsOf (exec .movAxSp (machine regs Flags.cleared [] [])) = some { regs with sp := 0x3412 } := by
  decide
theorem test_movAxDi :
    regsOf (exec .movAxDi (machine regs Flags.cleared [] [])) = some { regs with di := 0x3412 } := by
  decide
theorem test_movDsAx : regsOf (exec .movDsAx (machine { regs with ds := 0xABCD } Flags.cleared [] [])) =
    some { regs with ds := 0xABCD, ah := 0xAB, al := 0xCD } := by decide
theorem test_movSsAx : regsOf (exec .movSsAx (machine { regs with ss := 0xABCD } Flags.cleared [] [])) =
    some { regs with ss := 0xABCD, ah := 0xAB, al := 0xCD } := by decide
theorem test_movSpAx : regsOf (exec .movSpAx (machine { regs with sp := 0xABCD } Flags.cleared [] [])) =
    some { regs with sp := 0xABCD, ah := 0xAB, al := 0xCD } := by decide
theorem test_movDiAx : regsOf (exec .movDiAx (machine { regs with di := 0xABCD } Flags.cleared [] [])) =
    some { regs with di := 0xABCD, ah := 0xAB, al := 0xCD } := by decide
theorem test_movCsAx : regsOf (exec .movCsAx (machine { regs with cs := 0xABCD } Flags.cleared [] [])) =
    some { regs with cs := 0xABCD, ah := 0xAB, al := 0xCD } := by decide
theorem test_ldDi : regsOf (exec .ldDi (alu 0 0x99)) = some { regs with al := 0x99 } := by decide
theorem test_ldImm : regsOf (exec (.ldImm 0x80) (alu 0 0)) = some { regs with al := 0x80 } := by decide
theorem test_ldD16 :
    regsOf (exec (.ldD16 0x0234) (machine { regs with ds := 0x1000 } Flags.cleared [] [(0x10234, 0x3C)])) =
    some { regs with ds := 0x1000, al := 0x3C } := by decide
theorem test_ldD16_wraps :
    regsOf (exec (.ldD16 0x0010) (machine { regs with ds := 0xFFFF } Flags.cleared [(0, 0x11)] [])) =
    some { regs with ds := 0xFFFF, al := 0x11 } := by decide
theorem test_inPort_shared :
    regsOf (exec (.inPort 0x0100) (machine { regs with ds := 0x1234 } Flags.cleared [(0x100, 0x99)] [])) =
    some { regs with ds := 0x1234, al := 0x99 } := by decide
theorem test_stDi : cellsOf 1 (exec .stDi (machine regs Flags.cleared [] [])) = some [(0x100, 0x12)] := by decide
theorem test_stD16 : cellsOf 1 (exec (.stD16 0x0200) (machine regs Flags.cleared [] [])) = some [(0x200, 0x12)] := by
  decide
theorem test_stD16_rom :
    cellsOf 0 (exec (.stD16 0) (machine { regs with ds := 0xF000 } Flags.cleared [] [])) = some [] := by
  decide
theorem test_outPort : cellsOf 2 (exec (.outPort 0x8000) (machine { regs with ds := 0x1234 } Flags.cleared [] [])) =
    some [(0x8000, 0x12)] := by decide

/-! ### The ALU (95_test_vectors.md 2.5): result, CF, ZF, SF, OF -/

theorem test_addDi : aluOf (exec .addDi (alu 0x7F 0x01)) = some (0x80, false, false, true, true) := by decide
theorem test_addImm : aluOf (exec (.addImm 0x01) (alu 0xFF 0)) = some (0x00, true, true, false, false) := by decide
theorem test_addD16 : aluOf (exec (.addD16 0x0200) (alu 0x80 0xFF)) = some (0x7F, true, false, false, true) := by
  decide
theorem test_subDi : aluOf (exec .subDi (alu 0x80 0x01)) = some (0x7F, true, false, false, true) := by decide
theorem test_subImm : aluOf (exec (.subImm 0x05) (alu 0x03 0)) = some (0xFE, false, false, true, false) := by decide
theorem test_subD16 : aluOf (exec (.subD16 0x0200) (alu 0x80 0x80)) = some (0x00, true, true, false, true) := by
  decide
theorem test_subImm_invertCarryIn :
    aluOf (exec (.subImm 0x80) { alu 0x7F 0 with params := { defaultParams with subFlagMode := .invertCarryIn } }) =
    some (0xFF, false, false, true, true) := by decide
theorem test_andDi : aluOf (exec .andDi (aluSet 0xF0 0x0F)) = some (0x00, true, true, false, true) := by decide
theorem test_andImm : aluOf (exec (.andImm 0x81) (aluSet 0xC3 0)) = some (0x81, true, false, true, true) := by decide
theorem test_andD16 : aluOf (exec (.andD16 0x0200) (aluSet 0xFF 0x7F)) = some (0x7F, true, false, false, true) := by
  decide
theorem test_orDi : aluOf (exec .orDi (aluSet 0x00 0x00)) = some (0x00, true, true, false, true) := by decide
theorem test_orImm : aluOf (exec (.orImm 0x80) (aluSet 0x40 0)) = some (0xC0, true, false, true, true) := by decide
theorem test_orD16 : aluOf (exec (.orD16 0x0200) (aluSet 0x01 0x02)) = some (0x03, true, false, false, true) := by
  decide
theorem test_notAl : aluOf (exec .notAl (aluSet 0x0F 0)) = some (0xF0, true, false, true, true) := by decide
theorem test_notAl_cleared :
    aluOf (exec .notAl { aluSet 0xFF 0 with params := { defaultParams with logicCfOf := .cleared } }) =
    some (0x00, false, true, false, false) := by decide
theorem test_cmpDi : aluOf (exec .cmpDi (alu 0x05 0x05)) = some (0x05, false, true, false, false) := by decide
theorem test_cmpImm : aluOf (exec (.cmpImm 0x05) (alu 0x03 0)) = some (0x03, false, false, true, true) := by decide
theorem test_cmpImm_signs : aluOf (exec (.cmpImm 0x80) (alu 0x01 0)) = some (0x01, false, false, true, false) := by
  decide
theorem test_cmpD16 : aluOf (exec (.cmpD16 0x0200) (alu 0x80 0x01)) = some (0x80, true, false, false, false) := by
  decide
theorem test_cmpD16_subOriented :
    aluOf (exec (.cmpD16 0x0200) { alu 0x80 0x01 with params := { defaultParams with cmpSignedMode := .subOriented } }) =
    some (0x80, true, false, false, true) := by decide
theorem test_shl : aluOf (exec .shl (alu 0x81 0)) = some (0x02, true, false, false, false) := by decide
theorem test_shl_sign : aluOf (exec .shl (alu 0x40 0)) = some (0x80, false, false, true, false) := by decide
theorem test_sal : aluOf (exec .sal (alu 0x40 0)) = some (0x80, false, false, true, true) := by decide
theorem test_sal_both : aluOf (exec .sal (alu 0xC0 0)) = some (0x80, true, false, true, false) := by decide
theorem test_shr : aluOf (exec .shr (alu 0x01 0)) = some (0x00, true, true, false, false) := by decide
theorem test_sar : aluOf (exec .sar (alu 0x81 0)) = some (0xC0, true, false, true, false) := by decide

/-! ### Control transfer (95_test_vectors.md 2.6) -/

/-- IP after a near jump with the given CF, ZF, SF, OF. -/
def ipAfter (i : Instr) (cf zf sf ovf : Bool) : Option Word :=
  (regsOf (exec i (machine regs ⟨cf, zf, sf, ovf, false, false⟩ [] []))).map (·.ip)

theorem test_jmp : ipAfter (.jmp 0x1234) false false false false = some 0x1234 := by decide
theorem test_je :
    ipAfter (.je 0x1234) false true false false = some 0x1234 ∧ ipAfter (.je 0x1234) true false true true = some 0x0013 := by
  decide
theorem test_jne :
    ipAfter (.jne 0x1234) true false true true = some 0x1234 ∧ ipAfter (.jne 0x1234) false true false false = some 0x0013 := by
  decide
theorem test_ja :
    ipAfter (.ja 0x1234) false false true true = some 0x1234 ∧ ipAfter (.ja 0x1234) false true false false = some 0x0013 := by
  decide
theorem test_jae :
    ipAfter (.jae 0x1234) false true true true = some 0x1234 ∧ ipAfter (.jae 0x1234) true false false false = some 0x0013 := by
  decide
theorem test_jb :
    ipAfter (.jb 0x1234) true false false false = some 0x1234 ∧ ipAfter (.jb 0x1234) false true true true = some 0x0013 := by
  decide
theorem test_jbe :
    ipAfter (.jbe 0x1234) true true false false = some 0x1234 ∧ ipAfter (.jbe 0x1234) true false false false = some 0x0013 := by
  decide
theorem test_jg :
    ipAfter (.jg 0x1234) true false true true = some 0x1234 ∧ ipAfter (.jg 0x1234) false true false false = some 0x0013 := by
  decide
theorem test_jge :
    ipAfter (.jge 0x1234) false true true true = some 0x1234 ∧ ipAfter (.jge 0x1234) false false true false = some 0x0013 := by
  decide
theorem test_jl :
    ipAfter (.jl 0x1234) false false false true = some 0x1234 ∧ ipAfter (.jl 0x1234) false false true true = some 0x0013 := by
  decide
theorem test_jle :
    ipAfter (.jle 0x1234) false true true true = some 0x1234 ∧ ipAfter (.jle 0x1234) false false false false = some 0x0013 := by
  decide
theorem test_jo :
    ipAfter (.jo 0x1234) false false false true = some 0x1234 ∧ ipAfter (.jo 0x1234) true true true false = some 0x0013 := by
  decide
theorem test_jno :
    ipAfter (.jno 0x1234) true true true false = some 0x1234 ∧ ipAfter (.jno 0x1234) false false false true = some 0x0013 := by
  decide
theorem test_js :
    ipAfter (.js 0x1234) false false true false = some 0x1234 ∧ ipAfter (.js 0x1234) true true false true = some 0x0013 := by
  decide
theorem test_jns :
    ipAfter (.jns 0x1234) true true false true = some 0x1234 ∧ ipAfter (.jns 0x1234) false false true false = some 0x0013 := by
  decide
theorem test_jbe_cfOrZf :
    (regsOf (exec (.jbe 0x1234) { machine regs (flagsWith true false false) [] [] with params := { defaultParams with jbeCond := .cfOrZf } })).map (·.ip) =
    some 0x1234 := by decide
theorem test_call :
    (regsOf (exec (.call 0x0200) (machine regs Flags.cleared [] [])) = some { regs with sp := 0x07FE, ip := 0x0200 })
    ∧ cellsOf 1 (exec (.call 0x0200) (machine regs Flags.cleared [] [])) = some [(0x7FE, 0x13), (0x7FF, 0x00)] := by
  decide
theorem test_ret :
    regsOf (exec .ret (machine { regs with sp := 0x07FE } Flags.cleared [(0x7FE, 0x13), (0x7FF, 0x02)] [])) =
    some { regs with ip := 0x0213 } := by decide
theorem test_jmpf :
    regsOf (exec (.jmpf 0xF100 0x0100) (machine regs Flags.cleared [] [])) = some { regs with cs := 0xF100, ip := 0x0100 } := by
  decide
theorem test_callf :
    (regsOf (exec (.callf 0x1000 0x0000) (machine regs Flags.cleared [] [])) = some { regs with sp := 0x07FC, cs := 0x1000, ip := 0 })
    ∧ cellsOf 1 (exec (.callf 0x1000 0x0000) (machine regs Flags.cleared [] [])) = some [(0x7FC, 0x00), (0x7FD, 0xF0), (0x7FE, 0x13), (0x7FF, 0x00)] := by
  decide
theorem test_retf : regsOf (exec .retf (machine { regs with sp := 0x07FC, cs := 0x1000 } Flags.cleared
    [(0x7FC, 0x00), (0x7FD, 0xF0), (0x7FE, 0x25), (0x7FF, 0x00)] [])) = some { regs with ip := 0x0025 } := by decide

/-! ### The stack (95_test_vectors.md 2.7) -/

theorem test_pushAl : cellsOf 1 (exec .pushAl (machine regs Flags.cleared [] [])) = some [(0x7FF, 0x12)] := by decide
theorem test_pushAl_wraps :
    cellsOf 3 (exec .pushAl (machine { regs with ss := 0x1000, sp := 0 } Flags.cleared [] [])) = some [(0x1FFFF, 0x12)] := by
  decide
theorem test_popAl :
    regsOf (exec .popAl (machine { regs with sp := 0x07FF } Flags.cleared [(0x7FF, 0x42)] [])) = some { regs with al := 0x42 } := by
  decide
theorem test_popAl_wraps :
    regsOf (exec .popAl (machine { regs with ss := 0x1000, sp := 0xFFFF } Flags.cleared [] [(0x1FFFF, 0x42)])) =
    some { regs with ss := 0x1000, sp := 0, al := 0x42 } := by decide

/-! ### System instructions and exceptions (95_test_vectors.md 2.8, 2.9, S9) -/

theorem test_nop : regsOf (exec .nop (machine regs Flags.cleared [] [])) = some regs := by decide
theorem test_hlt :
    (step (State.reset.withFetchWord 8 0x01) |> fun r => match r with | .next t => t.micro.halted && t.regs.ip == 1 | .fault _ => false | .refused _ => false) = true := by
  decide
theorem test_cli :
    flagsOf (exec .cli (machine regs ⟨true, true, true, true, true, false⟩ [] [])) = some ⟨true, true, true, true, false, false⟩ := by
  decide
theorem test_sti :
    flagsOf (exec .sti (machine regs Flags.cleared [] [])) = some ⟨false, false, false, false, true, false⟩ := by
  decide
theorem test_stum : flagsOf (exec .stum (machine regs Flags.cleared [] [])) = some (flagsWith false false true) := by
  decide
theorem test_ldpsr : regsOf (exec .ldpsr (machine { regs with ss := 0x0001, prevSS := 0x0002 } Flags.cleared [] [])) =
    some { regs with ss := 0x0002, sp := 0x0400, prevSS := 0x0001, prevSP := 0x0800 } := by decide

/-- S9's start: FLAGS = 0x13, the descriptor of vector 0x10 is F000:0100. -/
def beforeInt : State :=
  machine { regs with ip := 0x0012 } ⟨true, true, false, false, true, false⟩
    [(0x40, 0x00), (0x41, 0x01), (0x42, 0x00), (0x43, 0xF0)] []

theorem test_intImm : regsOf (exec (.intImm 0x10) beforeInt) = some { regs with ip := 0x0100, sp := 0x07FB }
    ∧ cellsOf 1 (exec (.intImm 0x10) beforeInt) =
      some [(0x40, 0x00), (0x41, 0x01), (0x42, 0x00), (0x43, 0xF0),
            (0x7FB, 0x00), (0x7FC, 0xF0), (0x7FD, 0x12), (0x7FE, 0x00), (0x7FF, 0x13)] := by decide

theorem test_iret : regsOf (andThen (exec (.intImm 0x10) beforeInt) (exec .iret)) = some beforeInt.regs
    ∧ flagsOf (andThen (exec (.intImm 0x10) beforeInt) (exec .iret)) = some beforeInt.flags := by decide

/-- The privilege fault of 2.8: user mode, `cli` at F000:0040, vector 1 at F000:0200. -/
def beforePriv : State :=
  machine { regs with sp := 0x0400, prevSP := 0x0800, ip := 0x0041 } (flagsWith false false true)
    [(4, 0x00), (5, 0x02), (6, 0x00), (7, 0xF0)] []

theorem test_cli_user :
    regsOf (exec .cli beforePriv) = some { regs with ip := 0x0200, sp := 0x07FB, prevSP := 0x0400 }
    ∧ flagsOf (exec .cli beforePriv) = some Flags.cleared
    ∧ cellsOf 1 (exec .cli beforePriv) =
      some [(4, 0x00), (5, 0x02), (6, 0x00), (7, 0xF0),
            (0x7FB, 0x00), (0x7FC, 0xF0), (0x7FD, 0x41), (0x7FE, 0x00), (0x7FF, 0x20)] := by decide

/-- A pending hardware interrupt after NOP (2.9): IF set, vector 0x20 at F000:0400. -/
def beforeIrq : State :=
  { machine { regs with ip := 0x0050 } ⟨false, false, false, false, true, false⟩
      [(0x80, 0x00), (0x81, 0x04), (0x82, 0x00), (0x83, 0xF0)] [] with irq := ⟨true, 0x20, false⟩ }

theorem test_interrupt_taken :
    regsOf (step (beforeIrq.withFetchWord 8 0x00)) = some { regs with ip := 0x0400, sp := 0x07FB } := by decide

theorem test_interrupt_masked :
    regsOf (step ({ beforeIrq with flags := Flags.cleared }.withFetchWord 8 0x00)) = some { regs with ip := 0x0051 } := by
  decide

/-- The invalid opcode 0xFF at F000:0030 (2.9), vector 0 at F000:0300. -/
theorem test_invalid_opcode :
    regsOf (step ((machine { regs with ip := 0x0030 } (flagsWith true false false)
      [(0, 0x00), (1, 0x03), (2, 0x00), (3, 0xF0)] []).withFetchWord 8 0xFF)) =
      some { regs with ip := 0x0300, sp := 0x07FB } := by decide

/-- S2 of 95_test_vectors.md: physical addresses at the wrap. -/
theorem test_phys : phys 0xFFFF 0x000F = 0xFFFFF ∧ phys 0xFFFF 0x0010 = 0 ∧ phys 0x1234 0x5678 = 0x179B8
    ∧ phys 0xFFFF 0xFFFF = 0x0FFEF := by decide

/-- The image format: a line of eight binary digits, bit 7 first (R118). -/
theorem test_parseLine : parseLine ['0', '1', '1', '0', '0', '0', '0', '1'] = some 0x61
    ∧ parseLine ['0', '1'] = none ∧ parseLine ['0', '1', '1', '0', '0', '0', '0', '2'] = none := by decide

/-- The source's program and its bytes (95_test_vectors.md; 30_encoding.md R147). -/
theorem test_assemble_source_program : assembleProgram defaultParams 0 "mov $5,al; push al; pop al; hlt".toList
    = some [0x60, 0x05, 0x0D, 0x0E, 0x01] := by decide

/-- A label, an alias and a far target (R137, R147, R148). -/
theorem test_assemble_label : parseProgram 0x10 "top: cmp $0x0A,al\njz top\njmpf 0xF000:0x0100".toList
    = some [.cmpImm 0x0A, .je 0x10, .jmpf 0xF000 0x0100] := by decide

/-! ### Witnesses: states and operands that meet the hypotheses of each statement -/

/-- Parameters at values other than the defaults. -/
def otherParams : Params :=
  { defaultParams with
    farPtrLayout := .selectorFirst, vectorLayout := ⟨2, 3, 0, 1⟩, flagsLayout := ⟨7, 6, 5, 4, 3, 2⟩
    subFlagMode := .invertCarryIn, cmpSignedMode := .subOriented, logicCfOf := .cleared, jbeCond := .cfOrZf
    ioRouting := .isolated }

theorem witness_EncodeThenDecode : defaultParams.wf = true ∧ otherParams.wf = true := by decide

theorem witness_DecodeThenEncode : otherParams.wf = true
    ∧ decode otherParams [0xE1, 0xCD, 0xAB, 0x34, 0x12, 0x77] = .ok (.callf 0xABCD 0x1234, [0x77]) := ⟨by decide, by rfl⟩

theorem witness_MnemonicTableRoundTrip : defaultParams.wf = true
    ∧ lookupOp defaultParams.opcodeMap 0x00 = some .nop ∧ lookupOp defaultParams.opcodeMap 0xE1 = some .callf
    ∧ lookupOp defaultParams.opcodeMap 0xFF = none ∧ (Op.all.all fun op => op.tableName != "unknown") = true := by decide

theorem witness_MnemonicTableRoundTrip_text : ∀ op : Op, op.tableName ≠ "unknown" := by
  intro op
  cases op <;> decide

theorem witness_LengthIsTheFormats : otherParams.wf = true := by decide

/-- A machine at F000:0000 whose first instruction is the given word, in the state the tests use. -/
def running (nbits w : Nat) : State := (machine { regs with ip := 0 } Flags.cleared [] []).withFetchWord nbits w

/-- The same in user mode. -/
def runningUser (nbits w : Nat) : State :=
  (machine { regs with ip := 0 } (flagsWith false false true) [] []).withFetchWord nbits w

theorem witness_StepRunsDecodedInstruction : runs (running 40 0xABCD1234E1) (.callf 0xABCD 0x1234) :=
  ⟨by decide, by decide, by rfl⟩

theorem witness_StepRunsDecodedInstruction_user : runs (runningUser 16 0x1066) (.intImm 0x10) :=
  ⟨by decide, by decide, by rfl⟩

theorem witness_InvalidOpcodeEntersItsVector : (running 8 0xFF).micro.halted = false
    ∧ lookupOp (running 8 0xFF).params.opcodeMap
      ((running 8 0xFF).answer false (phys (running 8 0xFF).regs.cs (running 8 0xFF).regs.ip)) = none := by decide

theorem witness_PrivilegeViolationEntersItsVector : (runningUser 24 0x800086).micro.halted = false
    ∧ lookupOp (runningUser 24 0x800086).params.opcodeMap
      ((runningUser 24 0x800086).answer false (phys (runningUser 24 0x800086).regs.cs (runningUser 24 0x800086).regs.ip)) =
        some .inPort
    ∧ (runningUser 24 0x800086).blocked .inPort = true := by decide

/-- A machine that HLT has parked, with an interrupt pending and IF set. -/
def parked : State :=
  { machine regs ⟨false, false, false, false, true, false⟩ [] [] with
    micro := ⟨.halt, .halt, true, []⟩, irq := ⟨true, 0x20, false⟩ }

theorem witness_HaltIsAbsorbing : parked.micro.halted = true ∧ parked.atBoundary = true := by decide

theorem witness_OnlyHltHalts : ∃ t, step (running 8 0x01) = .next t
    ∧ (running 8 0x01).micro.halted = false ∧ t.micro.halted = true := ⟨_, rfl, by decide, by decide⟩

/-- Nothing is privileged in supervisor mode: the completion statements' one hypothesis. -/
theorem witness_not_blocked : ∀ op : Op, (machine regs Flags.cleared [] []).blocked op = false := by
  intro op
  rfl

/-- The unprivileged instructions run in user mode too. -/
theorem witness_not_blocked_user : (machine regs (flagsWith false false true) [] []).blocked .addImm = false := by decide

theorem witness_RegisterMovesCopy :
    (0x3412 : Word) = (regs.ah.setWidth 16 * 256 + regs.al.setWidth 16)
    ∧ (machine regs Flags.cleared [] []).blocked .movCsAx = false
    ∧ (0xF000 : Word) = (machine regs Flags.cleared [] []).regs.cs := by decide

theorem witness_LoadsFillAl : Instr.op .ldDi ∈ [Op.ldDi, .ldImm, .ldD16, .inPort]
    ∧ Instr.op (.ldImm 0xFF) ∈ [Op.ldDi, .ldImm, .ldD16, .inPort]
    ∧ Instr.op (.ldD16 0xFFFF) ∈ [Op.ldDi, .ldImm, .ldD16, .inPort]
    ∧ Instr.op (.inPort 0xFFFF) ∈ [Op.ldDi, .ldImm, .ldD16, .inPort]
    ∧ (alu 0 0).blocked .inPort = false ∧ (alu 0 0).blocked .ldDi = false := by decide

theorem witness_StoresWriteAl : storeTarget .stDi (alu 0 0) = some (false, 0x00100)
    ∧ storeTarget (.stD16 0xFFFF) (machine { regs with ds := 0xFFFF } Flags.cleared [] []) = some (false, 0x0FFEF)
    ∧ storeTarget (.outPort 0xFFFF) (alu 0 0) = some (true, 0x0FFFF)
    ∧ (alu 0 0).blocked .outPort = false := by decide

theorem witness_MoveFamilyKeepsFlags : Instr.op .movAlAh ∈ moveFamily ∧ Instr.op (.outPort 0) ∈ moveFamily
    ∧ (alu 0 0).blocked .outPort = false := by decide

theorem witness_AddSetsResultAndFlags : Instr.op .addDi ∈ [Op.addDi, .addImm, .addD16]
    ∧ Instr.op (.addImm 0xFF) ∈ [Op.addDi, .addImm, .addD16] ∧ Instr.op (.addD16 0xFFFF) ∈ [Op.addDi, .addImm, .addD16]
    ∧ (alu 0xFF 0xFF).blocked .addDi = false := by decide

theorem witness_SubSetsResultAndFlags : Instr.op .subDi ∈ [Op.subDi, .subImm, .subD16]
    ∧ Instr.op (.subImm 0x80) ∈ [Op.subDi, .subImm, .subD16] ∧ Instr.op (.subD16 0) ∈ [Op.subDi, .subImm, .subD16]
    ∧ (alu 0 0).blocked .subDi = false ∧ (alu 0 0).params.subFlagMode = .negateThenAdd
    ∧ { alu 0 0 with params := otherParams }.params.subFlagMode = .invertCarryIn := by decide

theorem witness_CmpSetsFlagsOnly : Instr.op .cmpDi ∈ [Op.cmpDi, .cmpImm, .cmpD16]
    ∧ Instr.op (.cmpImm 0x80) ∈ [Op.cmpDi, .cmpImm, .cmpD16] ∧ Instr.op (.cmpD16 0) ∈ [Op.cmpDi, .cmpImm, .cmpD16]
    ∧ (alu 0x80 0).blocked .cmpDi = false ∧ (alu 0x80 0).params.cmpSignedMode = .cfOriented
    ∧ { alu 0x80 0 with params := otherParams }.params.cmpSignedMode = .subOriented := by decide

theorem witness_JumpsAfterCmp : Instr.op (.cmpImm 0x80) ∈ [Op.cmpDi, .cmpImm, .cmpD16]
    ∧ (alu 0x80 0).blocked .cmpImm = false ∧ (alu 0x80 0).params.cmpSignedMode = .cfOriented
    ∧ (alu 0x80 0).params.jbeCond = .cfAndZf := by decide

theorem witness_LogicSetsResultAndFlags : Instr.op (.andImm 0x0F) ∈ [Op.andDi, .andImm, .andD16]
    ∧ (0x00 : Byte) = (alu 0xF0 0).regs.al &&& operandByte (.andImm 0x0F) (alu 0xF0 0)
    ∧ Instr.op .orDi ∈ [Op.orDi, .orImm, .orD16]
    ∧ (0xFF : Byte) = (alu 0xF0 0x0F).regs.al ||| operandByte .orDi (alu 0xF0 0x0F)
    ∧ (0xFF : Byte) = ~~~(alu 0 0).regs.al
    ∧ (alu 0 0).blocked .notAl = false ∧ (alu 0xF0 0).blocked .andImm = false ∧ (alu 0xF0 0x0F).blocked .orDi = false := by
  decide

theorem witness_ShiftsSetResultAndFlags_left : (0x00 : Byte) = BitVec.ofNat 8 (2 * (alu 0x80 0).regs.al.toNat)
    ∧ true = (alu 0x80 0).regs.al.msb ∧ true = ((0x00 : Byte).msb != (alu 0x80 0).regs.al.msb)
    ∧ (alu 0x80 0).blocked .shl = false ∧ (alu 0x80 0).blocked .sal = false := by decide

theorem witness_ShiftsSetResultAndFlags_right : (0x7F : Byte) = BitVec.ofNat 8 ((alu 0xFF 0).regs.al.toNat / 2)
    ∧ (0xFF : Byte) = BitVec.ofInt 8 ((alu 0xFF 0).regs.al.toInt / 2)
    ∧ true = decide ((alu 0xFF 0).regs.al.toNat % 2 = 1)
    ∧ (alu 0xFF 0).blocked .shr = false ∧ (alu 0xFF 0).blocked .sar = false := by decide

theorem witness_NearJumpsFollowTheTable : nearTarget (.jbe 0xFFFF) = some 0xFFFF
    ∧ (machine regs (flagsWith true false false) [] []).blocked .jbe = false
    ∧ nearTarget (.jmp 0) = some 0 := by decide

theorem witness_NearJumpsFollowTheTable_taken : jumpTaken (.jbe 0xFFFF) .cfOrZf (flagsWith true false false) :=
  .inr ⟨rfl, .inl rfl⟩

theorem witness_NearJumpsFollowTheTable_not_taken : ¬ jumpTaken (.jbe 0xFFFF) .cfAndZf (flagsWith true false false) := by
  simp [jumpTaken, flagsWith]

/-- A stack at 1000:0001, where SP wraps within a frame. -/
def wrapping : State := machine { regs with ss := 0x1000, sp := 0x0001 } Flags.cleared [] []

theorem witness_CallsAndFarJump : wrapping.blocked .call = false ∧ wrapping.blocked .callf = false
    ∧ wrapping.blocked .jmpf = false := by decide

theorem witness_ReturnsPop : wrapping.blocked .ret = false ∧ wrapping.blocked .retf = false := by decide

theorem witness_CallThenRetRestores : wrapping.blocked .call = false ∧ wrapping.blocked .ret = false
    ∧ stackRam wrapping 1 = true ∧ stackRam wrapping 2 = true := by decide

theorem witness_CallfThenRetfRestores : wrapping.blocked .callf = false ∧ wrapping.blocked .retf = false
    ∧ stackRam wrapping 1 = true ∧ stackRam wrapping 2 = true ∧ stackRam wrapping 3 = true
    ∧ stackRam wrapping 4 = true := by decide

theorem witness_CallfThenRetfRestores_all (k : Nat) (h1 : 1 ≤ k) (h4 : k ≤ 4) : stackRam wrapping k = true := by
  match k, h1, h4 with
  | 1, _, _ => decide
  | 2, _, _ => decide
  | 3, _, _ => decide
  | 4, _, _ => decide

theorem witness_PushAndPop : wrapping.blocked .pushAl = false ∧ wrapping.blocked .popAl = false := by decide

theorem witness_PushThenPopRestores :
    stackRam { wrapping with regs := { wrapping.regs with sp := 0 } } 1 = true
    ∧ { wrapping with regs := { wrapping.regs with sp := 0 } }.blocked .pushAl = false
    ∧ { wrapping with regs := { wrapping.regs with sp := 0 } }.blocked .popAl = false := by decide

theorem witness_SimpleSystemInstructions : wrapping.blocked .nop = false ∧ wrapping.blocked .cli = false
    ∧ wrapping.blocked .sti = false ∧ wrapping.blocked .stum = false ∧ wrapping.blocked .ldpsr = false := by decide

theorem witness_HltParks : wrapping.blocked .hlt = false := by decide

theorem witness_IntEntersItsVector : beforeInt.blocked .intImm = false ∧ beforePriv.blocked .intImm = false := by decide

theorem witness_IretRestores : wrapping.blocked .iret = false := by decide

theorem witness_IntThenIretRestores : beforeInt.params.flagsLayout.wf = true ∧ beforeInt.blocked .intImm = false
    ∧ ((entryFrame beforeInt).all fun e => beforeInt.isRam false e.1) = true
    ∧ beforePriv.blocked .intImm = false
    ∧ ((entryFrame beforePriv).all fun e => beforePriv.isRam false e.1) = true := by decide

theorem witness_PrivilegedInstructionsTrap : beforePriv.blocked (Instr.op .cli) = true
    ∧ beforePriv.blocked (Instr.op (.outPort 0x8000)) = true := by decide

theorem witness_DescriptorRoundTrip : beforeInt.params.vectorLayout.wf = true
    ∧ ((List.range 4).all fun k => decide ((pushFrame (swapIfUser beforeInt)).mem.read beforeInt.params.ioRouting false
        (phys 0 (4 * (0x10 : Byte).setWidth 16 + BitVec.ofNat 16 k)) =
          (descriptorBytes beforeInt.params.vectorLayout 0x0100 0xF000)[k]?)) = true := by decide

theorem witness_BoundaryTakesPendingInterrupt :
    (beforeIrq.micro.halted = false ∧ beforeIrq.flags.ie = true ∧ beforeIrq.irq.pending = true)
    ∧ parked.micro.halted = true ∧ wrapping.flags.ie = false
    ∧ { beforeIrq with irq := ⟨false, 0x20, false⟩ }.irq.pending = false := by decide

theorem witness_UserModeOnlyByStumOrIret : ∃ t, step (running 8 0x1A) = .next t
    ∧ (running 8 0x1A).flags.us = false ∧ t.flags.us = true := ⟨_, rfl, by decide, by decide⟩

theorem witness_SupervisorModeOnlyByEntry : (runningUser 8 0x17).params.privSet.contains .iret = true
    ∧ ∃ t, step (runningUser 8 0x17) = .next t ∧ (runningUser 8 0x17).flags.us = true ∧ t.flags.us = false :=
  ⟨by decide, _, rfl, by decide, by decide⟩

theorem witness_CsWrittenOnlyByTransfers : ∃ t, step (running 40 0x10000000E0) = .next t
    ∧ t.regs.cs ≠ (running 40 0x10000000E0).regs.cs := ⟨_, rfl, by decide⟩

theorem witness_AhDsDiWrittenOnlyByMoves_ah : ∃ t, step (running 8 0x02) = .next t
    ∧ t.regs.ah ≠ (running 8 0x02).regs.ah := ⟨_, rfl, by decide⟩

theorem witness_AhDsDiWrittenOnlyByMoves_ds : ∃ t, step (running 8 0x04) = .next t
    ∧ t.regs.ds ≠ (running 8 0x04).regs.ds := ⟨_, rfl, by decide⟩

theorem witness_AhDsDiWrittenOnlyByMoves_di : ∃ t, step (running 8 0x07) = .next t
    ∧ t.regs.di ≠ (running 8 0x07).regs.di := ⟨_, rfl, by decide⟩

theorem witness_StepKeepsInvariant : MachineInv (running 8 0x0D) ∧ ∃ t, step (running 8 0x0D) = .next t :=
  ⟨⟨by decide, by decide, by decide⟩, _, rfl⟩

theorem witness_ReadOnlyDevicesNeverChange : (∃ t, step (running 24 0x0000A0) = .next t)
    ∧ ∃ d, (running 24 0x0000A0).mem[0]? = some d ∧ d.writeable = false := ⟨⟨_, rfl⟩, _, rfl, by decide⟩

theorem witness_AtMostOneStrobe : (running 8 0x00).micro.halted = false := by decide

theorem witness_ClocksAgreeWithStep : (running 24 0x0200CF).atBoundary = true ∧ parked.atBoundary = true := by decide

theorem witness_InAndOutUseIoStrobes_in : (running 24 0x800086).atBoundary = true ∧ runs (running 24 0x800086) (.inPort 0x8000) :=
  ⟨by decide, by decide, by decide, by rfl⟩

theorem witness_InAndOutUseIoStrobes_out :
    (running 24 0xFFFFA1).atBoundary = true ∧ runs (running 24 0xFFFFA1) (.outPort 0xFFFF) :=
  ⟨by decide, by decide, by decide, by rfl⟩

/-- A machine about to enter an interrupt at clock level. -/
def entering (kind : IntKind) : State := { beforeIrq with micro := ⟨.intEntry kind, .execEnd, false, []⟩ }

theorem witness_AcknowledgeIsOneClock : (entering .hw).micro.star = .intEntry .hw ∧ (entering .hw).micro.halted = false
    ∧ (entering .hw).irq.ack = false ∧ (entering .sw).micro.star = .intEntry .sw ∧ (12 : Nat) ≤ 25 := by decide

theorem witness_FirstDeviceIsSelected : Memory.select defaultMemory .shared false 0xF0000 = some 0
    ∧ Memory.select defaultMemory .shared false 0x0FFFF = some 2
    ∧ Memory.select [ram0] .shared false 0x08000 = none
    ∧ Memory.select defaultMemory .isolated true 0x0FFFF = some 2 ∧ ioRegion.isIO = true
    ∧ Memory.select defaultMemory .isolated false 0x07FFF = some 1 ∧ ram0.isIO = false
    ∧ Memory.select defaultMemory .isolated false 0x08000 = none
    ∧ Memory.select defaultMemory .isolated true 0x10000 = none := by decide

theorem witness_RefusedAccesses : Memory.select [ram0] .shared false 0x08000 = none
    ∧ Memory.select defaultMemory .shared false 0xFFFFF = some 0 ∧ defaultMemory[0]? = some rom ∧ rom.writeable = false
    ∧ Memory.select defaultMemory .shared false 0x08000 = some 2 ∧ defaultMemory[2]? = some ioRegion
    ∧ ioRegion.readable = false := by decide

theorem witness_ReadAfterWrite : State.reset.isRam false 0xEFFFF = true ∧ (0xEFFFE : PhysAddr) ≠ 0xEFFFF
    ∧ State.reset.isRam true 0x00000 = true := by decide

theorem witness_LazyReadsAreEagerReads : ram0.readable = true
    ∧ ram0.readsInRange [.read 0, .write 0 0x5A, .read 0, .read 0x7FFF, .write 0x8000 1] = true := by decide

theorem witness_PowerOnLoadsImages : ([0x01] : List Byte).length ≤ 0x8000 ∧ 0 < ([0x01] : List Byte).length := by decide

theorem witness_PowerOnLoadsImages_whole : (List.replicate 0x10000 (0x01 : Byte)).length ≤ 0x10000
    ∧ 0xFFFF < (List.replicate 0x10000 (0x01 : Byte)).length := by
  rw [List.length_replicate]
  omega

theorem witness_FlagByteRoundTrip : defaultParams.flagsLayout.wf = true ∧ otherParams.flagsLayout.wf = true
    ∧ (6 : Fin 8) ∉ [defaultParams.flagsLayout.cf, defaultParams.flagsLayout.zf, defaultParams.flagsLayout.sf,
      defaultParams.flagsLayout.ovf, defaultParams.flagsLayout.ie, defaultParams.flagsLayout.us] := by decide

/-- The default platform of the tests is in canonical form. -/
theorem test_machine_wf : Memory.wf beforeInt.mem = true := by decide

end Sys2Proof.Tests
end

/-! The physical address as arithmetic on numbers (00_scope.md R19). -/

namespace Sys2Proof.Machine

/-- The sum under `phys` never wraps at 32 bits (it is at most 0x10FFEF), so only the truncation to 20 bits can
drop anything of it. -/
theorem linearAddress_toNat (sel off : Word) :
    (sel.setWidth 32 * 16#32 + off.setWidth 32).toNat = sel.toNat * 16 + off.toNat := by
  have hsel : sel.toNat < 2 ^ 16 := sel.isLt
  have hoff : off.toNat < 2 ^ 16 := off.isLt
  simp only [BitVec.toNat_add, BitVec.toNat_mul, BitVec.toNat_setWidth, BitVec.toNat_ofNat]
  omega

/-- Settles O51: the 32-bit sum is exact, and `phys` is its truncation to 20 bits. -/
theorem physicalAddress : Obligations.PhysicalAddress := by
  intro sel off
  rw [phys, BitVec.toNat_setWidth, linearAddress_toNat]

end Sys2Proof.Machine

/-! The flag byte, bit by bit (10_state.md R45). -/

namespace Sys2Proof.Machine

open Sys2Proof

theorem flagBit_getLsbD (b : Bool) (pos k : Fin 8) : (flagBit b pos).getLsbD k.val = (decide (k = pos) && b) := by
  revert b pos k
  decide

/-- Bit `k` of the pushed byte is the disjunction of the flags the layout puts at place `k`. -/
theorem flagsByte_getLsbD (l : FlagsLayout) (f : Flags) (k : Fin 8) :
    (flagsByte l f).getLsbD k.val =
      (decide (k = l.cf) && f.cf || decide (k = l.zf) && f.zf || decide (k = l.sf) && f.sf ||
        decide (k = l.ovf) && f.ovf || decide (k = l.ie) && f.ie || decide (k = l.us) && f.us) := by
  simp only [flagsByte, BitVec.getLsbD_or, flagBit_getLsbD]

/-- Under an injective layout no other flag shares a flag's bit, so each reads back. -/
theorem flagsOfByte_flagsByte {l : FlagsLayout} (h : l.wf = true) (f : Flags) : flagsOfByte l (flagsByte l f) = f := by
  have hnodup : [l.cf, l.zf, l.sf, l.ovf, l.ie, l.us].Nodup := of_decide_eq_true h
  simp only [List.nodup_cons, List.mem_cons, List.not_mem_nil, not_or] at hnodup
  cases f
  simp only [flagsOfByte, flagsByte_getLsbD]
  simp [hnodup, Ne.symm]

theorem flagsByte_getLsbD_unnamed {l : FlagsLayout} {k : Fin 8} (hk : k ∉ [l.cf, l.zf, l.sf, l.ovf, l.ie, l.us])
    (f : Flags) : (flagsByte l f).getLsbD k.val = false := by
  simp only [List.mem_cons, List.not_mem_nil, or_false, not_or] at hk
  rw [flagsByte_getLsbD]
  simp [hk]

/-- Settles O58: a flag's bit is its own under an injective layout, and no flag sets an unnamed bit. -/
theorem flagByteRoundTrip : Obligations.FlagByteRoundTrip :=
  fun _ f hl => ⟨flagsOfByte_flagsByte hl f, fun _ hk => flagsByte_getLsbD_unnamed hk f⟩

/-- The default layout's places 0 to 5 are the weights 1 to 32. -/
theorem flagsByte_default_toNat : ∀ cf zf sf ovf ie us : Bool,
    (flagsByte defaultParams.flagsLayout ⟨cf, zf, sf, ovf, ie, us⟩).toNat =
      cf.toNat + 2 * zf.toNat + 4 * sf.toNat + 8 * ovf.toNat + 16 * ie.toNat + 32 * us.toNat := by
  decide

/-- Settles O59: the weights of the pushed byte, and the popped bits as `flagsOfByte` takes them. -/
theorem flagByteOfDefaultLayout : Obligations.FlagByteOfDefaultLayout :=
  fun f _ => ⟨flagsByte_default_toNat f.cf f.zf f.sf f.ovf f.ie f.us, rfl⟩

end Sys2Proof.Machine

/-! The reset state as power-on of the default platform (70_reset_and_hazards.md R480). -/

namespace Sys2Proof.Machine

open Sys2Proof

theorem defaultParams_wf : defaultParams.wf = true := by decide

@[simp] theorem Memory.loadImage_nil (m : Memory) (r : IoRouting) (a : PhysAddr) : m.loadImage r a [] = m := by
  unfold Memory.loadImage
  split
  · rfl
  · exact List.modify_id _ _

/-- With no image to load, power-on leaves the devices as they are and only resets. -/
theorem powerOn_no_images (p : Params) (map : Memory) (d : ResetDraws) :
    powerOn p map [] [] d = onReset d { State.reset with mem := map, params := p } := by
  simp only [powerOn, Memory.loadImage_nil]

theorem reset_eq_powerOn : State.reset = powerOn defaultParams defaultMemory [] [] ResetDraws.zero := by
  rw [powerOn_no_images]
  rfl

/-- Settles O45: canonical memory and allowed parameters by evaluation, and power-on with nothing to load. -/
theorem resetMeetsInvariant : Obligations.ResetMeetsInvariant :=
  ⟨⟨reset_memory_wf, defaultParams_wf, rfl⟩, reset_eq_powerOn, rfl, rfl, rfl⟩

end Sys2Proof.Machine

/-! Who writes AH, DS, DI and CS (10_state.md R34, R36, R37, R39): interrupt entry, then each instruction's effect,
then the step. -/

namespace Sys2Proof.Machine

open Sys2Proof

/-- AH, DS and DI, the data registers that only register moves write, are as they were. -/
structure KeepsAhDsDi (s t : State) : Prop where
  ah : t.regs.ah = s.regs.ah
  ds : t.regs.ds = s.regs.ds
  di : t.regs.di = s.regs.di

/-- Interrupt entry replaces the stack pairs and CS:IP alone (R430). -/
theorem interrupt_keepsAhDsDi (kind : IntKind) (s : State) : KeepsAhDsDi s (interrupt kind s) := by
  constructor <;> simp [interrupt_regs]

/-- A fault at the opcode fetch has moved IP only before it enters (R422, R424). -/
theorem raiseFault_fetchOpcode_keepsAhDsDi (v : Byte) (s : State) : KeepsAhDsDi s (raiseFault v (fetchOpcode s)) := by
  constructor <;> simp [raiseFault, interrupt_regs]

theorem boundaryCheck_keepsAhDsDi (s : State) : KeepsAhDsDi s (boundaryCheck s) := by
  rcases boundaryCheck_cases s with h | h <;> rw [h]
  · exact ⟨rfl, rfl, rfl⟩
  · exact interrupt_keepsAhDsDi .hw s

/-- From `s` to `t` the instruction `i` wrote CS, AH, DS and DI only where its name allows it. INT is the one
instruction whose effect is itself an interrupt entry, so its CS is left open. -/
structure WritesByName (i : Instr) (s t : State) : Prop where
  cs : i.op ∉ [Op.jmpf, .callf, .retf, .iret] → (∀ v, i ≠ .intImm v) → t.regs.cs = s.regs.cs
  ah : i.op ∉ [Op.movAlAh, .movDsAx, .movSsAx, .movSpAx, .movDiAx, .movCsAx] → t.regs.ah = s.regs.ah
  ds : i ≠ .movAxDs → t.regs.ds = s.regs.ds
  di : i ≠ .movAxDi → t.regs.di = s.regs.di

/-- The four registers unchanged are written by name, whatever the instruction. -/
theorem WritesByName.of_keeps {i : Instr} {s t : State} (hcs : t.regs.cs = s.regs.cs) (hk : KeepsAhDsDi s t) :
    WritesByName i s t := ⟨fun _ _ => hcs, fun _ => hk.ah, fun _ => hk.ds, fun _ => hk.di⟩

theorem nearJump_writesByName (i : Instr) (taken : Bool) (off : Word) (s : State) :
    WritesByName i s (actJump taken (operandNear off s)) := by
  rcases actJump_cases taken (operandNear off s) with h | h <;> rw [h] <;> exact .of_keeps rfl ⟨rfl, rfl, rfl⟩

/-- Every effect writes the four registers by name only. -/
theorem effect_writesByName (i : Instr) (s : State) : WritesByName i s (effect i s) := by
  cases i
  case movAlAh | movAhAl | movAxDs | movAxSs | movAxSp | movAxDi | movDsAx | movSsAx | movSpAx | movDiAx | movCsAx =>
    constructor <;>
      simp [Instr.op, effect, actMovAlAh, actMovAhAl, actMovAxDs, actMovAxSs, actMovAxSp, actMovAxDi, actMovDsAx,
        actMovSsAx, actMovSpAx, actMovDiAx, actMovCsAx]
  case jmpf | callf | retf | iret =>
    constructor <;> simp [Instr.op, effect, actJmpf, actCallf, actRetf, returnFromInterrupt, operandFar_eq]
  case intImm v =>
    obtain ⟨hah, hds, hdi⟩ := interrupt_keepsAhDsDi .sw (operandImm v s)
    exact ⟨fun _ hint => absurd rfl (hint v), fun _ => hah, fun _ => hds, fun _ => hdi⟩
  case jmp | je | jne | ja | jae | jb | jbe | jg | jge | jl | jle | jo | jno | js | jns =>
    exact nearJump_writesByName ..
  case nop | hlt | cli | sti | stum | ldpsr => exact .of_keeps rfl ⟨rfl, rfl, rfl⟩
  case pushAl | popAl | call | ret =>
    refine .of_keeps ?_ ⟨?_, ?_, ?_⟩ <;> simp [effect, actPushAl, actPopAl, actCall, actRet, operandNear_eq]
  case ldDi | ldImm | ldD16 | inPort | stDi | stD16 | outPort =>
    refine .of_keeps ?_ ⟨?_, ?_, ?_⟩ <;>
      simp [effect, actLoad, actStore, operandDestDi_eq, operandDestD16_eq, operandOutPort_eq]
  all_goals -- the ALU, whose result goes to AL
    refine .of_keeps ?_ ⟨?_, ?_, ?_⟩ <;>
      simp [effect, actNot, actShl, actSal, actShr, actSar, actAdd, actSub, actAnd, actOr, actCmp, aluWrite]

/-- A step leaves AH, DS and DI as they were, or as the effect of the instruction that runs left them: entry, at the
fetch or at the boundary, touches none of them. -/
theorem step_keepsAhDsDi {s t : State} (h : step s = .next t) :
    KeepsAhDsDi s t ∨ ∃ i, runs s i ∧ KeepsAhDsDi (effect i (fetched i.op s)) t := by
  rcases step_cases h with ⟨-, rfl⟩ | ⟨-, -, rfl⟩ | ⟨op, -, -, -, rfl⟩ | ⟨i, hr, rfl⟩
  · exact .inl ⟨rfl, rfl, rfl⟩
  · exact .inl (raiseFault_fetchOpcode_keepsAhDsDi _ s)
  · exact .inl (raiseFault_fetchOpcode_keepsAhDsDi _ s)
  · exact .inr ⟨i, hr, boundaryCheck_keepsAhDsDi _⟩

/-- Settles O43: a step that changed one of the three ran an instruction, whose effect writes it by name only. -/
theorem ahDsDiWrittenOnlyByMoves : Obligations.AhDsDiWrittenOnlyByMoves := by
  intro s t h
  rcases step_keepsAhDsDi h with ⟨hah, hds, hdi⟩ | ⟨i, hr, hah, hds, hdi⟩
  · exact ⟨fun hne => absurd hah hne, fun hne => absurd hds hne, fun hne => absurd hdi hne⟩
  · have hw := effect_writesByName i (fetched i.op s)
    refine ⟨fun hne => ⟨i, hr, ?_⟩, fun hne => ?_, fun hne => ?_⟩
    · by_contra hi
      exact hne (by simpa using hah.trans (hw.ah hi))
    · by_cases hi : i = .movAxDs
      · exact hi ▸ hr
      · exact absurd (by simpa using hds.trans (hw.ds hi)) hne
    · by_cases hi : i = .movAxDi
      · exact hi ▸ hr
      · exact absurd (by simpa using hdi.trans (hw.di hi)) hne

/-- A halted machine steps to itself (R198). -/
theorem step_of_halted {s : State} (hh : s.micro.halted = true) : step s = .next s := by
  simp [step, fetchInstr, hh]

/-- Settles O42: a step enters from a state with the old CS, or runs an instruction; a hardware entry after one that
is not a far transfer again finds the old CS. -/
theorem csWrittenOnlyByTransfers : Obligations.CsWrittenOnlyByTransfers := by
  intro s t h hne
  have hh : s.micro.halted = false := by
    by_contra hh
    rw [step_of_halted (by simpa using hh)] at h
    cases h
    exact hne rfl
  rcases step_enters_or_runs h hh with ⟨v, -, hfrom, ht⟩ | ⟨v, -, hfrom, ht⟩ | ⟨i, hr, hint, hend⟩
  · exact .inl ⟨.fault, _, hfrom, by simp, ht⟩
  · exact .inl ⟨.sw, _, hfrom, by simp, ht⟩
  · by_cases hi : i.op ∈ [Op.jmpf, .callf, .retf, .iret]
    · exact .inr ⟨i, hr, hi⟩
    · have hcs : (effect i (fetched i.op s)).regs.cs = s.regs.cs := by
        simpa using (effect_writesByName i (fetched i.op s)).cs hi hint
      rcases hend with ⟨hfrom, ht⟩ | rfl
      · exact .inl ⟨.hw, _, hfrom, hcs, ht⟩
      · exact absurd hcs hne

end Sys2Proof.Machine

/-! Which device an access reaches and what a refused access does (20_memory.md R86, R91 to R94, R96). -/

namespace Sys2Proof.Machine

open Sys2Proof

/-- SHARED routing considers every device, ISOLATED those whose kind is the strobe's (R96). -/
theorem Device.routed_iff {d : Device} {r : IoRouting} {io : Bool} :
    d.routed r io = true ↔ (r = .isolated → d.isIO = io) := by
  cases r <;> simp [Device.routed]

/-- The range is closed at both ends (R84). -/
theorem Device.inRange_iff {d : Device} {a : Nat} : d.inRange a = true ↔ d.low ≤ a ∧ a ≤ d.high := by
  simp [Device.inRange]

/-- A device the decoder passes over is not considered, or its range does not hold the address. -/
theorem Device.not_inRange_of_passed_over {d : Device} {r : IoRouting} {io : Bool} {a : Nat}
    (h : (d.routed r io && d.inRange a) = false) (hr : r = .isolated → d.isIO = io) :
    ¬ (d.low ≤ a ∧ a ≤ d.high) := by
  rw [Device.routed_iff.2 hr, Bool.true_and] at h
  rw [← Device.inRange_iff, h]
  exact Bool.false_ne_true

/-- Settles O52: `select_some` and `select_none` with routing and range as the statement words them. -/
theorem firstDeviceIsSelected : Obligations.FirstDeviceIsSelected := by
  intro m r io a
  constructor
  · intro k hk
    obtain ⟨d, hd, hrouted, hrange, hbefore⟩ := Memory.select_some hk
    obtain ⟨hlow, hhigh⟩ := Device.inRange_iff.1 hrange
    exact ⟨d, hd, Device.routed_iff.1 hrouted, hlow, hhigh, fun j hj e he =>
      Device.not_inRange_of_passed_over (hbefore j hj e he)⟩
  · exact fun hnone d hd => Device.not_inRange_of_passed_over (Memory.select_none hnone d hd)

/-- A read of a device that is not readable has no stored answer, and no later device is asked (R86, R94). -/
theorem Memory.read_refused {m : Memory} {r : IoRouting} {io : Bool} {a : PhysAddr} {k : Nat} {d : Device}
    (h : Memory.select m r io a = some k) (hd : m[k]? = some d) (hr : d.readable = false) :
    Memory.read m r io a = none := by
  rw [Memory.read_eq h hd, hr]
  rfl

/-- Settles O53: no device selected, or the selected one refuses the access. -/
theorem refusedAccesses : Obligations.RefusedAccesses :=
  fun _ _ _ _ v => ⟨fun hnone => ⟨Memory.write_none v hnone, Memory.read_none hnone⟩,
    fun _ _ hk hd => ⟨Memory.write_refused v hk hd, Memory.read_refused hk hd⟩⟩

end Sys2Proof.Machine

/-! Reading back what was written (20_memory.md R119). -/

namespace Sys2Proof.Machine

open Sys2Proof

/-- An access that reaches RAM selects a readable and writeable device. -/
theorem State.isRam_iff {s : State} {io : Bool} {a : PhysAddr} :
    s.isRam io a = true ↔ ∃ k d, s.mem.select s.params.ioRouting io a = some k ∧ s.mem[k]? = some d
      ∧ d.readable = true ∧ d.writeable = true := by
  unfold State.isRam State.select
  cases hk : s.mem.select s.params.ioRouting io a with
  | none => simp
  | some k => cases hd : s.mem[k]? <;> simp [hd]

/-- Where two device lists have the same shapes, so have the devices at one place. -/
theorem Memory.getElem?_of_map_shape {m n : Memory} (h : n.map Device.shape = m.map Device.shape) {k : Nat} {d : Device}
    (hd : m[k]? = some d) : ∃ e, n[k]? = some e ∧ e.shape = d.shape := by
  have hk : (n.map Device.shape)[k]? = some d.shape := by rw [h, List.getElem?_map, hd, Option.map_some]
  rwa [List.getElem?_map, Option.map_eq_some_iff] at hk

/-- Settles O54: the cell holds the byte after the first write, and a write to another address changes neither that
cell nor the selection. -/
theorem readAfterWrite : Obligations.ReadAfterWrite := by
  intro s io io' a b v w hram hba
  obtain ⟨k, d, hk, hd, hreadable, hwriteable⟩ := State.isRam_iff.1 hram
  have hne : a.toNat ≠ b.toNat := fun h => hba (BitVec.eq_of_toNat_eq h.symm)
  obtain ⟨e, he, hshape⟩ := Memory.getElem?_of_map_shape
    (n := (s.mem.write s.params.ioRouting io a v).write s.params.ioRouting io' b w) (by simp) hd
  have hreadable' : e.readable = true := (Device.readable_of_shape hshape).trans hreadable
  rw [Memory.read_eq (by simpa using hk) he, if_pos hreadable', Memory.cell_write_other w k a.toNat fun _ => hne,
    Memory.cell_write_same v hk hd hwriteable]

end Sys2Proof.Machine

/-! Devices that are not writeable (20_memory.md R85, R89). -/

namespace Sys2Proof.Machine

open Sys2Proof

/-- A bus write leaves a device that is not writeable as it is, whichever device it reaches. -/
theorem Memory.getElem?_write_of_not_writeable {m : Memory} {dev : Nat} {d : Device} (hd : m[dev]? = some d)
    (hw : d.writeable = false) (r : IoRouting) (io : Bool) (a : PhysAddr) (v : Byte) :
    (Memory.write m r io a v)[dev]? = some d := by
  cases hk : Memory.select m r io a with
  | none => rw [Memory.write_none v hk, hd]
  | some k => simp [Memory.getElem?_write v hk, hd, Device.write_of_not_writeable _ _ hw]

/-- The parameters are data that no step changes (00_scope.md R13). -/
theorem step_params {s t : State} (h : step s = .next t) : t.params = s.params := by
  rcases step_cases h with ⟨-, rfl⟩ | ⟨-, -, rfl⟩ | ⟨op, -, -, -, rfl⟩ | ⟨i, -, rfl⟩
  · rfl
  · simp [raiseFault]
  · simp [privilegeFault, raiseFault]
  · simp [(effect_platform i _).1]

theorem step_samePlatform {s t : State} (h : step s = .next t) : samePlatform s t :=
  ⟨step_params h, step_mem_induction (P := fun m => m.map Device.shape = s.mem.map Device.shape)
    (fun m r io a v hm => (Memory.map_shape_write m r io a v).trans hm) h rfl⟩

theorem step_keeps_not_writeable {s t : State} (h : step s = .next t) {dev : Nat} {d : Device}
    (hd : s.mem[dev]? = some d) (hw : d.writeable = false) : t.mem[dev]? = some d :=
  step_mem_induction (P := fun m => m[dev]? = some d)
    (fun _ r io a v hm => Memory.getElem?_write_of_not_writeable hm hw r io a v) h hd

/-- Settles O46: a step changes the devices by bus writes only, and each keeps the shapes and the devices that are
not writeable. -/
theorem readOnlyDevicesNeverChange : Obligations.ReadOnlyDevicesNeverChange :=
  fun _ _ h => ⟨step_samePlatform h, fun _ _ hd hw => step_keeps_not_writeable h hd hw⟩

end Sys2Proof.Machine

/-! Lazy and eager reading of unwritten cells (20_memory.md R86, R88). -/

namespace Sys2Proof.Machine

open Sys2Proof

/-- The relation between the lazy device and the eager one: they differ only in that the lazy one may list
power-on bytes it has drawn, so every cell holds the same byte in both. -/
structure SameBytes (dev : Nat) (d e : Device) : Prop where
  shape : d.shape = e.shape
  byteAt : ∀ a, d.byteAt dev a = e.byteAt dev a

/-- A write puts the same byte into both devices, or is refused by both. -/
theorem SameBytes.write {dev : Nat} {d e : Device} (h : SameBytes dev d e) (a : Nat) (v : Byte) :
    SameBytes dev (d.write a v) (e.write a v) := by
  refine ⟨by simpa using h.shape, fun b => ?_⟩
  by_cases hb : b = a
  · subst hb
    have hw := Device.writeable_of_shape h.shape
    have hr := Device.inRange_of_shape h.shape b
    by_cases hacc : e.writeable = true ∧ e.inRange b = true
    · rw [Device.byteAt_write_same dev b v (hw.trans hacc.1) (hr.trans hacc.2),
        Device.byteAt_write_same dev b v hacc.1 hacc.2]
    · simpa [Device.write, hw, hr, hacc] using h.byteAt b
  · rw [Device.byteAt_write_other dev v hb, Device.byteAt_write_other dev v hb, h.byteAt b]

/-- Caching the power-on byte of a cell that is not listed changes no cell's byte. -/
theorem Device.byteAt_cache_powerOnByte {d : Device} (dev : Nat) {a : Nat} (h : cellGet d.cells a = none) (b : Nat) :
    Device.byteAt { d with cells := cellPut d.cells a (Config.powerOnByte dev a) } dev b = d.byteAt dev b := by
  by_cases hb : b = a
  · subst hb
    simp [Device.byteAt, cellGet_put_same, h]
  · simp [Device.byteAt, cellGet_put_other _ _ hb]

/-- A lazy read that draws the power-on byte answers the eager byte and leaves a device with the same bytes. -/
theorem Device.readLazy_powerOnByte (d : Device) (dev a : Nat) (hr : d.readable = true) (ha : d.inRange a = true) :
    (d.readLazy a (Config.powerOnByte dev a)).1 = d.byteAt dev a
      ∧ SameBytes dev (d.readLazy a (Config.powerOnByte dev a)).2 d := by
  cases hc : cellGet d.cells a with
  | some v =>
    have hlazy : d.readLazy a (Config.powerOnByte dev a) = (v, d) := by simp [Device.readLazy, hr, ha, hc]
    rw [hlazy]
    exact ⟨by simp [Device.byteAt, hc], rfl, fun _ => rfl⟩
  | none =>
    have hlazy : d.readLazy a (Config.powerOnByte dev a) = (Config.powerOnByte dev a,
        { d with cells := cellPut d.cells a (Config.powerOnByte dev a) }) := by simp [Device.readLazy, hr, ha, hc]
    rw [hlazy]
    exact ⟨by simp [Device.byteAt, hc], rfl, Device.byteAt_cache_powerOnByte dev hc⟩

/-- The simulation: from devices with the same bytes the two readings answer alike, access by access. -/
theorem lazyReads_eq_eagerReads {dev : Nat} (l : List DeviceAccess) {d e : Device} (h : SameBytes dev d e)
    (hr : e.readable = true) (hl : e.readsInRange l = true) : Device.lazyReads dev l d = Device.eagerReads dev l e := by
  induction l generalizing d e with
  | nil => rfl
  | cons x rest ih =>
    cases x with
    | read a =>
      obtain ⟨ha, hrest⟩ : e.inRange a = true ∧ e.readsInRange rest = true := by
        simpa [Device.readsInRange] using hl
      obtain ⟨hbyte, hsame⟩ := Device.readLazy_powerOnByte d dev a ((Device.readable_of_shape h.shape).trans hr)
        ((Device.inRange_of_shape h.shape a).trans ha)
      have hnext : SameBytes dev _ e := ⟨hsame.shape.trans h.shape, fun b => (hsame.byteAt b).trans (h.byteAt b)⟩
      simp only [Device.lazyReads, Device.eagerReads, hbyte, h.byteAt a, ih hnext hr hrest]
    | write a v =>
      have hshape := Device.shape_write e a v
      have hrest : (e.write a v).readsInRange rest = true := by
        simpa [Device.readsInRange, Device.inRange_of_shape hshape] using hl
      exact ih (h.write a v) ((Device.readable_of_shape hshape).trans hr) hrest

/-- Settles O55: a device has its own bytes. -/
theorem lazyReadsAreEagerReads : Obligations.LazyReadsAreEagerReads :=
  fun _ l _ hr hl => lazyReads_eq_eagerReads l ⟨rfl, fun _ => rfl⟩ hr hl

end Sys2Proof.Machine

/-! Images at power-on (20_memory.md R89, R117). -/

namespace Sys2Proof.Machine

open Sys2Proof

@[simp] theorem Device.shape_loadImage (d : Device) (a : Nat) (image : List Byte) :
    (d.loadImage a image).shape = d.shape := by
  induction image generalizing d a with
  | nil => rfl
  | cons v vs ih => exact (ih (d.load a v) (a + 1)).trans (Device.shape_load d a v)

theorem Device.byteAt_load_same {d : Device} (dev : Nat) {a : Nat} (v : Byte) (hr : d.inRange a = true) :
    (d.load a v).byteAt dev a = v := by
  simp [Device.load, Device.byteAt, hr, cellGet_put_same]

theorem Device.byteAt_load_other {d : Device} (dev : Nat) {a b : Nat} (v : Byte) (h : b ≠ a) :
    (d.load a v).byteAt dev b = d.byteAt dev b := by
  unfold Device.load
  split <;> simp [Device.byteAt, cellGet_put_other _ _ h]

/-- An image leaves the cells below its base alone. -/
theorem Device.byteAt_loadImage_below (d : Device) (dev a : Nat) (image : List Byte) {b : Nat} (h : b < a) :
    (d.loadImage a image).byteAt dev b = d.byteAt dev b := by
  induction image generalizing d a with
  | nil => rfl
  | cons v vs ih => exact (ih (d.load a v) (a + 1) (by omega)).trans (Device.byteAt_load_other dev v (by omega))

/-- Byte `k` of an image stands `k` places above its base, where the range holds that place. -/
theorem Device.byteAt_loadImage (d : Device) (dev a : Nat) (image : List Byte) {k : Nat} (hk : k < image.length)
    (hr : d.inRange (a + k) = true) : (d.loadImage a image).byteAt dev (a + k) = image[k] := by
  induction image generalizing d a k with
  | nil => simp at hk
  | cons v vs ih =>
    cases k with
    | zero =>
      exact (Device.byteAt_loadImage_below _ dev (a + 1) vs (by omega)).trans (Device.byteAt_load_same dev v hr)
    | succ k =>
      have hr' : (d.load a v).inRange (a + 1 + k) = true := by
        rw [Device.inRange_of_shape (Device.shape_load d a v), Nat.add_right_comm]
        exact hr
      simpa [Device.loadImage, Nat.add_comm, Nat.add_left_comm] using ih (d.load a v) (a + 1) (by simpa using hk) hr'

/-- What device `j` is after an image is loaded at the base of device `k`. -/
theorem Memory.getElem?_loadImage {m : Memory} {r : IoRouting} {a : PhysAddr} {k : Nat} (image : List Byte)
    (h : Memory.select m r false a = some k) (j : Nat) :
    (Memory.loadImage m r a image)[j]? = if k = j then (m[j]?).map fun d => d.loadImage d.low image else m[j]? := by
  simp only [Memory.loadImage, h, List.getElem?_modify]
  split <;> cases m[j]? <;> simp_all

@[simp] theorem Memory.map_shape_loadImage (m : Memory) (r : IoRouting) (a : PhysAddr) (image : List Byte) :
    (Memory.loadImage m r a image).map Device.shape = m.map Device.shape := by
  unfold Memory.loadImage
  split
  · rfl
  · exact Memory.map_shape_modify m _ _ fun d => Device.shape_loadImage d _ image

/-- Loading an image does not change what is selected. -/
@[simp] theorem Memory.select_loadImage (m : Memory) (r r' : IoRouting) (io : Bool) (a b : PhysAddr)
    (image : List Byte) : Memory.select (Memory.loadImage m r a image) r' io b = Memory.select m r' io b :=
  Memory.select_congr (Memory.map_shape_loadImage m r a image) r' io b

/-- A read of a place in a readable device's image answers the image's byte. -/
theorem Memory.read_of_image {m : Memory} {r : IoRouting} {io : Bool} {a : PhysAddr} {dev k : Nat} {d : Device}
    {image : List Byte} (hsel : Memory.select m r io a = some dev) (hdev : m[dev]? = some (d.loadImage d.low image))
    (hreadable : d.readable = true) (ha : a.toNat = d.low + k) (hk : k < image.length)
    (hr : d.inRange (d.low + k) = true) : Memory.read m r io a = image[k]? := by
  have hreadable' : (d.loadImage d.low image).readable = true :=
    (Device.readable_of_shape (Device.shape_loadImage d d.low image)).trans hreadable
  rw [Memory.read_eq hsel hdev, if_pos hreadable', ha, List.getElem?_eq_getElem hk, Memory.cell, hdev]
  exact congrArg some (Device.byteAt_loadImage d dev d.low image hk hr)

/-- The devices of the default platform after power-on: the program in the program store, the vectors in RAM0. -/
theorem powerOn_default_devices (program vectors : List Byte) (d : ResetDraws) :
    (powerOn defaultParams defaultMemory program vectors d).mem[0]? = some (rom.loadImage rom.low program)
      ∧ (powerOn defaultParams defaultMemory program vectors d).mem[1]? = some (ram0.loadImage ram0.low vectors) := by
  have hrom : defaultMemory.select .shared false (phys defaultParams.resetCS defaultParams.resetIP) = some 0 := by
    decide
  have hram0 : (defaultMemory.loadImage .shared (phys defaultParams.resetCS defaultParams.resetIP) program).select
      .shared false 0 = some 1 := by
    rw [Memory.select_loadImage]
    decide
  have hmem : (powerOn defaultParams defaultMemory program vectors d).mem =
      (defaultMemory.loadImage .shared (phys defaultParams.resetCS defaultParams.resetIP) program).loadImage
        .shared 0 vectors := rfl
  rw [hmem, Memory.getElem?_loadImage vectors hram0, Memory.getElem?_loadImage vectors hram0,
    Memory.getElem?_loadImage program hrom, Memory.getElem?_loadImage program hrom]
  exact ⟨rfl, rfl⟩

/-- Power-on does not change what the default platform selects. -/
theorem powerOn_default_select (program vectors : List Byte) (d : ResetDraws) (io : Bool) (a : PhysAddr) :
    (powerOn defaultParams defaultMemory program vectors d).mem.select .shared io a =
      defaultMemory.select .shared io a := by
  simp [powerOn, onReset]

/-- The program store answers its range on the default platform (R116). -/
theorem defaultMemory_select_rom {a : PhysAddr} (h : rom.inRange a.toNat = true) :
    defaultMemory.select .shared false a = some 0 := by
  simp [Memory.select, defaultMemory, List.findIdx?_cons, Device.routed, h]

/-- RAM0 answers its range on the default platform, where the program store's range does not reach (R116). -/
theorem defaultMemory_select_ram0 {a : PhysAddr} (h : ram0.inRange a.toNat = true) :
    defaultMemory.select .shared false a = some 1 := by
  have hrom : rom.inRange a.toNat = false := by
    rw [Bool.eq_false_iff, Ne, Device.inRange_iff]
    rw [Device.inRange_iff] at h
    simp only [rom, ram0] at h ⊢
    omega
  simp [Memory.select, defaultMemory, List.findIdx?_cons, Device.routed, h, hrom]

theorem rom_inRange {k : Nat} (h : k < 0x10000) : rom.inRange (rom.low + k) = true := by
  simp only [Device.inRange_iff, rom]
  omega

theorem ram0_inRange {k : Nat} (h : k < 0x8000) : ram0.inRange (ram0.low + k) = true := by
  simp only [Device.inRange_iff, ram0]
  omega

/-- Settles O56: an image that fits its device lies in its range, and a read there selects that device. -/
theorem powerOnLoadsImages : Obligations.PowerOnLoadsImages := by
  intro program vectors d k
  obtain ⟨hprogram, hvectors⟩ := powerOn_default_devices program vectors d
  constructor
  · intro hlen hk
    have hr := rom_inRange (k := k) (by omega)
    have ha : (BitVec.ofNat 20 (0xF0000 + k)).toNat = rom.low + k := by
      simp only [BitVec.toNat_ofNat, rom]
      omega
    refine Memory.read_of_image ?_ hprogram rfl ha hk hr
    rw [powerOn_default_select, defaultMemory_select_rom (by rwa [ha])]
  · intro hlen hk
    have hr := ram0_inRange (k := k) (by omega)
    have ha : (BitVec.ofNat 20 k).toNat = ram0.low + k := by
      simp only [BitVec.toNat_ofNat, ram0]
      omega
    refine Memory.read_of_image ?_ hvectors rfl ha hk hr
    rw [powerOn_default_select, defaultMemory_select_ram0 (by rwa [ha])]

end Sys2Proof.Machine

/-! The bus trace of IN and OUT (20_memory.md R81, R82, R120; 40_fetch.md R182 to R197): what one clock shows on the
bus, then the accesses of each phase, then the whole instruction. -/

namespace Sys2Proof.Machine

open Sys2Proof

/-! ### Traces and single clocks -/

theorem busTrace_add (a b : Nat) (s : State) : busTrace (a + b) s = busTrace a s ++ busTrace b (clocks a s) := by
  induction a generalizing s with
  | zero => simp [busTrace, clocks]
  | succ a ih =>
    rw [Nat.add_right_comm]
    simp only [busTrace, clocks, ih, List.append_assoc]

/-- Without a strobe there is no access to show. -/
theorem State.busEvent_of_calm {s : State} (h : s.calm) : s.busEvent = none := by
  obtain ⟨hmemr, hmemw, hior, hiow⟩ := h
  simp [State.busEvent, hmemr, hmemw, hior, hiow]

/-- A clock whose transition asserts no strobe is that transition. -/
theorem clock_eq_of_calm {s t : State} (hh : s.micro.halted = false) (ht : transition s = t) (hc : t.calm) :
    clock s = t := by
  obtain ⟨hmemr, hmemw, hior, hiow⟩ := hc
  simp only [clock, hh, Bool.false_eq_true, if_false, ht]
  exact busAccess_calm hmemr hmemw hior hiow

/-- The three clocks of a bus read (R182), set up, strobe and latch, show one read, at the address set up. -/
theorem busTrace_read {s t : State} {io : Bool} {m : MicroState} (hset : clock s = t) (hc : t.calm)
    (hh : t.micro.halted = false) (hstrobe : transition t = (t.strobeRead io).goto m)
    (hlatch : (clock (clock t)).calm) : busTrace 3 s = [⟨io, false, t.bus.mar, t.answer io t.bus.mar⟩] := by
  have hread : (clock t).busEvent = some ⟨io, false, t.bus.mar, t.answer io t.bus.mar⟩ := by
    have hclock : clock t = busAccess ((t.goto m).strobeRead io) := by
      simp only [clock, hh, Bool.false_eq_true, if_false, hstrobe]
      rfl
    rw [hclock, busAccess_strobeRead]
    cases io <;> rfl
  simp only [busTrace, hset, State.busEvent_of_calm hc, State.busEvent_of_calm hlatch, hread, Option.toList_none,
    Option.toList_some, List.nil_append, List.append_nil]

/-- The two clocks of a bus write (R182), set up and strobe, show one write, of the byte set up. -/
theorem busTrace_write {s t : State} {io : Bool} {m : MicroState} (hset : clock s = t) (hc : t.calm)
    (hh : t.micro.halted = false) (hstrobe : transition t = (t.strobeWrite io).goto m) :
    busTrace 2 s = [⟨io, true, t.bus.mar, t.bus.mbr⟩] := by
  have hwrite : (clock t).busEvent = some ⟨io, true, t.bus.mar, t.bus.mbr⟩ := by
    have hclock : clock t = busAccess ((t.goto m).strobeWrite io) := by
      simp only [clock, hh, Bool.false_eq_true, if_false, hstrobe]
      rfl
    rw [hclock, busAccess_strobeWrite]
    cases io <;> rfl
  simp only [busTrace, hset, State.busEvent_of_calm hc, hwrite, Option.toList_none, Option.toList_some,
    List.nil_append, List.append_nil]

/-! ### Opcode fetch -/

/-- `FETCH_LATCH` deasserts every strobe (R183). -/
theorem latchOpcode_calm (s : State) : (latchOpcode s).calm := by
  simp only [latchOpcode]
  split
  · exact ⟨rfl, rfl, rfl, rfl⟩
  · split
    · exact ⟨rfl, rfl, rfl, rfl⟩
    · split <;> exact ⟨rfl, rfl, rfl, rfl⟩

theorem clock_fetchLatch_calm {s : State} (hs : s.micro.star = .fetchLatch) (hh : s.micro.halted = false) :
    (clock s).calm := by
  rw [clock_eq_of_calm (t := latchOpcode s) hh (by simp only [transition, hs]) (latchOpcode_calm s)]
  exact latchOpcode_calm s

/-- The fetch of an opcode is one read at CS:IP with the memory strobe. -/
theorem busTrace_fetch {s : State} (hs : s.micro.star = .fetchAddr) (hh : s.micro.halted = false) :
    busTrace 3 s = [⟨false, false, phys s.regs.cs s.regs.ip, s.answer false (phys s.regs.cs s.regs.ip)⟩] := by
  obtain ⟨r, f, ⟨mar, mbr, dir, a, b, c, d⟩, l, ⟨st, mjr, h, t⟩, q, m, p, n⟩ := s
  subst hs hh
  refine busTrace_read (clock_fetchAddr ..) ⟨rfl, rfl, rfl, rfl⟩ rfl rfl ?_
  rw [clock_fetchBus]
  exact clock_fetchLatch_calm rfl rfl

/-! ### Operand bytes -/

/-- The latch of an operand byte writes the decode latches only. -/
theorem latchOperand_eq_setLatch (k : Nat) (b : Byte) (s : State) : ∃ l, latchOperand k b s = s.setLatch l := by
  simp only [latchOperand]
  cases formatOf s.latch.opcode
  case f7 =>
    simp only
    split <;> exact ⟨_, rfl⟩
  case f0 | f1 | f2 => exact ⟨s.latch, rfl⟩
  case f3 | f4 | f5 | f6 => exact ⟨_, rfl⟩

/-- `CODE_LATCH_k` deasserts every strobe (R183). -/
theorem codeLatch_calm (k : Fin 4) (s : State) : (codeLatch k s).calm := by
  obtain ⟨l, hl⟩ := latchOperand_eq_setLatch k.val s.bus.mbr s.quiet
  simp only [codeLatch, hl]
  split
  · exact ⟨rfl, rfl, rfl, rfl⟩
  · split <;> exact ⟨rfl, rfl, rfl, rfl⟩

theorem clock_eq_codeLatch {s : State} {k : Fin 4} (hs : s.micro.star = .codeLatch k) (hh : s.micro.halted = false) :
    clock s = codeLatch k s :=
  clock_eq_of_calm hh (by simp only [transition, hs]) (codeLatch_calm k s)

/-- The fetch of an operand byte is one read at CS:IP with the memory strobe. -/
theorem busTrace_codeAddr {u : State} (k : Fin 4) (hh : u.micro.halted = false) :
    busTrace 3 (u.goto (.codeAddr k)) = [⟨false, false, phys u.regs.cs u.regs.ip, (fetchCode8 u).1⟩] := by
  rw [fetchCode8_fst]
  obtain ⟨r, f, ⟨mar, mbr, dir, a, b, c, d⟩, l, ⟨st, mjr, h, t⟩, q, m, p, n⟩ := u
  subst hh
  refine busTrace_read (clock_codeAddr ..) ⟨rfl, rfl, rfl, rfl⟩ rfl rfl ?_
  rw [clock_codeBus, clock_eq_codeLatch rfl rfl]
  exact codeLatch_calm k _

/-- The latch of an operand byte that is not the last leads to the next one's fetch. -/
theorem codeLatch_next {s : State} {k j : Fin 4}
    (hj : nextIndex k (formatOf s.latch.opcode).operandBytes = some j) :
    ∃ l, codeLatch k s = (s.quiet.setLatch l).goto (.codeAddr j) := by
  obtain ⟨l, hl⟩ := latchOperand_eq_setLatch k.val s.bus.mbr s.quiet
  exact ⟨l, by simp only [codeLatch, hj, hl]⟩

/-- The three clocks of an operand byte that is not the last: its fetch and its latch. -/
theorem clocks_codeAddr_next {u : State} {k j : Fin 4} (hh : u.micro.halted = false)
    (hj : nextIndex k (formatOf u.latch.opcode).operandBytes = some j) :
    ∃ l, clocks 3 (u.goto (.codeAddr k)) = ((fetchCode8 u).2.setLatch l).goto (.codeAddr j) := by
  rw [fetchCode8_parts]
  obtain ⟨r, f, ⟨mar, mbr, dir, a, b, c, d⟩, l, ⟨st, mjr, h, t⟩, q, m, p, n⟩ := u
  subst hh
  simp only [State.goto, State.setMicro, clocks, clock_codeAddr, clock_codeBus]
  rw [clock_eq_codeLatch rfl rfl]
  exact codeLatch_next hj

/-- Two operand bytes are two reads at CS:IP and the place after it, with the memory strobe. -/
theorem busTrace_twoCodeBytes {u : State} {op : Op} (hh : u.micro.halted = false) (hl : u.currentOp = some op)
    (hn : op.fmt.operandBytes = 2) : busTrace 6 (u.goto (.codeAddr 0)) =
      [⟨false, false, phys u.regs.cs u.regs.ip, (codeBytes 2 u).getD 0 0⟩,
       ⟨false, false, phys u.regs.cs (u.regs.ip + 1), (codeBytes 2 u).getD 1 0⟩] := by
  have hj : nextIndex (0 : Fin 4) (formatOf u.latch.opcode).operandBytes = some 1 := by
    rw [formatOf_lookup hl, hn]
    rfl
  obtain ⟨l, hl'⟩ := clocks_codeAddr_next hh hj
  have hsecond := busTrace_codeAddr (u := (fetchCode8 u).2.setLatch l) 1 (by simpa using hh)
  rw [show 6 = 3 + 3 from rfl, busTrace_add, busTrace_codeAddr 0 hh, hl', hsecond]
  simp [codeBytes, fetchBytes, State.answer]

/-- The two code bytes of an F4 operand pass through DEST_OFF, and the data read is next (R192). -/
theorem clocks_twoCodeBytes_f4 {u : State} {op : Op} (hh : u.micro.halted = false) (hl : u.currentOp = some op)
    (hf : op.fmt = .f4) : clocks 6 (u.goto (.codeAddr 0)) =
      ((fetchBytes 2 u).2.withDestOff
        (joinBytes ((codeBytes 2 u).getD 1 0) ((codeBytes 2 u).getD 0 0))).goto .eaAddr := by
  simp only [codeBytes, fetchBytes, fetchCode8_parts]
  obtain ⟨r, f, ⟨mar, mbr, dir, a, b, c, d⟩, l, ⟨st, mjr, h, t⟩, q, m, p, n⟩ := u
  simp only [State.currentOp] at hh hl
  subst hh
  have hl' : ∀ w, lookupOp p.opcodeMap { l with destOff := w }.opcode = some op := fun _ => hl
  simp only [clocks, State.goto, State.setMicro, clock_codeAddr, clock_codeBus]
  rw [clock_codeLatch_f4_0 _ _ _ _ _ _ _ _ _ _ _ _ _ _ _ _ hl hf]
  simp only [clock_codeAddr, clock_codeBus]
  rw [clock_codeLatch_f4_1 _ _ _ _ _ _ _ _ _ _ _ _ _ _ _ _ (hl' _) hf]
  simp only [loByte_joinBytes]
  rfl

/-! ### The end of an instruction -/

/-- `EXEC_END` deasserts every strobe (R183). -/
theorem execEnd_calm {s : State} {op : Op} (ho : s.currentOp = some op) : (execEnd s).calm := by
  obtain ⟨r, f, hwrites⟩ := finalWrites_frame op s.quiet
  simp only [execEnd, ho, hwrites]
  split <;> exact ⟨rfl, rfl, rfl, rfl⟩

/-- The registers after `EXEC_END` are those of the final writes (R197). -/
theorem execEnd_regs {s : State} {op : Op} (ho : s.currentOp = some op) :
    (execEnd s).regs = (finalWrites op s.quiet).regs := by
  simp only [execEnd, ho]
  split <;> rfl

/-- `EXEC_END` makes no access (R197). -/
theorem busTrace_execEnd {s : State} {op : Op} (hs : s.micro.star = .execEnd) (hh : s.micro.halted = false)
    (ho : s.currentOp = some op) : busTrace 1 s = [] := by
  rw [busTrace, clock_execEnd ho hh hs, State.busEvent_of_calm (execEnd_calm ho)]
  rfl

/-! ### The data accesses -/

/-- The data read of IN is one read at selector 0 with the I/O strobe (R192). -/
theorem busTrace_eaAddr_inPort {t : State} (hh : t.micro.halted = false) (hl : t.currentOp = some .inPort) :
    busTrace 3 (t.goto .eaAddr) =
      [⟨true, false, phys 0 t.latch.destOff, t.answer true (phys 0 t.latch.destOff)⟩] := by
  obtain ⟨r, f, ⟨mar, mbr, dir, a, b, c, d⟩, l, ⟨st, mjr, h, tmp⟩, q, m, p, n⟩ := t
  simp only [State.currentOp] at hh hl
  subst hh
  refine busTrace_read (io := true) (m := .eaLatch) (clock_eaAddr _ _ _ _ _ _ _ _ _ _ _ _ _ _ _ _ hl)
    ⟨rfl, rfl, rfl, rfl⟩ rfl ?_ ?_
  · simp only [transition, State.currentOp, hl]
    rfl
  · rw [clock_eaBus _ _ _ _ _ _ _ _ _ _ _ _ hl, clock_eaLatch]
    exact ⟨rfl, rfl, rfl, rfl⟩

/-- The execute phase of IN makes no access, and takes SOURCE into AL (R238). -/
theorem clock_execute_inPort {t : State} (hh : t.micro.halted = false) (hl : t.currentOp = some .inPort) :
    (clock (t.goto (executeEntry .inPort))).calm
      ∧ (clock (t.goto (executeEntry .inPort))).regs.al = t.latch.source := by
  have hclock := clock_eq_of_calm (s := t.goto (executeEntry .inPort)) hh
    (transition_simple (op := .inPort) rfl rfl (by decide) (by decide) hl rfl) (execEnd_calm hl)
  rw [hclock]
  exact ⟨execEnd_calm hl, congrArg Regs.al (execEnd_regs (s := t.goto (executeEntry .inPort)) hl)⟩

/-- The data read of IN is the read of its operand phase (R192). -/
theorem clocks_eaAddr_inPort {t : State} (hh : t.micro.halted = false) (hl : t.currentOp = some .inPort) :
    clocks 3 (t.goto .eaAddr) = (readEffective true 0 t).goto t.micro.mjr := by
  simp only [readEffective, readCycle_parts]
  obtain ⟨r, f, ⟨mar, mbr, dir, a, b, c, d⟩, l, ⟨st, mjr, h, tmp⟩, q, m, p, n⟩ := t
  simp only [State.currentOp] at hh hl
  subst hh
  simp only [clocks, State.goto, State.setMicro]
  rw [clock_eaAddr _ _ _ _ _ _ _ _ _ _ _ _ _ _ _ _ hl, clock_eaBus _ _ _ _ _ _ _ _ _ _ _ _ hl, clock_eaLatch]
  rfl

/-- The execute phase of OUT is one write of AL to DEST with the I/O strobe (R239). -/
theorem busTrace_execute_outPort {t : State} (hh : t.micro.halted = false) (hl : t.currentOp = some .outPort) :
    busTrace 3 (t.goto (executeEntry .outPort)) =
      [⟨true, true, phys t.latch.destSel t.latch.destOff, t.regs.al⟩] := by
  obtain ⟨r, f, ⟨mar, mbr, dir, a, b, c, d⟩, l, ⟨st, mjr, h, tmp⟩, q, m, p, n⟩ := t
  simp only [State.currentOp] at hh hl
  subst hh
  have hset := (clock_execute_write r f mar mbr dir l q m p n a b c d hl (.inl rfl) mjr tmp).trans
    (clock_xwAddr_store r f mar mbr dir l q m p n a b c d hl (by simp) mjr tmp 0)
  have hwrite := busTrace_write (io := true) (m := .execEnd) hset ⟨rfl, rfl, rfl, rfl⟩ rfl (by
    simp only [transition, State.currentOp, hl]
    rfl)
  rw [show 3 = 2 + 1 from rfl, busTrace_add]
  simp only [clocks, State.goto, State.setMicro, executeEntry, categoryOf]
  rw [hwrite, hset, clock_xwBus _ _ _ _ _ _ _ _ _ _ _ _ hl, busTrace_execEnd (op := .outPort)]
  · rfl
  · rfl
  · rfl
  · exact hl

/-! ### The whole instruction -/

theorem State.star_of_atBoundary {s : State} (hb : s.atBoundary = true) (hh : s.micro.halted = false) :
    s.micro.star = .fetchAddr := by
  simp only [State.atBoundary, hh, Bool.and_eq_true, beq_iff_eq] at hb
  obtain ⟨⟨⟨⟨⟨⟨hstar, -⟩, -⟩, -⟩, -⟩, -⟩, -⟩ := hb
  exact hstar

/-- The state at the end of the opcode fetch of an instruction that runs, with its execute entry in MJR (R185). -/
def opcodeFetched (op : Op) (s : State) : State := (fetchOpcode s).withMjr (executeEntry op)

@[simp] theorem opcodeFetched_regs (op : Op) (s : State) :
    (opcodeFetched op s).regs = { s.regs with ip := s.regs.ip + 1 } := by simp [opcodeFetched]
@[simp] theorem opcodeFetched_micro (op : Op) (s : State) :
    (opcodeFetched op s).micro = { s.micro with mjr := executeEntry op } := by simp [opcodeFetched]

/-- An instruction that runs is the one in OPCODE after its opcode fetch. -/
theorem opcodeFetched_currentOp {s : State} {i : Instr} (h : runs s i) :
    (opcodeFetched i.op s).currentOp = some i.op := by
  obtain ⟨-, -, hl, -⟩ := runs_iff.1 h
  simpa [opcodeFetched, State.currentOp] using hl

/-- The opcode fetch of an instruction with operand bytes leads to the fetch of the first. -/
theorem clocks_fetch_codeAddr {s : State} {i : Instr} (hb : s.atBoundary = true) (hr : runs s i)
    (he : operandEntry i.op.fmt (executeEntry i.op) = .codeAddr 0) :
    clocks 3 s = (opcodeFetched i.op s).goto (.codeAddr 0) := by
  obtain ⟨hh, hblocked, -, -⟩ := runs_iff.1 hr
  have hhlt : i.op ≠ .hlt := fun h => by simp [h, operandEntry, executeEntry, categoryOf, Op.fmt] at he
  rw [clocks_fetch (State.star_of_atBoundary hb hh) hh (opcodeFetched_currentOp hr) hblocked hhlt, he]
  rfl

/-- Code reads do not change which instruction is in OPCODE. -/
@[simp] theorem fetchBytes_currentOp (n : Nat) (s : State) : (fetchBytes n s).2.currentOp = s.currentOp := by
  simp [State.currentOp]

/-- The code reads of an instruction with a 16-bit operand: its opcode, then the operand's low and high byte. -/
def codeReads (s : State) (opcode : Byte) (w : Word) : List BusEvent :=
  [⟨false, false, phys s.regs.cs s.regs.ip, opcode⟩, ⟨false, false, phys s.regs.cs (s.regs.ip + 1), loByte w⟩,
   ⟨false, false, phys s.regs.cs (s.regs.ip + 2), hiByte w⟩]

/-- The first nine clocks of an instruction with a 16-bit operand show its three code reads (R120). -/
theorem busTrace_codeReads {s : State} {i : Instr} {w : Word} (hb : s.atBoundary = true) (hr : runs s i)
    (he : operandEntry i.op.fmt (executeEntry i.op) = .codeAddr 0) (hn : i.op.fmt.operandBytes = 2)
    (hw : joinBytes ((codeBytes 2 (opcodeFetched i.op s)).getD 1 0)
      ((codeBytes 2 (opcodeFetched i.op s)).getD 0 0) = w) :
    busTrace 9 s = codeReads s (s.answer false (phys s.regs.cs s.regs.ip)) w := by
  have hh : s.micro.halted = false := hr.1
  rw [show 9 = 3 + 6 from rfl, busTrace_add, busTrace_fetch (State.star_of_atBoundary hb hh) hh,
    clocks_fetch_codeAddr hb hr he, busTrace_twoCodeBytes (by simpa using hh) (opcodeFetched_currentOp hr) hn, ← hw]
  simp [codeReads, word_add_add]

/-- The two code bytes of an instruction with one 16-bit operand are that operand (R138). -/
theorem operandWord_of_runs {s : State} {i : Instr} (hr : runs s i) {w : Word} (hi : i = .inPort w ∨ i = .outPort w) :
    joinBytes ((codeBytes 2 (opcodeFetched i.op s)).getD 1 0) ((codeBytes 2 (opcodeFetched i.op s)).getD 0 0) = w := by
  obtain ⟨-, -, -, hassemble⟩ := runs_iff.1 hr
  rcases hi with rfl | rfl
  · exact Instr.inPort.inj hassemble
  · exact Instr.outPort.inj hassemble

/-- The state of IN before its data read: the port in DEST_OFF (R192). -/
theorem clocks_code_inPort {s : State} {port : Word} (hb : s.atBoundary = true) (hr : runs s (.inPort port)) :
    clocks 9 s = ((fetchBytes 2 (opcodeFetched .inPort s)).2.withDestOff port).goto .eaAddr := by
  have hl : (opcodeFetched .inPort s).currentOp = some .inPort := opcodeFetched_currentOp hr
  have hfetch : clocks 3 s = (opcodeFetched .inPort s).goto (.codeAddr 0) := clocks_fetch_codeAddr hb hr rfl
  have hport := operandWord_of_runs hr (.inl rfl)
  simp only [Instr.op] at hport
  rw [show 9 = 3 + 6 from rfl, clocks_add, hfetch, clocks_twoCodeBytes_f4 (by simpa using hr.1) hl rfl, hport]

/-- The state of OUT before its data write: the port in DEST at selector 0 (R193). -/
theorem clocks_code_outPort {s : State} {port : Word} (hb : s.atBoundary = true) (hr : runs s (.outPort port)) :
    clocks 9 s =
      ((fetchBytes 2 (opcodeFetched .outPort s)).2.withDest 0 port).goto (executeEntry .outPort) := by
  have hl : (opcodeFetched .outPort s).currentOp = some .outPort := opcodeFetched_currentOp hr
  have hfetch : clocks 3 s = (opcodeFetched .outPort s).goto (.codeAddr 0) := clocks_fetch_codeAddr hb hr rfl
  have hport := operandWord_of_runs hr (.inr rfl)
  simp only [Instr.op] at hport
  rw [show 9 = 3 + 6 from rfl, clocks_add, hfetch, clocks_operand_f5 (by simpa using hr.1) hl rfl, hport, if_pos rfl,
    opcodeFetched_micro]

/-- IN: the code reads, then one I/O read at the port, whose byte is in AL at the end (R238). -/
theorem busTrace_inPort {s : State} {port : Word} (hb : s.atBoundary = true) (hr : runs s (.inPort port)) :
    ∃ v, busTrace 13 s =
        codeReads s (s.answer false (phys s.regs.cs s.regs.ip)) port ++ [⟨true, false, phys 0 port, v⟩]
      ∧ (clocks 13 s).regs.al = v := by
  have hl : (opcodeFetched .inPort s).currentOp = some .inPort := opcodeFetched_currentOp hr
  have hcode := clocks_code_inPort hb hr
  have hreads := busTrace_codeReads hb hr rfl rfl (operandWord_of_runs hr (.inl rfl))
  obtain ⟨t, ht⟩ : ∃ t, t = (fetchBytes 2 (opcodeFetched .inPort s)).2.withDestOff port := ⟨_, rfl⟩
  have hth : t.micro.halted = false := by simpa [ht] using hr.1
  have htl : t.currentOp = some .inPort := by rw [ht]; exact (fetchBytes_currentOp 2 _).trans hl
  have hmjr : t.micro.mjr = executeEntry .inPort := by simp [ht]
  have hport : t.latch.destOff = port := by simp [ht]
  rw [← ht] at hcode
  obtain ⟨hcalm, hal⟩ := clock_execute_inPort (t := readEffective true 0 t) (by simpa [readEffective] using hth)
    (by simpa [readEffective, State.currentOp] using htl)
  have hlast : clocks 12 s = (readEffective true 0 t).goto (executeEntry .inPort) := by
    rw [show 12 = 9 + 3 from rfl, clocks_add, hcode, clocks_eaAddr_inPort hth htl, hmjr]
  refine ⟨t.answer true (phys 0 port), ?_, ?_⟩
  · rw [show 13 = 9 + 3 + 1 from rfl, busTrace_add, busTrace_add, hreads, hcode, busTrace_eaAddr_inPort hth htl, hport,
      hlast, busTrace, busTrace, State.busEvent_of_calm hcalm]
    simp
  · rw [show 13 = 12 + 1 from rfl, clocks_add, hlast]
    exact hal.trans (by simp [readEffective, hport])

/-- OUT: the code reads, then one I/O write of AL at the port (R239). -/
theorem busTrace_outPort {s : State} {port : Word} (hb : s.atBoundary = true) (hr : runs s (.outPort port)) :
    busTrace 12 s = codeReads s (s.answer false (phys s.regs.cs s.regs.ip)) port
      ++ [⟨true, true, phys 0 port, s.regs.al⟩] := by
  have hl : (opcodeFetched .outPort s).currentOp = some .outPort := opcodeFetched_currentOp hr
  have hreads := busTrace_codeReads hb hr rfl rfl (operandWord_of_runs hr (.inr rfl))
  have hwrite := busTrace_execute_outPort (t := (fetchBytes 2 (opcodeFetched .outPort s)).2.withDest 0 port)
    (by simpa using hr.1) ((fetchBytes_currentOp 2 _).trans hl)
  rw [show 12 = 9 + 3 from rfl, busTrace_add, hreads, clocks_code_outPort hb hr, hwrite]
  simp

/-- Settles O49: the opcode byte is the byte at CS:IP, and IN's byte the one its data read answers. -/
theorem inAndOutUseIoStrobes : Obligations.InAndOutUseIoStrobes := by
  intro s port hb
  refine ⟨fun hr => ?_, fun hr => ⟨_, busTrace_outPort hb hr⟩⟩
  obtain ⟨v, htrace, hal⟩ := busTrace_inPort hb hr
  exact ⟨_, v, htrace, hal⟩

end Sys2Proof.Machine

/-! Encoding and decoding (30_encoding.md sections 1 to 3): the opcode byte, then the operand bytes, then both
directions of the round trip. -/

namespace Sys2Proof

/-! ### The opcode byte (R130, R131, R141) -/

/-- A map that meets R141 reads bytes as instructions exactly as it gives instructions bytes. -/
theorem lookupOp_eq_some_iff {m : List (Op × BitVec 5)} (h : opcodeMapWf m = true) {b : Byte} {op : Op} :
    lookupOp m b = some op ↔ byteOf m op = some b := by
  constructor
  · intro hb
    obtain ⟨low, hmem, rfl⟩ := mem_of_lookupOp hb
    exact byteOf_of_mem h hmem
  · intro hb
    obtain ⟨low, hmem, hlow⟩ := byteOf_some h op
    rw [← Option.some.inj (hlow.symm.trans hb)]
    exact lookupOp_of_mem h hmem

/-- The format bits stand above the low five bits (R131). -/
theorem opcodeByte_toNat (op : Op) (low : BitVec 5) :
    (opcodeByte op low).toNat = 32 * op.fmt.bits.toNat + low.toNat := by
  rw [opcodeByte, BitVec.toNat_append, ← Nat.shiftLeft_add_eq_or_of_lt low.isLt, Nat.shiftLeft_eq, Nat.mul_comm]

/-- The first byte's ranges, by its format bits (R130, R132): F0 to F2 lie below 0x60, F3 below 0x80, F4 to F6 below
0xE0. -/
theorem Fmt.one_add_operandBytes (f : Fmt) {n low : Nat} (hlow : low < 32) (hn : n = 32 * f.bits.toNat + low) :
    1 + f.operandBytes = if n < 0x60 then 1 else if n < 0x80 then 2 else if n < 0xE0 then 3 else 5 := by
  cases f <;> simp only [Fmt.bits, Fmt.operandBytes, BitVec.reduceToNat] at hn ⊢ <;> split_ifs <;> omega

/-! ### The operand bytes (R132 to R137) -/

/-- The instruction whose operand bytes begin a code stream, as `decode` reads it. -/
def assembleFrom (far : FarPtrLayout) (op : Op) (stream : List Byte) : Instr :=
  assemble far op (stream.getD 0 0) (stream.getD 1 0) (stream.getD 2 0) (stream.getD 3 0)

/-- Assembly reads no byte past the format's operand bytes. -/
theorem assembleFrom_take (far : FarPtrLayout) (op : Op) (stream : List Byte) :
    assembleFrom far op (stream.take op.fmt.operandBytes) = assembleFrom far op stream := by
  unfold assembleFrom
  cases op <;> simp [assemble, Op.fmt, Fmt.operandBytes]

namespace Laws.OperandRoundTrip

/-- The law of each instruction, in the order of the constructors. -/
theorem holds (i : Instr) : Statement i := by
  cases i
  exacts [nop, hlt, movAlAh, movAhAl, movAxDs, movAxSs, movAxSp, movAxDi, movDsAx, movSsAx, movSpAx, movDiAx, movCsAx,
    pushAl, popAl, notAl, shl, sal, shr, sar, ret, retf, iret, cli, sti, ldpsr, stum,
    ldDi, addDi, subDi, andDi, orDi, cmpDi, stDi,
    ldImm _, addImm _, subImm _, andImm _, orImm _, cmpImm _, intImm _,
    ldD16 _, addD16 _, subD16 _, andD16 _, orD16 _, cmpD16 _, inPort _, stD16 _, outPort _,
    jmp _, je _, jne _, ja _, jae _, jb _, jbe _, jg _, jge _, jl _, jle _, jo _, jno _, js _, jns _, call _,
    jmpf _ _, callf _ _]

end Laws.OperandRoundTrip

@[simp] theorem Instr.operands_length (far : FarPtrLayout) (i : Instr) :
    (i.operands far).length = i.op.fmt.operandBytes :=
  (Laws.OperandRoundTrip.holds i far).1

/-- The operand bytes of an instruction assemble to it, whatever follows them in the code stream. -/
theorem assembleFrom_operands_append (far : FarPtrLayout) (i : Instr) (rest : List Byte) :
    assembleFrom far i.op (i.operands far ++ rest) = i := by
  rw [← assembleFrom_take, List.take_left' (i.operands_length far)]
  exact (Laws.OperandRoundTrip.holds i far).2

/-- The four bytes of a far pointer come back in their places, under either layout (R137). -/
@[simp] theorem farBytes_selector_offset (far : FarPtrLayout) (b1 b2 b3 b4 : Byte) :
    farBytes far (farSelector far b1 b2 b3 b4) (farOffset far b1 b2 b3 b4) = [b1, b2, b3, b4] := by
  cases far <;> simp [farBytes, farSelector, farOffset]

/-- No operand bit is dropped: what was assembled has the bytes it was assembled from. -/
theorem operands_assemble (far : FarPtrLayout) (op : Op) (b1 b2 b3 b4 : Byte) :
    (assemble far op b1 b2 b3 b4).operands far = [b1, b2, b3, b4].take op.fmt.operandBytes := by
  cases op <;> simp [assemble, Instr.operands, Op.fmt, Fmt.operandBytes]

theorem Fmt.operandBytes_le (f : Fmt) : f.operandBytes ≤ 4 := by cases f <;> decide

/-- The operand bytes of what a long enough code stream assembles to are the stream's first bytes. -/
theorem operands_assembleFrom (far : FarPtrLayout) {op : Op} {stream : List Byte}
    (h : op.fmt.operandBytes ≤ stream.length) :
    (assembleFrom far op stream).operands far = stream.take op.fmt.operandBytes := by
  rw [assembleFrom, operands_assemble]
  have hle : op.fmt.operandBytes ≤ 4 := op.fmt.operandBytes_le
  refine List.ext_getElem (by simp [hle, h]) fun k hk hk' => ?_
  have hk4 : k < 4 := hk.trans_le (List.length_take_le' _ _)
  have hkstream : k < stream.length := hk'.trans_le (List.length_take_le' _ _)
  interval_cases k <;> simp [hkstream]

/-! ### Both directions -/

theorem encode_of_byteOf {p : Params} {i : Instr} {b : Byte} (h : byteOf p.opcodeMap i.op = some b) :
    encode p i = b :: i.operands p.farPtrLayout := by
  simp only [encode, h]

/-- Under allowed parameters every instruction has an encoding: an opcode byte of its format, then its operands. -/
theorem encode_eq {p : Params} (h : p.wf = true) (i : Instr) :
    ∃ low, byteOf p.opcodeMap i.op = some (opcodeByte i.op low)
      ∧ encode p i = opcodeByte i.op low :: i.operands p.farPtrLayout := by
  obtain ⟨low, -, hlow⟩ := byteOf_some (opcodeMapWf_of_wf h) i.op
  exact ⟨low, hlow, encode_of_byteOf hlow⟩

/-- An assigned opcode byte and enough bytes after it decode. -/
theorem decode_cons {p : Params} {b : Byte} {op : Op} {stream : List Byte} (hb : lookupOp p.opcodeMap b = some op)
    (hlen : op.fmt.operandBytes ≤ stream.length) :
    decode p (b :: stream) = .ok (assembleFrom p.farPtrLayout op stream, stream.drop op.fmt.operandBytes) := by
  simp only [decode, hb, if_neg (Nat.not_lt.2 hlen), assembleFrom]

/-- Settles O1: the opcode byte reads back by R141, and the operand bytes assemble to the instruction. -/
theorem encodeThenDecode : Obligations.EncodeThenDecode := by
  intro p i rest hp
  obtain ⟨low, hbyte, henc⟩ := encode_eq hp i
  have hlookup := (lookupOp_eq_some_iff (opcodeMapWf_of_wf hp)).2 hbyte
  rw [henc, List.cons_append, decode_cons hlookup (by simp), assembleFrom_operands_append,
    List.drop_left' (i.operands_length p.farPtrLayout)]

/-- Settles O2: a byte has one instruction, whose operand bytes are those the decoder took. -/
theorem decodeThenEncode : Obligations.DecodeThenEncode := by
  intro p bytes i rest hp hdec
  obtain ⟨b, stream, rfl, hlookup, hlen, hi, rfl⟩ := Machine.decode_ok hdec
  have hoperands : i.operands p.farPtrLayout = stream.take i.op.fmt.operandBytes :=
    (congrArg _ hi).trans (operands_assembleFrom p.farPtrLayout hlen)
  rw [encode_of_byteOf ((lookupOp_eq_some_iff (opcodeMapWf_of_wf hp)).1 hlookup), hoperands, List.cons_append,
    List.take_append_drop]

/-- Settles O6: one opcode byte and the operands of its format, which its value tells. -/
theorem lengthIsTheFormats : Obligations.LengthIsTheFormats := by
  intro p i hp
  obtain ⟨low, -, henc⟩ := encode_eq hp i
  refine ⟨?_, opcodeByte i.op low, i.operands p.farPtrLayout, henc,
    i.op.fmt.one_add_operandBytes low.isLt (opcodeByte_toNat i.op low)⟩
  rw [henc, List.length_cons, Instr.operands_length, Instr.length, Nat.add_comm]

end Sys2Proof

/-! The assembler's opcode table (30_encoding.md R140, R142). -/

namespace Sys2Proof

/-- The search for a table name finds the one instruction that has it. -/
theorem fromMnemonic_tableName (m : List (Op × BitVec 5)) (op : Op) : fromMnemonic m op.tableName = byteOf m op := by
  unfold fromMnemonic
  cases hf : Op.all.find? fun o => o.tableName == op.tableName with
  | none => simpa using List.find?_eq_none.1 hf op op.mem_all
  | some o =>
    have ho : o.tableName = op.tableName := by simpa using List.find?_some hf
    rw [Op.tableName_inj ho, Option.bind_some]

theorem fromMnemonic_of_no_tableName (m : List (Op × BitVec 5)) {text : String} (h : ∀ op : Op, op.tableName ≠ text) :
    fromMnemonic m text = none := by
  have hf : (Op.all.find? fun op => op.tableName == text) = none := by simpa using fun op _ => h op
  rw [fromMnemonic, hf, Option.bind_none]

theorem toMnemonic_of_lookupOp {m : List (Op × BitVec 5)} {b : Byte} {op : Op} (h : lookupOp m b = some op) :
    toMnemonic m b = op.tableName := by
  simp only [toMnemonic, h]

theorem toMnemonic_of_unassigned {m : List (Op × BitVec 5)} {b : Byte} (h : lookupOp m b = none) :
    toMnemonic m b = "unknown" := by
  simp only [toMnemonic, h]

/-- Settles O5: names are unique, and a byte's instruction has that byte. -/
theorem mnemonicTableRoundTrip : Obligations.MnemonicTableRoundTrip := by
  intro p hp
  refine ⟨fun b op hb => ?_, fun b hb => toMnemonic_of_unassigned hb, fun text h => fromMnemonic_of_no_tableName _ h⟩
  have hname := toMnemonic_of_lookupOp hb
  refine ⟨hname, ?_⟩
  rw [hname, fromMnemonic_tableName, (lookupOp_eq_some_iff (opcodeMapWf_of_wf hp)).1 hb]

end Sys2Proof

/-! The default opcode map (30_encoding.md R140, R143). -/

namespace Sys2Proof

/-- Settles O3, by decoding each word. -/
theorem decodeOfSpecWords : Obligations.DecodeOfSpecWords := by
  unfold Obligations.DecodeOfSpecWords
  decide

/-- Settles O4, by looking up each of the 256 bytes. -/
theorem invalidBytesOfDefaultMap : Obligations.InvalidBytesOfDefaultMap := by
  unfold Obligations.InvalidBytesOfDefaultMap
  decide

end Sys2Proof

/-! Between two instructions (40_fetch.md R199, R200): what a state at a boundary is, and that interrupt entry, every
instruction and so every step lead from one boundary to the next. -/

namespace Sys2Proof.Machine

open Sys2Proof

/-! ### No strobe after a complete cycle (40_fetch.md R183) -/

theorem State.calm_of_bus {s t : State} (hb : t.bus = s.bus) (h : s.calm) : t.calm := by
  rw [State.calm, hb]
  exact h

theorem fetchOpcode_calm (s : State) : (fetchOpcode s).calm := by
  simp [fetchOpcode_parts, State.calm]

theorem fetched_calm (op : Op) (s : State) : (fetched op s).calm :=
  fetchBytes_calm _ _ (fetchOpcode_calm s)

/-- The last bus cycle of interrupt entry is a descriptor read, which ends with its strobe off (R430). -/
theorem interrupt_calm (kind : IntKind) (s : State) : (interrupt kind s).calm := by
  simp [interrupt, enterHandler, readVector, State.calm]

@[simp] theorem finalWrites_bus (op : Op) (s : State) : (finalWrites op s).bus = s.bus := by
  obtain ⟨r, f, hwrites⟩ := finalWrites_frame op s
  rw [hwrites]

@[simp] theorem finalWrites_micro (op : Op) (s : State) : (finalWrites op s).micro = s.micro := by
  obtain ⟨r, f, hwrites⟩ := finalWrites_frame op s
  rw [hwrites]

/-- An execute phase makes whole bus cycles, or only its final writes. -/
theorem act_calm (op : Op) {t : State} (h : t.calm) : (act op t).calm := by
  cases op
  case hlt => exact h
  case intImm => exact interrupt_calm .sw t
  case pushAl | popAl | ret | retf | iret | call | callf | stDi | stD16 | outPort =>
    simp [act, actPushAl, actPopAl, actRet, actRetf, returnFromInterrupt, actCall, actCallf, actStore, pop16, push16,
      State.calm]
  all_goals exact State.calm_of_bus (finalWrites_bus _ t) h

/-- No execute phase but HLT's changes micro-program control. -/
theorem act_micro {op : Op} (hn : op ≠ .hlt) (t : State) : (act op t).micro = t.micro := by
  cases op
  case hlt => exact absurd rfl hn
  case intImm => exact interrupt_micro .sw t
  case pushAl | popAl | ret | retf | iret | call | callf | stDi | stD16 | outPort =>
    simp [act, actPushAl, actPopAl, actRet, actRetf, returnFromInterrupt, actCall, actCallf, actStore]
  all_goals exact finalWrites_micro _ t

theorem effect_calm (i : Instr) {s : State} (h : s.calm) : (effect i s).calm := by
  rw [effect_eq_act]
  exact act_calm i.op (operandPhase_frame i h).1

theorem effect_micro {i : Instr} (hn : i.op ≠ .hlt) {s : State} (h : s.calm) : (effect i s).micro = s.micro := by
  obtain ⟨-, hmicro, -⟩ := operandPhase_frame i h
  rw [effect_eq_act, act_micro hn, hmicro]

@[simp] theorem boundaryCheck_irq (s : State) : (boundaryCheck s).irq = s.irq := by
  rcases boundaryCheck_cases s with h | h <;> simp [h]

/-! ### The boundary -/

/-- `atBoundary` taken apart: STAR at `FETCH_ADDR` or `HALT` as `halted` says, and nothing under way. -/
theorem State.atBoundary_iff {s : State} : s.atBoundary = true ↔
    s.micro.star = (if s.micro.halted then .halt else .fetchAddr) ∧ s.calm ∧ s.irq.ack = false
      ∧ s.micro.tmp = [] := by
  simp [State.atBoundary, State.calm, and_assoc]

/-- A transition that ends calm and leaves micro-program control but MJR, and the interrupt line, as they were, leads
from boundary to boundary. -/
theorem State.atBoundary_of_keeps {s t : State} {e : MicroState} (hc : t.calm)
    (hm : t.micro = { s.micro with mjr := e }) (hi : t.irq = s.irq) (h : s.atBoundary = true) :
    t.atBoundary = true := by
  obtain ⟨hstar, -, hack, htmp⟩ := State.atBoundary_iff.1 h
  rw [State.atBoundary_iff, hm, hi]
  exact ⟨hstar, hc, hack, htmp⟩

theorem interrupt_atBoundary (kind : IntKind) {s : State} (h : s.atBoundary = true) :
    (interrupt kind s).atBoundary = true :=
  State.atBoundary_of_keeps (interrupt_calm kind s) (interrupt_micro kind s) (interrupt_irq kind s) h

theorem boundaryCheck_atBoundary {s : State} (h : s.atBoundary = true) : (boundaryCheck s).atBoundary = true := by
  rcases boundaryCheck_cases s with hb | hb <;> rw [hb]
  · exact h
  · exact interrupt_atBoundary .hw h

/-- A fault at the opcode fetch, of either kind, leads to its handler's boundary (R422, R424). -/
theorem raiseFault_fetchOpcode_atBoundary (v : Byte) {s : State} (h : s.atBoundary = true) :
    (raiseFault v (fetchOpcode s)).atBoundary = true :=
  interrupt_atBoundary .fault
    (State.atBoundary_of_keeps (State.calm_of_bus rfl (fetchOpcode_calm s)) (fetchOpcode_micro s)
      (fetchOpcode_irq s) h)

theorem fetched_atBoundary (op : Op) {s : State} (h : s.atBoundary = true) : (fetched op s).atBoundary = true :=
  State.atBoundary_of_keeps (fetched_calm op s) (fetched_micro op s) (fetched_irq op s) h

theorem eq_hlt_of_op {i : Instr} (h : i.op = .hlt) : i = .hlt := by
  cases i <;> cases h
  rfl

/-- HLT moves STAR and `halted` together (R381); every other effect moves neither. -/
theorem effect_atBoundary (i : Instr) {s : State} (h : s.atBoundary = true) : (effect i s).atBoundary = true := by
  obtain ⟨-, hc, hack, htmp⟩ := State.atBoundary_iff.1 h
  by_cases hn : i.op = .hlt
  · obtain rfl := eq_hlt_of_op hn
    exact State.atBoundary_iff.2 ⟨rfl, hc, hack, htmp⟩
  · exact State.atBoundary_of_keeps (effect_calm i hc) (effect_micro hn hc) (effect_platform i s).2 h

theorem step_atBoundary {s t : State} (hs : step s = .next t) (h : s.atBoundary = true) : t.atBoundary = true := by
  rcases step_cases hs with ⟨-, rfl⟩ | ⟨-, -, rfl⟩ | ⟨op, -, -, -, rfl⟩ | ⟨i, -, rfl⟩
  · exact h
  · exact raiseFault_fetchOpcode_atBoundary _ h
  · exact raiseFault_fetchOpcode_atBoundary _ h
  · exact boundaryCheck_atBoundary (effect_atBoundary i (fetched_atBoundary i.op h))

/-- Settles O44: bus writes keep the canonical form, no step changes the parameters, and every step ends at a
boundary. -/
theorem stepKeepsInvariant : Obligations.StepKeepsInvariant := by
  rintro s t ⟨hmem, hparams, hboundary⟩ hs
  refine ⟨?_, ?_, step_atBoundary hs hboundary⟩
  · exact step_mem_induction (P := fun m => Memory.wf m = true) (fun _ r io a v => Memory.wf_write r io a v) hs hmem
  · rw [step_params hs]
    exact hparams

end Sys2Proof.Machine

/-! HALT (40_fetch.md R198). -/

namespace Sys2Proof.Machine

open Sys2Proof

theorem clock_of_halted {s : State} (hh : s.micro.halted = true) : clock s = s := by
  simp [clock, hh]

theorem clocks_of_halted {s : State} (n : Nat) (hh : s.micro.halted = true) : clocks n s = s := by
  induction n with
  | zero => rfl
  | succ n ih => rw [clocks, clock_of_halted hh, ih]

/-- No clock of a halted machine shows an access, if its strobes are off to begin with. -/
theorem busTrace_of_halted {s : State} (n : Nat) (hh : s.micro.halted = true) (hc : s.calm) : busTrace n s = [] := by
  induction n with
  | zero => rfl
  | succ n ih => rw [busTrace, clock_of_halted hh, State.busEvent_of_calm hc, ih]; rfl

/-- Settles O10: neither level has a transition out of HALT. -/
theorem haltIsAbsorbing : Obligations.HaltIsAbsorbing := by
  intro s n hh
  refine ⟨step_of_halted hh, clocks_of_halted n hh, fun hb => ?_⟩
  obtain ⟨-, hc, -⟩ := State.atBoundary_iff.1 hb
  exact ⟨State.busEvent_of_calm hc, busTrace_of_halted n hh hc⟩

end Sys2Proof.Machine

/-! The strobes after a clock (40_fetch.md R183, 10_state.md R49). -/

namespace Sys2Proof.Machine

open Sys2Proof

/-- How many strobes are asserted. -/
def BusLatches.strobeCount (b : BusLatches) : Nat := b.memr.toNat + b.memw.toNat + b.ior.toNat + b.iow.toNat

theorem State.strobeCount_of_calm {s : State} (h : s.calm) : s.bus.strobeCount = 0 := by
  obtain ⟨hmemr, hmemw, hior, hiow⟩ := h
  simp [BusLatches.strobeCount, hmemr, hmemw, hior, hiow]

theorem State.strobeCount_strobeRead (s : State) (io : Bool) : (s.strobeRead io).bus.strobeCount = 1 := by
  cases io <;> rfl

theorem State.strobeCount_strobeWrite (s : State) (io : Bool) : (s.strobeWrite io).bus.strobeCount = 1 := by
  cases io <;> rfl

/-- The access that the strobes demand leaves them as they are (R180). -/
theorem busAccess_strobeCount (s : State) : (busAccess s).bus.strobeCount = s.bus.strobeCount := by
  unfold busAccess
  split
  · rfl
  · split <;> rfl

theorem writeAddr_calm (op : Op) (k : Fin 4) (s : State) : (writeAddr op k s).calm := by
  simp only [writeAddr]
  split <;> exact ⟨rfl, rfl, rfl, rfl⟩

theorem intEntry_calm (kind : IntKind) (s : State) : (intEntry kind s).calm :=
  State.calm_of_bus (s := s.quiet) (swapIfUser_bus s.quiet) ⟨rfl, rfl, rfl, rfl⟩

theorem intClear_calm (kind : IntKind) (s : State) : (intClear kind s).calm := by
  cases kind <;> exact ⟨rfl, rfl, rfl, rfl⟩

/-- `EXEC_END` deasserts every strobe, with an assigned byte in OPCODE or without (R183). -/
theorem execEnd_calm_of_any (s : State) : (execEnd s).calm := by
  cases ho : s.currentOp with
  | some op => exact execEnd_calm ho
  | none =>
    simp only [execEnd, ho]
    split <;> exact ⟨rfl, rfl, rfl, rfl⟩

/-- No execute entry asserts a strobe: each sets up a cycle or makes none. -/
theorem executeState_calm (c : Category) (s : State) : (executeState c s).calm := by
  cases ho : s.currentOp with
  | none =>
    simp only [executeState, ho]
    exact execEnd_calm_of_any s
  | some op =>
    cases c <;> simp only [executeState, ho]
    case store | push | call => exact writeAddr_calm op 0 s
    case pop | ret | returnFromInterrupt => exact ⟨rfl, rfl, rfl, rfl⟩
    case softwareInterrupt => exact intEntry_calm .sw s
    case registerMove | alu | load | jump | flagBit | registerSwap => exact execEnd_calm_of_any s

/-- All that a transition can do to the strobes: deassert every one, or assert the one of a read or of a write and
deassert the others (R182, R183). -/
theorem transition_strobes (s : State) : (transition s).calm
    ∨ (∃ io, (transition s).bus = (s.strobeRead io).bus) ∨ ∃ io, (transition s).bus = (s.strobeWrite io).bus := by
  cases hs : s.micro.star <;> simp only [transition, hs]
  case fetchBus | codeBus | dsdiBus | eaBus | xrBus | intVecBus => exact .inr (.inl ⟨_, rfl⟩)
  case intPushBus kind k => exact .inr (.inr ⟨false, by split <;> rfl⟩)
  case xwBus k =>
    split
    · exact .inl ⟨rfl, rfl, rfl, rfl⟩
    · exact .inr (.inr ⟨_, by split <;> rfl⟩)
  case fetchLatch => exact .inl (latchOpcode_calm s)
  case codeLatch k => exact .inl (codeLatch_calm k s)
  case execute c => exact .inl (executeState_calm c s)
  case execEnd => exact .inl (execEnd_calm_of_any s)
  case intEntry kind => exact .inl (intEntry_calm kind s)
  case intClear kind => exact .inl (intClear_calm kind s)
  case xwAddr k =>
    split
    · exact .inl ⟨rfl, rfl, rfl, rfl⟩
    · exact .inl (writeAddr_calm _ k s)
  case xrLatch k =>
    split
    · exact .inl ⟨rfl, rfl, rfl, rfl⟩
    · split <;> exact .inl ⟨rfl, rfl, rfl, rfl⟩
  case intVecLatch k => split <;> exact .inl ⟨rfl, rfl, rfl, rfl⟩
  case fetchAddr | codeAddr | dsdiAddr | dsdiLatch | f2Set | eaAddr | eaLatch | xrAddr | intPushAddr | intVecAddr
      | intEnd | halt => exact .inl ⟨rfl, rfl, rfl, rfl⟩

theorem transition_strobeCount_le (s : State) : (transition s).bus.strobeCount ≤ 1 := by
  rcases transition_strobes s with hc | ⟨io, hb⟩ | ⟨io, hb⟩
  · rw [State.strobeCount_of_calm hc]
    exact Nat.zero_le 1
  · rw [hb, State.strobeCount_strobeRead]
  · rw [hb, State.strobeCount_strobeWrite]

/-- Settles O47: the transition asserts at most one strobe, and the access after it none. -/
theorem atMostOneStrobe : Obligations.AtMostOneStrobe := by
  intro s hh
  have hclock : clock s = busAccess (transition s) := by simp [clock, hh]
  rw [hclock]
  exact (busAccess_strobeCount _).trans_le (transition_strobeCount_le s)

end Sys2Proof.Machine

/-! The two levels agree (40_fetch.md R200, 70_reset_and_hazards.md R492, R493): the clocks of each of the things a
step can do. -/

namespace Sys2Proof.Machine

open Sys2Proof

/-! ### What a step fetches -/

theorem fetchInstr_of_halted {s : State} (hh : s.micro.halted = true) : fetchInstr s = .done s := by
  simp [fetchInstr, hh]

theorem fetchInstr_of_invalid {s : State} (hh : s.micro.halted = false)
    (hl : lookupOp s.params.opcodeMap (s.answer false (phys s.regs.cs s.regs.ip)) = none) :
    fetchInstr s = .done (raiseFault s.params.vecInvalidOpcode (fetchOpcode s)) := by
  simp [fetchInstr, hh, hl]

theorem fetchInstr_of_blocked {s : State} {op : Op} (hh : s.micro.halted = false) (hb : s.blocked op = true)
    (hl : lookupOp s.params.opcodeMap (s.answer false (phys s.regs.cs s.regs.ip)) = some op) :
    fetchInstr s = .done (privilegeFault (fetchOpcode s)) := by
  simp [fetchInstr, hh, hl, hb]

theorem fetchInstr_of_runs {s : State} {i : Instr} (hr : runs s i) : fetchInstr s = .run i (fetched i.op s) := by
  obtain ⟨hh, hb, hl, hi⟩ := runs_iff.1 hr
  simp only [fetchInstr, hh, fetchOpcode_opcode, hl, fetchOpcode_blocked, hb, Bool.false_eq_true, if_false, hi]
  rfl

theorem exec_of_runs {s : State} {i : Instr} (hr : runs s i) :
    exec i (fetched i.op s) = .next (effect i (fetched i.op s)) :=
  exec_of_not_blocked (by rw [fetched_blocked]; exact hr.2.1)

/-- Every step answers a next state: neither the fetch nor a meaning answers anything else. -/
theorem step_next (s : State) : ∃ t, step s = .next t := by
  cases hf : fetchInstr s with
  | done t => exact ⟨t, by simp only [step, hf]⟩
  | run i t =>
    obtain ⟨u, hu⟩ := exec_next i t
    exact ⟨boundaryCheck u, by simp only [step, hf, hu]⟩

/-! ### The clocks of an instruction that runs -/

/-- The instruction in OPCODE after the fetch is the one the map gives the byte at CS:IP (R184, R185). -/
theorem fetchOpcode_currentOp (s : State) :
    (fetchOpcode s).currentOp = lookupOp s.params.opcodeMap (s.answer false (phys s.regs.cs s.regs.ip)) := by
  simp [State.currentOp]

/-- The count of R492 is that of its three phases. -/
theorem instrClocks_eq {op : Op} (hn : op ≠ .hlt) : instrClocks op = 3 + operandClocks op.fmt + execClocks op := by
  cases op
  case hlt => exact absurd rfl hn
  all_goals rfl

/-- The operand phase of an instruction that runs, after its opcode fetch. -/
theorem clocks_operand_of_runs {s : State} {i : Instr} (hr : runs s i) :
    clocks (operandClocks i.op.fmt)
        ((opcodeFetched i.op s).goto (operandEntry i.op.fmt (executeEntry i.op))) =
      (operandPhase i (fetched i.op s)).goto (executeEntry i.op) := by
  obtain ⟨hh, -, -, hi⟩ := runs_iff.1 hr
  have hphase := clocks_operand (u := opcodeFetched i.op s) (State.calm_of_bus rfl (fetchOpcode_calm s))
    (by simpa using hh) (opcodeFetched_currentOp hr)
  rw [opcodeFetched_micro] at hphase
  refine hphase.trans (congrArg (fun j => (operandPhase j (fetched i.op s)).goto (executeEntry i.op)) ?_)
  refine Eq.trans ?_ hi
  simp only [fetchOperands, opcodeFetched, codeBytes, State.withMjr, State.setMicro_params]

/-- The fetch and the operand phase of an instruction that runs, up to its execute entry, HLT aside. -/
theorem clocks_to_execute {s : State} {i : Instr} (hb : s.atBoundary = true) (hr : runs s i) (hn : i.op ≠ .hlt) :
    clocks (3 + operandClocks i.op.fmt) s = (operandPhase i (fetched i.op s)).goto (executeEntry i.op) := by
  obtain ⟨hh, hblocked, hl, -⟩ := runs_iff.1 hr
  have hfetch : clocks 3 s = (opcodeFetched i.op s).goto (operandEntry i.op.fmt (executeEntry i.op)) :=
    clocks_fetch (State.star_of_atBoundary hb hh) hh ((fetchOpcode_currentOp s).trans hl) hblocked hn
  rw [clocks_add, hfetch, clocks_operand_of_runs hr]

/-- An instruction that runs, with the interrupt taken at its boundary, HLT aside. -/
theorem clocks_of_runs {s : State} {i : Instr} (hb : s.atBoundary = true) (hr : runs s i) (hn : i.op ≠ .hlt) :
    clocks (instrClocks i.op + if (effect i (fetched i.op s)).flags.ie && (effect i (fetched i.op s)).irq.pending
        then entryClocks else 0) s = boundaryCheck (effect i (fetched i.op s)) := by
  obtain ⟨hh, -, hl, -⟩ := runs_iff.1 hr
  obtain ⟨hcalm, hmicro, hirq, hopcode, hparams⟩ := operandPhase_frame i (fetched_calm i.op s)
  rw [fetched_micro] at hmicro
  have hlatched : (operandPhase i (fetched i.op s)).currentOp = some i.op := by
    rw [State.currentOp, hopcode, hparams, fetched_latch, fetched_params]
    exact hl
  have hrunning : (operandPhase i (fetched i.op s)).micro.halted = false := by rw [hmicro]; exact hh
  have hboundary := State.atBoundary_of_keeps hcalm hmicro (hirq.trans (fetched_irq i.op s)) hb
  obtain ⟨-, -, hack, htmp⟩ := State.atBoundary_iff.1 hboundary
  rw [instrClocks_eq hn, Nat.add_assoc, clocks_add, clocks_to_execute hb hr hn, effect_eq_act]
  exact clocks_execute hcalm hlatched hrunning htmp hack (State.star_of_atBoundary hboundary hrunning)
    (by rw [hmicro]) hn

/-- HLT parks the machine at the end of its opcode fetch, and no interrupt is taken there (R381). -/
theorem clocks_hlt {s : State} (hb : s.atBoundary = true) (hr : runs s .hlt) :
    clocks 3 s = boundaryCheck (effect .hlt (fetched .hlt s)) := by
  obtain ⟨hh, hblocked, hl, -⟩ := runs_iff.1 hr
  rw [clocks_fetch_hlt (State.star_of_atBoundary hb hh) hh ((fetchOpcode_currentOp s).trans hl) hblocked]
  rfl

/-! ### The clocks of a step -/

theorem stepClocks_of_fault {s t : State} (hh : s.micro.halted = false) (hf : fetchInstr s = .done t) :
    stepClocks s = 28 := by
  simp [stepClocks, hf, hh, faultClocks]

theorem stepClocks_of_runs {s : State} {i : Instr} (hr : runs s i) : stepClocks s =
    instrClocks i.op + if !(effect i (fetched i.op s)).micro.halted && (effect i (fetched i.op s)).flags.ie
      && (effect i (fetched i.op s)).irq.pending then entryClocks else 0 := by
  simp only [stepClocks, fetchInstr_of_runs hr, exec_of_runs hr]

/-- The reference clocks of an instruction that runs end where its step ends. -/
theorem clocks_stepClocks_of_runs {s : State} {i : Instr} (hb : s.atBoundary = true) (hr : runs s i) :
    clocks (stepClocks s) s = boundaryCheck (effect i (fetched i.op s)) := by
  rw [stepClocks_of_runs hr]
  by_cases hn : i.op = .hlt
  · obtain rfl := eq_hlt_of_op hn
    exact clocks_hlt hb hr
  · have hrunning : (effect i (fetched i.op s)).micro.halted = false := by
      rw [effect_halted hn, fetched_micro]
      exact hr.1
    simp only [hrunning, Bool.not_false, Bool.true_and]
    exact clocks_of_runs hb hr hn

/-- Settles O48: by what the step does, nothing, a fault of either kind, or an instruction that runs. -/
theorem clocksAgreeWithStep : Obligations.ClocksAgreeWithStep := by
  intro s hb
  obtain ⟨t, hs⟩ := step_next s
  obtain ⟨-, -, hack, htmp⟩ := State.atBoundary_iff.1 hb
  rw [hs]
  congr 1
  symm
  rcases step_cases hs with ⟨hh, rfl⟩ | ⟨hh, hl, rfl⟩ | ⟨op, hh, hblocked, hl, rfl⟩ | ⟨i, hr, rfl⟩
  · exact clocks_of_halted _ hh
  · rw [stepClocks_of_fault hh (fetchInstr_of_invalid hh hl)]
    exact clocks_fetch_invalid (State.star_of_atBoundary hb hh) hh htmp hack ((fetchOpcode_currentOp s).trans hl)
  · rw [stepClocks_of_fault hh (fetchInstr_of_blocked hh hblocked hl)]
    exact clocks_fetch_blocked (State.star_of_atBoundary hb hh) hh htmp hack ((fetchOpcode_currentOp s).trans hl)
      hblocked
  · exact clocks_stepClocks_of_runs hb hr

/-- Settles O7: `step_of_runs`, with the state after the fetch as the laws of `fetched` give it. -/
theorem stepRunsDecodedInstruction : Obligations.StepRunsDecodedInstruction :=
  fun s i hr => ⟨effect i (fetched i.op s), exec_of_runs hr, step_of_runs hr, fetched_regs i.op s,
    fetched_flags i.op s, fetched_mem i.op s, fetched_params i.op s, fetched_irq i.op s, fetched_latch i.op s,
    fetched_micro i.op s⟩

end Sys2Proof.Machine

/-! The move family (41_moves.md): each effect behind the privilege check, by register moves, loads and stores. -/

namespace Sys2Proof.Machine

open Sys2Proof

/-! ### AX as arithmetic on words (00_scope.md R17) -/

theorem joinBytes_eq_mul_add (hi lo : Byte) : joinBytes hi lo = hi.setWidth 16 * 256 + lo.setWidth 16 := by
  have hlo : lo.toNat < 2 ^ 8 := lo.isLt
  have hhi : hi.toNat < 2 ^ 8 := hi.isLt
  apply BitVec.eq_of_toNat_eq
  rw [joinBytes, BitVec.toNat_append, ← Nat.shiftLeft_add_eq_or_of_lt hlo, Nat.shiftLeft_eq]
  simp only [BitVec.ofNat_eq_ofNat, BitVec.toNat_add, BitVec.toNat_mul, BitVec.toNat_setWidth, BitVec.toNat_ofNat]
  omega

theorem hiByte_eq_shift (w : Word) : hiByte w = (w >>> 8).setWidth 8 :=
  BitVec.eq_of_toNat_eq (by simp [hiByte])

theorem loByte_eq_setWidth (w : Word) : loByte w = w.setWidth 8 :=
  BitVec.eq_of_toNat_eq (by simp [loByte])

/-! ### Families by what they write -/

/-- A move of a 16-bit register into AX: AH:AL takes the word it names (R228 to R232). -/
theorem effect_moveIntoAx {i : Instr} {w : Word} {s : State}
    (h : i = .movDsAx ∧ w = s.regs.ds ∨ i = .movSsAx ∧ w = s.regs.ss ∨ i = .movSpAx ∧ w = s.regs.sp
      ∨ i = .movDiAx ∧ w = s.regs.di ∨ i = .movCsAx ∧ w = s.regs.cs) : effect i s = s.withAx w := by
  rcases h with ⟨rfl, rfl⟩ | ⟨rfl, rfl⟩ | ⟨rfl, rfl⟩ | ⟨rfl, rfl⟩ | ⟨rfl, rfl⟩ <;> rfl

/-- A store's effect: one write cycle of AL at its target, after an operand phase that latches DEST alone (R236,
R237, R239). -/
theorem effect_store {i : Instr} {s : State} {io : Bool} {a : PhysAddr} (h : storeTarget i s = some (io, a)) :
    ∃ sel off, effect i s = writeCycle io a s.regs.al (s.withDest sel off) := by
  cases i <;> simp only [storeTarget, reduceCtorEq, Option.some.injEq, Prod.mk.injEq] at h
  case stDi =>
    obtain ⟨rfl, rfl⟩ := h
    exact ⟨s.regs.ds, s.regs.di, rfl⟩
  case stD16 off =>
    obtain ⟨rfl, rfl⟩ := h
    exact ⟨s.regs.ds, off, rfl⟩
  case outPort port =>
    obtain ⟨rfl, rfl⟩ := h
    exact ⟨0, port, rfl⟩

theorem effect_load_flags {i : Instr} (hi : i.op ∈ [Op.ldDi, .ldImm, .ldD16, .inPort]) (s : State) :
    (effect i s).flags = s.flags := by
  obtain ⟨u, he, -, hflags, -⟩ := effect_load hi s
  rw [he, State.withAl_flags, hflags]

theorem effect_store_flags {i : Instr} {s : State} {io : Bool} {a : PhysAddr} (h : storeTarget i s = some (io, a)) :
    (effect i s).flags = s.flags := by
  obtain ⟨sel, off, he⟩ := effect_store h
  rw [he, writeCycle_flags, State.withDest_flags]

/-- No flag is written: register moves write registers, loads AL, stores a memory byte (R221). -/
theorem effect_flags_of_moveFamily {i : Instr} (hi : i.op ∈ moveFamily) (s : State) :
    (effect i s).flags = s.flags := by
  cases i
  case movAlAh | movAhAl | movAxDs | movAxSs | movAxSp | movAxDi | movDsAx | movSsAx | movSpAx | movDiAx | movCsAx =>
    rfl
  case ldDi | ldImm | ldD16 | inPort => exact effect_load_flags (by simp [Instr.op]) s
  case stDi | stD16 | outPort => exact effect_store_flags rfl
  all_goals -- not of the family
    simp [moveFamily, Instr.op] at hi

/-! ### The obligations -/

/-- Settles O14: the operand phase latches the operand byte and changes no register, flag or device; AL takes it. -/
theorem loadsFillAl : Obligations.LoadsFillAl := by
  intro s i hi hb
  obtain ⟨u, he, hregs, hflags, hmicro, hirq, hmem, hparams⟩ := effect_load hi s
  refine ⟨u.withAl (operandByte i s), he ▸ exec_of_not_blocked hb, ?_, hflags, keepsBytes_of_mem hmem,
    keepsControl_of_mem hmicro hirq hparams hmem⟩
  rw [State.withAl_regs, hregs]

/-- Settles O15: the one write cycle stores AL at the target, where the device accepts it, and nothing else. -/
theorem storesWriteAl : Obligations.StoresWriteAl := by
  intro s i io a htarget hb
  obtain ⟨sel, off, he⟩ := effect_store htarget
  have hmem : (effect i s).mem = s.mem.write s.params.ioRouting io a s.regs.al := by
    rw [he, writeCycle_mem, State.withDest_mem, State.withDest_params]
  refine ⟨effect i s, exec_of_not_blocked hb, by simp [he], effect_store_flags htarget,
    storesOnly_of_writeAll hmem (List.nodup_singleton a), by simp [he], by simp [he], by simp [he], ?_⟩
  rw [hmem, Memory.map_shape_write]

/-- Settles O16: past the privilege check the answer is the effect, and no effect of the family writes a flag. -/
theorem moveFamilyKeepsFlags : Obligations.MoveFamilyKeepsFlags :=
  fun s i hi hb => ⟨effect i s, exec_of_not_blocked hb, effect_flags_of_moveFamily hi s⟩

/-- Settles O13: each move is one register update, with AX and its halves read as arithmetic. -/
theorem registerMovesCopy : Obligations.RegisterMovesCopy := by
  intro s
  refine ⟨exec_of_not_blocked (i := .movAlAh), exec_of_not_blocked (i := .movAhAl), fun ax hax => ?_⟩
  obtain rfl : s.regs.ax = ax := (joinBytes_eq_mul_add s.regs.ah s.regs.al).trans hax.symm
  refine ⟨exec_of_not_blocked (i := .movAxDs), exec_of_not_blocked (i := .movAxSs),
    exec_of_not_blocked (i := .movAxSp), exec_of_not_blocked (i := .movAxDi), fun i w hi hb => ?_⟩
  rw [exec_of_not_blocked hb, effect_moveIntoAx hi, ← hiByte_eq_shift, ← loByte_eq_setWidth]
  rfl

end Sys2Proof.Machine

/-! The ALU family (42_alu.md): each core as arithmetic, then the one frame that all of AL's writers share. -/

namespace Sys2Proof.Machine

open Sys2Proof

/-! ### Signed overflow of a sum (R262) -/

/-- The two ways to write the range -128 to 127 (`127 < x` and `2 ^ 7 ≤ x` are one statement about integers). -/
theorem signedOverflow_add (a b : Byte) : signedOverflow (a.toInt + b.toInt) = a.saddOverflow b := by
  simp only [signedOverflow, BitVec.saddOverflow, Bool.decide_or]
  exact Bool.or_comm _ _

/-- The OF of `addCore` as the signed overflow of the sum (R262). -/
theorem addCore_ovf (a b : Byte) (f : Flags) : (addCore a b f).2.ovf = signedOverflow (a.toInt + b.toInt) := by
  have hcarries := carries_differ_iff a b 0 (Nat.zero_le 1)
  simp only [Nat.add_zero, Nat.cast_zero, Int.add_zero] at hcarries
  rw [addCore_eq]
  exact hcarries

/-- Settles O18: the carries by `addCore_eq`, and both other readings through signed overflow. -/
theorem overflowFormsAgree : Obligations.OverflowFormsAgree := by
  intro a b f
  refine ⟨by rw [addCore_eq]; rfl, ?_, addCore_ovf a b f⟩
  rw [addCore_ovf, signedOverflow_add, BitVec.saddOverflow_eq, addCore_eq]
  rfl

/-! ### The cores -/

theorem subCore_result (mode : SubFlagMode) (a b : Byte) (f : Flags) : (subCore mode a b f).1 = a - b := by
  cases mode
  case negateThenAdd => rw [subCore_negateThenAdd]
  case invertCarryIn => rw [subCore_invertCarryIn]

theorem getLsbD_seven (a : Byte) : a.getLsbD 7 = a.msb := (BitVec.msb_eq_getLsbD_last a).symm

theorem getLsbD_zero_eq (a : Byte) : a.getLsbD 0 = decide (a.toNat % 2 = 1) := by
  rw [← BitVec.testBit_toNat, Nat.testBit_zero]

/-- Bit 6 is the sign after a left shift by one. -/
theorem getLsbD_six (a : Byte) : a.getLsbD 6 = (a <<< 1).msb := by
  simp [BitVec.msb_eq_getLsbD_last]

theorem shlCore_eq (a : Byte) (f : Flags) : shlCore a f =
    (BitVec.ofNat 8 (2 * a.toNat), arithFlags f (BitVec.ofNat 8 (2 * a.toNat)) a.msb false) := by
  rw [shlCore, shiftFlags_eq, shl_one_eq, getLsbD_seven]

/-- SAL differs from SHL in OF alone, which says that doubling changed the sign (R267). -/
theorem salCore_eq (a : Byte) (f : Flags) : salCore a f =
    (BitVec.ofNat 8 (2 * a.toNat),
      arithFlags f (BitVec.ofNat 8 (2 * a.toNat)) a.msb ((BitVec.ofNat 8 (2 * a.toNat)).msb != a.msb)) := by
  rw [salCore, shiftFlags_eq, getLsbD_six, shl_one_eq, getLsbD_seven, Bool.xor_comm]

theorem shrCore_eq (a : Byte) (f : Flags) : shrCore a f =
    (BitVec.ofNat 8 (a.toNat / 2),
      arithFlags f (BitVec.ofNat 8 (a.toNat / 2)) (decide (a.toNat % 2 = 1)) false) := by
  rw [shrCore, shiftFlags_eq, shr_one_eq, getLsbD_zero_eq]

theorem sarCore_eq (a : Byte) (f : Flags) : sarCore a f =
    (BitVec.ofInt 8 (a.toInt / 2),
      arithFlags f (BitVec.ofInt 8 (a.toInt / 2)) (decide (a.toNat % 2 = 1)) false) := by
  rw [sarCore, shiftFlags_eq, sarResult_eq, getLsbD_zero_eq]

/-! ### The frame of an ALU instruction (R260) -/

/-- The effect of `i` on `s` is an operand phase, which leaves alone what the obligations speak of, and then the
write of the result and flags `p`; the form of `effect_add`, `effect_sub`, `effect_and` and `effect_or`. -/
def EffectWritesAlu (i : Instr) (s : State) (p : Byte × Flags) : Prop :=
  ∃ u : State, effect i s = aluWrite u p ∧ u.regs = s.regs ∧ u.micro = s.micro ∧ u.irq = s.irq ∧ u.mem = s.mem
    ∧ u.params = s.params

/-- An instruction without an operand phase. -/
theorem EffectWritesAlu.of_eq {i : Instr} {s : State} {p : Byte × Flags} (h : effect i s = aluWrite s p) :
    EffectWritesAlu i s p := ⟨s, h, rfl, rfl, rfl, rfl, rfl⟩

/-- Where the privilege check lets it through, such an instruction writes AL and the flags and nothing else. -/
theorem exec_of_effectWritesAlu {i : Instr} {s : State} {p : Byte × Flags} (hb : s.blocked i.op = false)
    (h : EffectWritesAlu i s p) :
    ∃ t, exec i s = .next t ∧ t.regs = { s.regs with al := p.1 } ∧ t.flags = p.2 ∧ keepsBytes s t
      ∧ keepsControl s t := by
  obtain ⟨u, he, hregs, hmicro, hirq, hmem, hparams⟩ := h
  refine ⟨aluWrite u p, he ▸ exec_of_not_blocked hb, ?_, rfl, keepsBytes_of_mem hmem,
    keepsControl_of_mem hmicro hirq hparams hmem⟩
  rw [aluWrite, State.setFlags_regs, State.withAl_regs, hregs]

/-- AND, OR and NOT: the bitwise result with the flags of `logicFlags` (R266). -/
theorem effect_logic {s : State} {i : Instr} {r : Byte}
    (h : i.op ∈ [Op.andDi, .andImm, .andD16] ∧ r = s.regs.al &&& operandByte i s
      ∨ i.op ∈ [Op.orDi, .orImm, .orD16] ∧ r = s.regs.al ||| operandByte i s
      ∨ i = .notAl ∧ r = ~~~s.regs.al) :
    EffectWritesAlu i s (r, logicFlags s.params.logicCfOf r s.flags) := by
  rcases h with ⟨hand, rfl⟩ | ⟨hor, rfl⟩ | ⟨rfl, rfl⟩
  · exact effect_and hand s
  · exact effect_or hor s
  · exact .of_eq rfl

/-- The four shifts, each by its core's equation (R267). -/
theorem effect_shift {s : State} {i : Instr} {r : Byte} {c o : Bool}
    (h : i = .shl ∧ r = BitVec.ofNat 8 (2 * s.regs.al.toNat) ∧ c = s.regs.al.msb ∧ o = false
      ∨ i = .sal ∧ r = BitVec.ofNat 8 (2 * s.regs.al.toNat) ∧ c = s.regs.al.msb ∧ o = (r.msb != s.regs.al.msb)
      ∨ i = .shr ∧ r = BitVec.ofNat 8 (s.regs.al.toNat / 2) ∧ c = decide (s.regs.al.toNat % 2 = 1) ∧ o = false
      ∨ i = .sar ∧ r = BitVec.ofInt 8 (s.regs.al.toInt / 2) ∧ c = decide (s.regs.al.toNat % 2 = 1) ∧ o = false) :
    EffectWritesAlu i s (r, arithFlags s.flags r c o) := by
  apply EffectWritesAlu.of_eq
  rcases h with ⟨rfl, rfl, rfl, rfl⟩ | ⟨rfl, rfl, rfl, rfl⟩ | ⟨rfl, rfl, rfl, rfl⟩ | ⟨rfl, rfl, rfl, rfl⟩
  · exact congrArg (aluWrite s) (shlCore_eq s.regs.al s.flags)
  · exact congrArg (aluWrite s) (salCore_eq s.regs.al s.flags)
  · exact congrArg (aluWrite s) (shrCore_eq s.regs.al s.flags)
  · exact congrArg (aluWrite s) (sarCore_eq s.regs.al s.flags)

/-! ### The obligations -/

/-- Settles O17: the ALU frame around `addCore`, read by its equation. -/
theorem addSetsResultAndFlags : Obligations.AddSetsResultAndFlags := by
  intro s i hi hb
  have h := exec_of_effectWritesAlu hb (effect_add hi s)
  rwa [addCore_eq] at h

/-- Settles O19: the ALU frame around `subCore`, whose flags have one equation per SUB_FLAG_MODE. -/
theorem subSetsResultAndFlags : Obligations.SubSetsResultAndFlags := by
  intro s i hi hb
  obtain ⟨t, he, hregs, hflags, hbytes, hcontrol⟩ := exec_of_effectWritesAlu hb (effect_sub hi s)
  rw [subCore_result] at hregs
  refine ⟨t, he, hregs, fun hmode => ?_, fun hmode => ?_, hbytes, hcontrol⟩
  · rw [hflags, hmode, subCore_negateThenAdd]
  · rw [hflags, hmode, subCore_invertCarryIn]

/-- Settles O20: CMP sets the flags of `cmpCore` and nothing else. -/
theorem cmpSetsFlagsOnly : Obligations.CmpSetsFlagsOnly := by
  intro s i hi hb
  obtain ⟨u, he, hregs, hmicro, hirq, hmem, hparams⟩ := effect_cmp hi s
  obtain ⟨hzf, hcf, hsf, hie, hus⟩ := cmpCore_common s.params.cmpSignedMode s.regs.al (operandByte i s) s.flags
  refine ⟨u.setFlags (cmpCore s.params.cmpSignedMode s.regs.al (operandByte i s) s.flags),
    he ▸ exec_of_not_blocked hb, hregs, hzf, hcf, hsf, fun hmode => ?_, fun hmode => ?_, hie, hus,
    keepsBytes_of_mem hmem, keepsControl_of_mem hmicro hirq hparams hmem⟩
  · rw [State.setFlags_flags, hmode]
    exact cmpCore_cfOriented ..
  · rw [State.setFlags_flags, hmode]
    exact cmpCore_subOriented ..

/-- Settles O21: of what O20 says, ZF is "equal", CF "AL above" and SF against OF "AL greater"; each row of the table
is then a comparison made of these. -/
theorem jumpsAfterCmp : Obligations.JumpsAfterCmp := by
  intro s i w hi hb hmode hjbe
  obtain ⟨t, he, -, hzf, hcf, -, hsigned, -, -, -, -, -, -, hparams, -⟩ := cmpSetsFlagsOnly s i hi hb
  have hequal : t.flags.zf = true ↔ s.regs.al = operandByte i s := by rw [hzf, decide_eq_true_iff]
  have hdiffer : t.flags.zf = false ↔ s.regs.al ≠ operandByte i s := by rw [hzf, decide_eq_false_iff_not]
  have habove : t.flags.cf = true ↔ (operandByte i s).toNat < s.regs.al.toNat := by rw [hcf, decide_eq_true_iff]
  have hnotAbove : t.flags.cf = false ↔ s.regs.al.toNat ≤ (operandByte i s).toNat := by
    rw [hcf, decide_eq_false_iff_not, not_lt]
  have hgreater := hsigned hmode
  have hnotGreater : t.flags.sf = t.flags.ovf ↔ s.regs.al.toInt ≤ (operandByte i s).toInt := by
    rw [← not_iff_not, not_le]
    exact hgreater
  refine ⟨t, he, hequal, hdiffer, ?ja, hnotAbove, habove, ?jbe, ?jg, hnotGreater, hgreater, ?jle⟩
  case ja => exact (hnotAbove.and (hdiffer.trans BitVec.toNat_eq.not)).trans lt_iff_le_and_ne.symm
  case jbe =>
    rw [hparams, hjbe]
    rintro (⟨-, hc, hz⟩ | ⟨hmodes, -⟩)
    · exact (habove.1 hc).ne' (congrArg BitVec.toNat (hequal.1 hz))
    · cases hmodes
  case jg =>
    exact ((hdiffer.trans BitVec.toInt_inj.not.symm).and hnotGreater).trans (and_comm.trans lt_iff_le_and_ne.symm)
  case jle =>
    exact ((hequal.trans (eq_comm.trans BitVec.toInt_inj.symm)).or hgreater).trans le_iff_eq_or_lt.symm

/-- Settles O22: the ALU frame around AND, OR and NOT, with the flags of `logicFlags_eq`. -/
theorem logicSetsResultAndFlags : Obligations.LogicSetsResultAndFlags := by
  intro s i r hi hb
  have h := exec_of_effectWritesAlu hb (effect_logic hi)
  rwa [logicFlags_eq] at h

/-- Settles O23: the ALU frame around the four shifts. -/
theorem shiftsSetResultAndFlags : Obligations.ShiftsSetResultAndFlags :=
  fun _ _ _ _ _ hi hb => exec_of_effectWritesAlu hb (effect_shift hi)

end Sys2Proof.Machine

/-! Near jumps (43_control.md R321, R322): one effect for the fifteen, with the table's condition as its choice. -/

namespace Sys2Proof.Machine

open Sys2Proof

/-- JBE's condition under either JBE_COND (R329). -/
theorem condJbe_iff (m : JbeCond) (f : Flags) : condJbe m f = true ↔
    (m = .cfAndZf ∧ f.cf = true ∧ f.zf = true) ∨ (m = .cfOrZf ∧ (f.cf = true ∨ f.zf = true)) := by
  cases m <;> simp [condJbe]

/-- A near jump's effect: DEST takes the target, and the condition chosen by the table's row decides on IP. -/
theorem effect_nearJump {i : Instr} {target : Word} (h : nearTarget i = some target) (s : State) :
    ∃ taken : Bool, effect i s = actJump taken (operandNear target s)
      ∧ (taken = true ↔ jumpTaken i s.params.jbeCond s.flags) := by
  cases i <;> simp only [nearTarget, reduceCtorEq, Option.some.injEq] at h <;> subst h
  case jmp => exact ⟨true, rfl, iff_of_true rfl trivial⟩
  case je => exact ⟨condJe s.flags, rfl, Iff.rfl⟩
  case jne => exact ⟨condJne s.flags, rfl, by simp [condJne, jumpTaken]⟩
  case ja => exact ⟨condJa s.flags, rfl, by simp [condJa, jumpTaken]⟩
  case jae => exact ⟨condJae s.flags, rfl, by simp [condJae, jumpTaken]⟩
  case jb => exact ⟨condJb s.flags, rfl, Iff.rfl⟩
  case jbe => exact ⟨condJbe s.params.jbeCond s.flags, rfl, condJbe_iff s.params.jbeCond s.flags⟩
  case jg => exact ⟨condJg s.flags, rfl, by simp [condJg, jumpTaken]⟩
  case jge => exact ⟨condJge s.flags, rfl, by simp [condJge, jumpTaken]⟩
  case jl => exact ⟨condJl s.flags, rfl, by simp [condJl, jumpTaken]⟩
  case jle => exact ⟨condJle s.flags, rfl, by simp [condJle, jumpTaken]⟩
  case jo => exact ⟨condJo s.flags, rfl, Iff.rfl⟩
  case jno => exact ⟨condJno s.flags, rfl, by simp [condJno, jumpTaken]⟩
  case js => exact ⟨condJs s.flags, rfl, Iff.rfl⟩
  case jns => exact ⟨condJns s.flags, rfl, by simp [condJns, jumpTaken]⟩

/-- Settles O24: past the privilege check the answer is the effect, which writes IP or nothing as the table says. -/
theorem nearJumpsFollowTheTable : Obligations.NearJumpsFollowTheTable := by
  intro s i target htarget hb
  obtain ⟨taken, he, htaken⟩ := effect_nearJump htarget s
  refine ⟨effect i s, exec_of_not_blocked hb, ?_⟩
  rw [he, ← htaken]
  cases taken
  case false =>
    exact ⟨fun h => absurd h Bool.false_ne_true, fun _ => rfl, rfl, keepsBytes_of_mem rfl,
      keepsControl_of_mem rfl rfl rfl rfl⟩
  case true =>
    exact ⟨fun _ => rfl, fun h => absurd rfl h, rfl, keepsBytes_of_mem rfl, keepsControl_of_mem rfl rfl rfl rfl⟩

end Sys2Proof.Machine

/-! Pushing and popping in sequence (00_scope.md R21): the places of a push sequence, what a state that has popped some
bytes still shares with the state before, and that RAM gives pushed bytes back. -/

namespace Sys2Proof.Machine

open Sys2Proof

/-! ### Pushes -/

/-- The places of a push sequence that does not go round the whole of its selector are different. -/
theorem pushPlaces_nodup (sel off : Word) {n : Nat} (hn : n < 0x10000) :
    ((List.range' 1 n).map fun k => phys sel (off - BitVec.ofNat 16 k)).Nodup := by
  refine List.Nodup.map_on (fun j hj k hk he => ?_) List.nodup_range'
  rw [List.mem_range'_1] at hj hk
  by_contra hne
  exact phys_sub_ne sel off (by omega) (by omega) hne he

/-- Stores alone leave control and platform as they were. -/
theorem keepsControl_of_writeAll {s t : State} {io : Bool} {l : List (PhysAddr × Byte)} (hc : t.micro = s.micro)
    (hi : t.irq = s.irq) (hp : t.params = s.params) (hm : t.mem = writeAll s.params.ioRouting io l s.mem) :
    keepsControl s t := ⟨hc, hi, hp, by rw [hm, map_shape_writeAll]⟩

/-! ### Pops -/

/-- From `s` the machine has popped `k` bytes and come to `u`: SP is `k` higher, and all else but latches and draws,
which this leaves open, is as it was. -/
structure HasPopped (s : State) (k : Nat) (u : State) : Prop where
  regs : u.regs = { s.regs with sp := s.regs.sp + BitVec.ofNat 16 k }
  flags : u.flags = s.flags
  mem : u.mem = s.mem
  params : u.params = s.params
  micro : u.micro = s.micro
  irq : u.irq = s.irq

theorem HasPopped.zero (s : State) : HasPopped s 0 s := ⟨by simp, rfl, rfl, rfl, rfl, rfl⟩

theorem HasPopped.pop8 {s u : State} {k : Nat} (h : HasPopped s k u) : HasPopped s (k + 1) (pop8 u).2 := by
  obtain ⟨hregs, hflags, hmem, hparams, hmicro, hirq⟩ := h
  refine ⟨?_, by simp [hflags], by simp [hmem], by simp [hparams], by simp [hmicro], by simp [hirq]⟩
  simp [hregs, BitVec.ofNat_add, word_add_add]

theorem HasPopped.pop16 {s u : State} {k : Nat} (h : HasPopped s k u) : HasPopped s (k + 2) (pop16 u).2 := h.pop8.pop8

/-- The next byte popped is the one `k` places above SP. -/
theorem HasPopped.popsByte {s u : State} {k : Nat} (h : HasPopped s k u) : popsByte s k (Machine.pop8 u).1 := by
  rw [pop8_fst, h.regs]
  exact popsByte_of_answer k h.mem h.params

/-- Writing registers after the pops keeps flags, bytes and control. -/
theorem HasPopped.setRegs_frame {s u : State} {k : Nat} (h : HasPopped s k u) (r : Regs) :
    (u.setRegs r).flags = s.flags ∧ keepsBytes s (u.setRegs r) ∧ keepsControl s (u.setRegs r) :=
  ⟨h.flags, keepsBytes_of_mem h.mem, keepsControl_of_mem h.micro h.irq h.params h.mem⟩

/-! ### Pops after pushes -/

/-- A byte stored in RAM is what a read there answers (R119). -/
theorem read_of_storesOnly {s t : State} {io : Bool} {l : List (PhysAddr × Byte)} {a : PhysAddr} {v : Byte}
    (hstores : storesOnly s t io l) (hplatform : samePlatform s t) (hmem : (a, v) ∈ l) (hram : s.isRam io a = true) :
    t.mem.read t.params.ioRouting io a = some v := by
  obtain ⟨hparams, hshape⟩ := hplatform
  obtain ⟨dev, d, hsel, hdev, hreadable, hwriteable⟩ := State.isRam_iff.1 hram
  obtain ⟨e, he, hes⟩ := Memory.getElem?_of_map_shape hshape hdev
  have haccepts : s.accepts io a = true := by
    rw [accepts_eq hsel, hdev]
    exact hwriteable
  have hsel' : t.mem.select t.params.ioRouting io a = some dev := by
    rw [hparams, Memory.select_congr hshape, hsel]
  have hcell : t.cell dev a.toNat = v := hstores.1 (a, v) hmem dev hsel haccepts
  rw [Memory.read_eq hsel' he, if_pos ((Device.readable_of_shape hes).trans hreadable)]
  exact congrArg some hcell

/-- With SP at `n` places below where it was, the pop `k` bytes on takes the byte pushed `j = n - k` places below, if
that place lies in RAM. -/
theorem popped_eq_pushed {s t : State} {l : List (PhysAddr × Byte)} {v b : Byte} (n k j : Nat) (hn : k + j = n)
    (hstores : storesOnly s t false l) (hplatform : samePlatform s t) (hss : t.regs.ss = s.regs.ss)
    (hsp : t.regs.sp = s.regs.sp - BitVec.ofNat 16 n) (hram : stackRam s j = true)
    (hmem : (phys s.regs.ss (s.regs.sp - BitVec.ofNat 16 j), v) ∈ l) (hpop : popsByte t k b) : b = v := by
  have hplace : t.regs.sp + BitVec.ofNat 16 k = s.regs.sp - BitVec.ofNat 16 j := by
    rw [hsp, ← hn, BitVec.ofNat_add]
    bv_omega
  apply hpop
  rw [hss, hplace]
  exact read_of_storesOnly hstores hplatform hmem hram

end Sys2Proof.Machine

/-! Calls, the far jump and returns (43_control.md R338 to R344). -/

namespace Sys2Proof.Machine

open Sys2Proof

/-! ### The effects as pushes, pops and a last write of registers -/

theorem effect_call (off : Word) (s : State) :
    effect (.call off) s = (push16 s.regs.ip (s.withDest s.regs.cs off)).withIp off := rfl

theorem effect_callf (sel off : Word) (s : State) : effect (.callf sel off) s =
    ((push16 s.regs.cs (push16 s.regs.ip (s.withDest sel off))).withCs sel).withIp off := by
  simp [effect, actCallf, operandFar_eq]

theorem effect_ret (s : State) : effect .ret s =
    (pop16 s).2.setRegs { s.regs with sp := s.regs.sp + 2, ip := (pop16 s).1 } := by
  simp [effect, actRet, State.withIp]

theorem effect_retf (s : State) : effect .retf s = (pop16 (pop16 s).2).2.setRegs
    { s.regs with sp := s.regs.sp + 4, cs := (pop16 s).1, ip := (pop16 (pop16 s).2).1 } := by
  simp [effect, actRetf, State.withIp, State.withCs, State.setRegs, word_add_add]

/-! ### The obligations -/

/-- Settles O25: the pushes are a list of stores at different places, and CS:IP is written after them. -/
theorem callsAndFarJump : Obligations.CallsAndFarJump := by
  intro s sel off
  refine ⟨fun hb => ?call, fun hb => ?callf, fun hb => ?jmpf⟩
  case call =>
    have hmem : (effect (.call off) s).mem = writeAll s.params.ioRouting false
        [(phys s.regs.ss (s.regs.sp - 1), hiByte s.regs.ip), (phys s.regs.ss (s.regs.sp - 2), loByte s.regs.ip)]
        s.mem := by
      simp [effect_call, writeAll]
    exact ⟨effect (.call off) s, exec_of_not_blocked hb, by simp [effect_call], by simp [effect_call],
      keepsControl_of_writeAll (by simp [effect_call]) (by simp [effect_call]) (by simp [effect_call]) hmem,
      storesOnly_of_writeAll hmem (pushPlaces_nodup s.regs.ss s.regs.sp (n := 2) (by omega))⟩
  case callf =>
    have hmem : (effect (.callf sel off) s).mem = writeAll s.params.ioRouting false
        [(phys s.regs.ss (s.regs.sp - 1), hiByte s.regs.ip), (phys s.regs.ss (s.regs.sp - 2), loByte s.regs.ip),
         (phys s.regs.ss (s.regs.sp - 3), hiByte s.regs.cs), (phys s.regs.ss (s.regs.sp - 4), loByte s.regs.cs)]
        s.mem := by
      simp [effect_callf, writeAll, word_sub_sub]
    exact ⟨effect (.callf sel off) s, exec_of_not_blocked hb, by simp [effect_callf, word_sub_sub],
      by simp [effect_callf],
      keepsControl_of_writeAll (by simp [effect_callf]) (by simp [effect_callf]) (by simp [effect_callf]) hmem,
      storesOnly_of_writeAll hmem (pushPlaces_nodup s.regs.ss s.regs.sp (n := 4) (by omega))⟩
  case jmpf =>
    exact ⟨effect (.jmpf sel off) s, exec_of_not_blocked hb, rfl, rfl, keepsBytes_of_mem rfl,
      keepsControl_of_mem rfl rfl rfl rfl⟩

/-- Settles O26: the bytes are those of two or four pops in sequence, and CS and IP are written after them. -/
theorem returnsPop : Obligations.ReturnsPop := by
  intro s
  have h0 := HasPopped.zero s
  have h2 := h0.pop16
  have h4 := h2.pop16
  constructor
  · intro hb
    rw [exec_of_not_blocked hb, effect_ret]
    exact ⟨_, _, _, rfl, h0.popsByte, h0.pop8.popsByte, rfl, h2.setRegs_frame _⟩
  · intro hb
    rw [exec_of_not_blocked hb, effect_retf]
    exact ⟨_, _, _, _, _, rfl, h0.popsByte, h0.pop8.popsByte, h2.popsByte, h2.pop8.popsByte, rfl, h4.setRegs_frame _⟩

/-- Settles O27: CALL leaves IP's bytes in RAM where RET pops them, and SP goes down by 2 and up again. -/
theorem callThenRetRestores : Obligations.CallThenRetRestores := by
  intro s off hcall hret hram1 hram2
  obtain ⟨t, ht, hregs, hflags, ⟨-, -, hplatform⟩, hstores⟩ := (callsAndFarJump s 0 off).1 hcall
  have hret' : t.blocked .ret = false := by rw [State.blocked_congr hflags hplatform.1, hret]
  obtain ⟨u, lo, hi, hu, hlo, hhi, huregs, huflags, -, -⟩ := (returnsPop t).1 hret'
  have hpopped {k j : Nat} {v b : Byte} (hn : k + j = 2) :=
    popped_eq_pushed (v := v) (b := b) 2 k j hn hstores hplatform (by rw [hregs]) (by simp [hregs])
  obtain rfl : lo = loByte s.regs.ip := hpopped (k := 0) (j := 2) rfl hram2 (by simp) hlo
  obtain rfl : hi = hiByte s.regs.ip := hpopped (k := 1) (j := 1) rfl hram1 (by simp) hhi
  refine ⟨t, u, ht, by rw [hregs], hu, ?_, huflags.trans hflags⟩
  simp [huregs, hregs]

/-- Settles O28: CALLF leaves the bytes of IP and CS in RAM where RETF pops them, CS first. -/
theorem callfThenRetfRestores : Obligations.CallfThenRetfRestores := by
  intro s sel off hcallf hretf hram
  obtain ⟨t, ht, hregs, hflags, ⟨-, -, hplatform⟩, hstores⟩ := (callsAndFarJump s sel off).2.1 hcallf
  have hretf' : t.blocked .retf = false := by rw [State.blocked_congr hflags hplatform.1, hretf]
  obtain ⟨u, c0, c1, i0, i1, hu, hc0, hc1, hi0, hi1, huregs, huflags, -, -⟩ := (returnsPop t).2 hretf'
  have hpopped {k j : Nat} {v b : Byte} (hn : k + j = 4) :=
    popped_eq_pushed (v := v) (b := b) 4 k j hn hstores hplatform (by rw [hregs]) (by simp [hregs])
  obtain rfl : c0 = loByte s.regs.cs := hpopped (k := 0) (j := 4) rfl (hram 4 (by omega) (by omega)) (by simp) hc0
  obtain rfl : c1 = hiByte s.regs.cs := hpopped (k := 1) (j := 3) rfl (hram 3 (by omega) (by omega)) (by simp) hc1
  obtain rfl : i0 = loByte s.regs.ip := hpopped (k := 2) (j := 2) rfl (hram 2 (by omega) (by omega)) (by simp) hi0
  obtain rfl : i1 = hiByte s.regs.ip := hpopped (k := 3) (j := 1) rfl (hram 1 (by omega) (by omega)) (by simp) hi1
  refine ⟨t, u, ht, by rw [hregs], by rw [hregs], hu, ?_, huflags.trans hflags⟩
  simp [huregs, hregs]

end Sys2Proof.Machine

/-! The stack instructions (44_stack.md R361 to R364). -/

namespace Sys2Proof.Machine

open Sys2Proof

/-! ### The effects as one push and one pop -/

theorem effect_pushAl (s : State) : effect .pushAl s = push8 s.regs.al s := rfl

theorem effect_popAl (s : State) : effect .popAl s =
    (pop8 s).2.setRegs { s.regs with sp := s.regs.sp + 1, al := (pop8 s).1 } := by
  simp [effect, actPopAl, State.withAl]

/-! ### The obligations -/

/-- Settles O29: PUSH_AL is one store below SP, POP_AL takes the byte at SP and writes AL after SP has moved. -/
theorem pushAndPop : Obligations.PushAndPop := by
  intro s
  refine ⟨fun hb => ?push, fun hb => ?pop⟩
  case push =>
    have hmem : (effect .pushAl s).mem = writeAll s.params.ioRouting false
        [(phys s.regs.ss (s.regs.sp - 1), s.regs.al)] s.mem := by
      simp [effect_pushAl, writeAll]
    exact ⟨effect .pushAl s, exec_of_not_blocked hb, by simp [effect_pushAl], by simp [effect_pushAl],
      keepsControl_of_writeAll (by simp [effect_pushAl]) (by simp [effect_pushAl]) (by simp [effect_pushAl]) hmem,
      storesOnly_of_writeAll hmem (List.nodup_singleton _)⟩
  case pop =>
    have h0 := HasPopped.zero s
    rw [exec_of_not_blocked hb, effect_popAl]
    exact ⟨_, _, rfl, h0.popsByte, rfl, h0.pop8.setRegs_frame _⟩

/-- Settles O30: PUSH_AL leaves AL in RAM where POP_AL takes it, and SP goes down by 1 and up again, modulo 2^16. -/
theorem pushThenPopRestores : Obligations.PushThenPopRestores := by
  intro s hpush hpop hram
  obtain ⟨t, ht, hregs, hflags, ⟨-, -, hplatform⟩, hstores⟩ := (pushAndPop s).1 hpush
  have hpop' : t.blocked .popAl = false := by rw [State.blocked_congr hflags hplatform.1, hpop]
  obtain ⟨u, b, hu, hb, huregs, huflags, -, -⟩ := (pushAndPop t).2 hpop'
  obtain rfl : b = s.regs.al :=
    popped_eq_pushed 1 0 1 rfl hstores hplatform (by rw [hregs]) (by simp [hregs]) hram (by simp) hb
  refine ⟨t, u, ht, hu, ?_, huflags.trans hflags⟩
  simp [huregs, hregs]

end Sys2Proof.Machine

/-! Interrupt entry as the statements describe it (60_exceptions.md R430 to R433), and the instructions that enter or
that the privilege check turns into an entry (45_system.md R384, R385). -/

namespace Sys2Proof.Machine

open Sys2Proof

/-! ### What entry leaves -/

/-- Entry's stores are its frame, in push order (R430). -/
theorem interrupt_mem_eq_writeAll (kind : IntKind) (s : State) :
    (interrupt kind s).mem = writeAll s.params.ioRouting false (entryFrame s) s.mem := by
  simp [pushFrame_mem, entryFrame, writeAll]

/-- The handler that entry goes to is the descriptor as memory answers it after the pushes (R430, R431). -/
theorem interrupt_descriptor_byte (kind : IntKind) (s : State) {k : Nat} (hk : k < 4) {b : Byte}
    (h : (interrupt kind s).mem.read (interrupt kind s).params.ioRouting false
      (phys 0 (4 * (entryVector kind s).setWidth 16 + BitVec.ofNat 16 k)) = some b) :
    (readVector (entryVector kind s) (entered kind s)).1[k]? = some b := by
  apply readVector_byte _ _ hk
  rw [vectorAddr, BitVec.mul_comm]
  simpa [entered] using h

/-- Entry of any kind, from a state `u` that differs from `s` in latches and draws at most, leaves what entry through
its vector leaves from `s` (R430, R432, R433). -/
theorem interrupt_entersThrough {s u : State} (kind : IntKind) (hregs : u.regs = s.regs) (hflags : u.flags = s.flags)
    (hmem : u.mem = s.mem) (hparams : u.params = s.params) (hmicro : u.micro = s.micro) (hirq : u.irq = s.irq) :
    entersThrough s (interrupt kind u) (entryVector kind u) := by
  have hss : entrySS u = entrySS s := by rw [entrySS, entrySS, hflags, hregs]
  have hsp : entrySP u = entrySP s := by rw [entrySP, entrySP, hflags, hregs]
  have hframe : entryFrame u = entryFrame s := by simp only [entryFrame, hss, hsp, hregs, hflags, hparams]
  have hstored : (interrupt kind u).mem = writeAll s.params.ioRouting false (entryFrame s) s.mem := by
    rw [interrupt_mem_eq_writeAll, hframe, hparams, hmem]
  have hcontrol : keepsControl s (interrupt kind u) :=
    keepsControl_of_writeAll (by simp [hmicro]) (by simp [hirq]) (by simp [hparams]) hstored
  refine ⟨interrupt_flags kind u, hcontrol, storesOnly_of_writeAll hstored (entryFrame_nodup s), by simp,
    (readVector (entryVector kind u) (entered kind u)).1, readVector_length _ _,
    fun k hk b hb => interrupt_descriptor_byte kind u hk hb, ?_⟩
  rw [interrupt_regs, swapIfUser_regs, hss, hsp, hregs, hflags, hparams]

/-- A software interrupt enters through the immediate that the operand phase of INT has put into SOURCE (R384). -/
theorem interrupt_operandImm_entersThrough (v : Byte) (s : State) :
    entersThrough s (interrupt .sw (operandImm v s)) v :=
  interrupt_entersThrough (u := operandImm v s) .sw rfl rfl rfl rfl rfl rfl

/-- A fault enters through its vector (R422, R424). -/
theorem raiseFault_entersThrough (v : Byte) (s : State) : entersThrough s (raiseFault v s) v :=
  interrupt_entersThrough (u := s.withSource v) .fault rfl rfl rfl rfl rfl rfl

/-! ### The obligations -/

/-- Settles O33: the operand phase of INT puts the vector into SOURCE and changes nothing that entry depends on. -/
theorem intEntersItsVector : Obligations.IntEntersItsVector := fun s v hb =>
  ⟨effect (.intImm v) s, exec_of_not_blocked hb, interrupt_operandImm_entersThrough v s⟩

/-- Settles O36: the blocked branch of `exec` is the privilege fault, with IP back at one past the opcode. -/
theorem privilegedInstructionsTrap : Obligations.PrivilegedInstructionsTrap := by
  intro s i hb
  have hlen : i.length - 1 = i.op.fmt.operandBytes := Nat.add_sub_cancel_left 1 i.op.fmt.operandBytes
  rw [hlen]
  exact ⟨_, exec_of_blocked hb, raiseFault_entersThrough _ _⟩

end Sys2Proof.Machine

/-! The system instructions that write the mode, IF, the stack pairs or `halted` (45_system.md R380 to R383, R386 to
R388). -/

namespace Sys2Proof.Machine

open Sys2Proof

/-! ### HALT at the boundary -/

/-- A halted machine takes no interrupt (40_fetch.md R197). -/
theorem boundaryCheck_of_halted {s : State} (hh : s.micro.halted = true) : boundaryCheck s = s := by
  simp [boundaryCheck, hh]

/-! ### IRET's effect as pops and a last write of registers and flags -/

/-- The swap of entry and return, as a choice between two register files (10_state.md R44, R434). -/
theorem swapIfUser_regs_eq_ite (s : State) : (swapIfUser s).regs =
    if s.flags.us then
      { s.regs with ss := s.regs.prevSS, sp := s.regs.prevSP, prevSS := s.regs.ss, prevSP := s.regs.sp }
    else s.regs := by
  unfold swapIfUser
  split <;> rfl

theorem effect_iret (s : State) : effect .iret s =
    swapIfUser (((pop8 (pop16 (pop16 s).2).2).2.setRegs
      { s.regs with sp := s.regs.sp + 5, cs := (pop16 s).1, ip := (pop16 (pop16 s).2).1 }).setFlags
      (flagsOfByte s.params.flagsLayout (pop8 (pop16 (pop16 s).2).2).1)) := by
  simp [effect, returnFromInterrupt, State.withIp, State.withCs, State.setRegs, word_add_add]

/-! ### The obligations -/

/-- Settles O31: each effect is one write of a flag or of the stack pairs, or none. -/
theorem simpleSystemInstructions : Obligations.SimpleSystemInstructions := fun _ =>
  ⟨exec_of_not_blocked (i := .nop), exec_of_not_blocked (i := .cli), exec_of_not_blocked (i := .sti),
    exec_of_not_blocked (i := .stum), exec_of_not_blocked (i := .ldpsr)⟩

/-- Settles O32: HLT writes micro-program control alone, and a halted machine stays where it is. -/
theorem hltParks : Obligations.HltParks := fun s hb =>
  have hhalted : (actHlt s).micro.halted = true := rfl
  ⟨actHlt s, exec_of_not_blocked (i := .hlt) hb, hhalted, rfl, rfl, rfl, rfl, rfl, rfl, rfl,
    boundaryCheck_of_halted hhalted, step_of_halted hhalted⟩

/-- Settles O34: the bytes are those of five pops in sequence; registers and flags are written after them, and then the
restored US decides on the swap. -/
theorem iretRestores : Obligations.IretRestores := by
  intro s hb
  have h0 := HasPopped.zero s
  have h2 := h0.pop16
  have h4 := h2.pop16
  refine ⟨effect .iret s, _, _, _, _, _, exec_of_not_blocked hb, h0.popsByte, h0.pop8.popsByte, h2.popsByte,
    h2.pop8.popsByte, h4.popsByte, ?flags, ?regs, ?bytes, ?control⟩
  case flags => rw [effect_iret, swapIfUser_flags, State.setFlags_flags]
  case regs =>
    rw [effect_iret, swapIfUser_regs_eq_ite, swapIfUser_flags]
    rfl
  case bytes => exact keepsBytes_of_mem (by simp [effect_iret])
  case control => constructor <;> simp [effect_iret, samePlatform]

end Sys2Proof.Machine

/-! The two modes (45_system.md R389): which effects change US, and so which steps can. -/

namespace Sys2Proof.Machine

open Sys2Proof

/-! ### US through the ALU -/

theorem addCore_us (a b : Byte) (f : Flags) : (addCore a b f).2.us = f.us := rfl

theorem subCore_us (mode : SubFlagMode) (a b : Byte) (f : Flags) : (subCore mode a b f).2.us = f.us := by
  cases mode <;> rfl

theorem logicFlags_us (mode : LogicCfOf) (r : Byte) (f : Flags) : (logicFlags mode r f).us = f.us := by
  rw [logicFlags_eq]

/-- After an ALU instruction with a result the flags are those of its core. -/
theorem EffectWritesAlu.flags_eq {i : Instr} {s : State} {p : Byte × Flags} (h : EffectWritesAlu i s p) :
    (effect i s).flags = p.2 := by
  obtain ⟨u, he, -⟩ := h
  rw [he]
  rfl

theorem effect_cmp_us {i : Instr} (hi : i.op ∈ [Op.cmpDi, .cmpImm, .cmpD16]) (s : State) :
    (effect i s).flags.us = s.flags.us := by
  obtain ⟨u, he, -⟩ := effect_cmp hi s
  obtain ⟨-, -, -, -, hus⟩ := cmpCore_common s.params.cmpSignedMode s.regs.al (operandByte i s) s.flags
  rw [he, State.setFlags_flags, hus]

/-! ### US through every effect -/

theorem effect_nearJump_flags {i : Instr} {target : Word} (h : nearTarget i = some target) (s : State) :
    (effect i s).flags = s.flags := by
  obtain ⟨taken, he, -⟩ := effect_nearJump h s
  rw [he]
  cases taken <;> rfl

/-- Only STUM, IRET and interrupt entry write US: entry is INT's own effect, and no other instruction's. -/
theorem effect_us {i : Instr} (hstum : i ≠ .stum) (hiret : i ≠ .iret) (hint : ∀ v, i ≠ .intImm v) (s : State) :
    (effect i s).flags.us = s.flags.us := by
  cases i
  case stum => exact absurd rfl hstum
  case iret => exact absurd rfl hiret
  case intImm v => exact absurd rfl (hint v)
  case nop | hlt | cli | sti | ldpsr => rfl
  case pushAl | popAl | ret | retf | call | callf | jmpf =>
    simp [effect, actPushAl, actPopAl, actRet, actRetf, actCall, actCallf, actJmpf, operandNear_eq, operandFar_eq]
  case jmp | je | jne | ja | jae | jb | jbe | jg | jge | jl | jle | jo | jno | js | jns =>
    exact congrArg Flags.us (effect_nearJump_flags rfl s)
  case addDi | addImm | addD16 =>
    rw [EffectWritesAlu.flags_eq (effect_add (by simp [Instr.op]) s), addCore_us]
  case subDi | subImm | subD16 =>
    rw [EffectWritesAlu.flags_eq (effect_sub (by simp [Instr.op]) s), subCore_us]
  case andDi | andImm | andD16 =>
    rw [EffectWritesAlu.flags_eq (effect_and (by simp [Instr.op]) s), andCore, logicFlags_us]
  case orDi | orImm | orD16 =>
    rw [EffectWritesAlu.flags_eq (effect_or (by simp [Instr.op]) s), orCore, logicFlags_us]
  case cmpDi | cmpImm | cmpD16 => exact effect_cmp_us (by simp [Instr.op]) s
  case notAl => exact logicFlags_us s.params.logicCfOf _ s.flags
  case shl | sal | shr | sar => rfl
  all_goals -- the move family writes no flag
    rw [effect_flags_of_moveFamily (by simp [moveFamily, Instr.op])]

/-! ### US through a step -/

/-- A machine that a step moved between the modes had not halted (R198). -/
theorem not_halted_of_us_ne {s t : State} (h : step s = .next t) (hne : t.flags.us ≠ s.flags.us) :
    s.micro.halted = false := by
  by_contra hh
  rw [step_of_halted (by simpa using hh)] at h
  cases h
  exact hne rfl

/-- Entry ends in supervisor mode (R430). -/
theorem interrupt_us (kind : IntKind) (s : State) : (interrupt kind s).flags.us = false := by
  rw [interrupt_flags]
  rfl

/-! ### The obligations -/

/-- Settles O40: a step that ends in user mode ends with no entry, so the instruction that ran set US itself. -/
theorem userModeOnlyByStumOrIret : Obligations.UserModeOnlyByStumOrIret := by
  intro s t h hs ht
  have hh := not_halted_of_us_ne h (by simp [hs, ht])
  have hentry {kind : IntKind} {u : State} (he : t = interrupt kind u) : False := by
    rw [he, interrupt_us] at ht
    cases ht
  rcases step_enters_or_runs h hh with ⟨v, -, -, he⟩ | ⟨v, -, -, he⟩ | ⟨i, hr, hint, ⟨-, he⟩ | rfl⟩
  · exact (hentry he).elim
  · exact (hentry he).elim
  · exact (hentry he).elim
  · by_cases hstum : i = .stum
    · exact .inl (hstum ▸ hr)
    · by_cases hiret : i = .iret
      · exact .inr (hiret ▸ hr)
      · rw [effect_us hstum hiret hint, fetched_flags, hs] at ht
        cases ht

/-- From user mode, with IRET privileged, an instruction that runs and is not INT ends with US still set: STUM sets it,
and the privilege check does not let IRET through. -/
theorem effect_us_of_user {s : State} {i : Instr} (hr : runs s i) (hpriv : s.params.privSet.contains .iret = true)
    (hs : s.flags.us = true) (hint : ∀ v, i ≠ .intImm v) : (effect i (fetched i.op s)).flags.us = true := by
  have hiret : i ≠ .iret := by
    rintro rfl
    obtain ⟨-, hlet, -⟩ := hr
    have hblocked : s.blocked .iret = true := by rw [State.blocked, hs, hpriv]; rfl
    cases hblocked.symm.trans hlet
  by_cases hstum : i = .stum
  · rw [hstum]
    rfl
  · rw [effect_us hstum hiret hint, fetched_flags, hs]

/-- Settles O41: a step from user to supervisor mode ends in an entry, and what came before the entry, the fetch and
the instruction's own effect, kept US set. -/
theorem supervisorModeOnlyByEntry : Obligations.SupervisorModeOnlyByEntry := by
  intro s t hpriv h hs ht
  have hh := not_halted_of_us_ne h (by simp [hs, ht])
  rcases step_enters_or_runs h hh with ⟨v, -, hfrom, he⟩ | ⟨v, -, hfrom, he⟩ | ⟨i, hr, hint, hend⟩
  · exact ⟨.fault, _, hfrom, by simp [hs], he⟩
  · exact ⟨.sw, _, hfrom, by simp [hs], he⟩
  · have hus := effect_us_of_user hr hpriv hs hint
    rcases hend with ⟨hfrom, he⟩ | rfl
    · exact ⟨.hw, _, hfrom, hus, he⟩
    · rw [hus] at ht
      cases ht

end Sys2Proof.Machine

/-! What one step answers (60_exceptions.md R421): always a next state, and a halted one only from HLT. -/

namespace Sys2Proof.Machine

open Sys2Proof

/-- Settles O11: neither the fetch nor a meaning answers anything but a next state, which is `step_next`. -/
theorem everyStepAnswers : Obligations.EveryStepAnswers := step_next

/-- A fault changes SOURCE before its entry, and leaves micro-program control alone. -/
@[simp] theorem raiseFault_micro (v : Byte) (s : State) : (raiseFault v s).micro = s.micro :=
  interrupt_micro .fault (s.withSource v)

/-- Settles O12: entry, whether for a fault or at the boundary, leaves `halted` alone, so an instruction ran and its
effect set it, which only HLT's does. -/
theorem onlyHltHalts : Obligations.OnlyHltHalts := by
  intro s t hs hh ht
  have hnofault (v : Byte) : (raiseFault v (fetchOpcode s)).micro.halted = false := by
    rw [raiseFault_micro, fetchOpcode_micro, hh]
  rcases step_cases hs with ⟨-, rfl⟩ | ⟨-, -, rfl⟩ | ⟨op, -, -, -, rfl⟩ | ⟨i, hr, rfl⟩
  · cases hh.symm.trans ht
  · cases (hnofault _).symm.trans ht
  · cases (hnofault _).symm.trans ht
  · by_cases hn : i.op = .hlt
    · exact eq_hlt_of_op hn ▸ hr
    · rw [boundaryCheck_micro, effect_halted hn, fetched_micro] at ht
      cases hh.symm.trans ht

end Sys2Proof.Machine

/-! Faults found at the opcode fetch (60_exceptions.md R422 to R425): the entry starts one past the opcode byte, from a
state that has changed nothing else but OPCODE, bus latches and draws. -/

namespace Sys2Proof.Machine

open Sys2Proof

theorem step_of_fetch_done {s t : State} (h : fetchInstr s = .done t) : step s = .next t := by
  simp only [step, h]

theorem raiseFault_fetchOpcode_entersThrough (v : Byte) (s : State) :
    entersThrough (s.withIp (s.regs.ip + 1)) (raiseFault v (fetchOpcode s)) v :=
  interrupt_entersThrough (u := (fetchOpcode s).withSource v) .fault (fetchOpcode_regs s) (fetchOpcode_flags s)
    (fetchOpcode_mem s) (fetchOpcode_params s) (fetchOpcode_micro s) (fetchOpcode_irq s)

/-- OPCODE holds the byte that raised the fault, SOURCE the vector number, and DEST what it held. -/
theorem raiseFault_fetchOpcode_latch (v : Byte) (s : State) : (raiseFault v (fetchOpcode s)).latch =
    { s.latch with opcode := s.answer false (phys s.regs.cs s.regs.ip), source := v } := by
  simp [raiseFault, entryVector]

/-- A step whose fetch ends in a fault is that fault's entry, as the two obligations describe it. -/
theorem step_of_fetch_fault {s : State} {v : Byte} (h : fetchInstr s = .done (raiseFault v (fetchOpcode s))) :
    ∃ t, step s = .next t ∧ entersThrough (s.withIp (s.regs.ip + 1)) t v
      ∧ t.latch.opcode = s.answer false (phys s.regs.cs s.regs.ip)
      ∧ t.latch.destSel = s.latch.destSel ∧ t.latch.destOff = s.latch.destOff :=
  ⟨_, step_of_fetch_done h, raiseFault_fetchOpcode_entersThrough v s, by rw [raiseFault_fetchOpcode_latch],
    by rw [raiseFault_fetchOpcode_latch], by rw [raiseFault_fetchOpcode_latch]⟩

/-- Settles O8: the fetch of an unassigned byte ends in the invalid-opcode fault, in either mode. -/
theorem invalidOpcodeEntersItsVector : Obligations.InvalidOpcodeEntersItsVector :=
  fun _ hh hl => step_of_fetch_fault (fetchInstr_of_invalid hh hl)

/-- Settles O9: the fetch of a blocked instruction ends in the privilege fault, before any operand byte is fetched. -/
theorem privilegeViolationEntersItsVector : Obligations.PrivilegeViolationEntersItsVector := by
  intro s op hh hl hb
  have hfetch : fetchInstr s = .done (raiseFault s.params.vecPrivViolation (fetchOpcode s)) := by
    rw [fetchInstr_of_blocked hh hb hl, privilegeFault, fetchOpcode_params]
  exact step_of_fetch_fault hfetch

end Sys2Proof.Machine

/-! Interrupt entry of each kind, and the boundary check that takes a hardware one (60_exceptions.md R426, R430). -/

namespace Sys2Proof.Machine

open Sys2Proof

/-- Entry of any kind leaves what the statements call entry through its vector. -/
theorem interrupt_entersThrough_self (kind : IntKind) (s : State) :
    entersThrough s (interrupt kind s) (entryVector kind s) :=
  interrupt_entersThrough kind rfl rfl rfl rfl rfl rfl

/-- Settles O37: the vector is the line's for a hardware entry and SOURCE's for the other two kinds. -/
theorem entryOfEveryKind : Obligations.EntryOfEveryKind := fun s =>
  ⟨interrupt_entersThrough_self .hw s, interrupt_entersThrough_self .sw s, interrupt_entersThrough_self .fault s⟩

theorem boundaryCheck_of_taken {s : State} (hh : s.micro.halted = false) (hie : s.flags.ie = true)
    (hp : s.irq.pending = true) : boundaryCheck s = interrupt .hw s := by
  simp [boundaryCheck, hh, hie, hp]

theorem boundaryCheck_of_masked {s : State} (hie : s.flags.ie = false) : boundaryCheck s = s := by
  simp [boundaryCheck, hie]

theorem boundaryCheck_of_not_pending {s : State} (hp : s.irq.pending = false) : boundaryCheck s = s := by
  simp [boundaryCheck, hp]

/-- Settles O39: one equation of the check per way its condition holds or fails. -/
theorem boundaryTakesPendingInterrupt : Obligations.BoundaryTakesPendingInterrupt := by
  intro s
  constructor
  · rintro ⟨hh, hie, hp⟩
    rw [boundaryCheck_of_taken hh hie hp]
    exact interrupt_entersThrough_self .hw s
  · rintro (hh | hie | hp)
    · exact boundaryCheck_of_halted hh
    · exact boundaryCheck_of_masked hie
    · exact boundaryCheck_of_not_pending hp

end Sys2Proof.Machine

/-! The descriptor round trip (60_exceptions.md R431, 90_conflicts.md C8). -/

namespace Sys2Proof.Machine

open Sys2Proof

@[simp] theorem descriptorBytes_length (l : VectorLayout) (ip cs : Word) : (descriptorBytes l ip cs).length = 4 := by
  simp [descriptorBytes]

/-- The byte at each place of a descriptor, as the layout names the places. -/
theorem descriptorBytes_getD (l : VectorLayout) (ip cs : Word) (k : Fin 4) : (descriptorBytes l ip cs).getD k.val 0 =
    if k = l.ipLo then loByte ip else if k = l.ipHi then hiByte ip else if k = l.csLo then loByte cs
    else hiByte cs := by
  simp [descriptorBytes, Fin.ext_iff]

/-- Under an ordering of the four fields no field's byte is taken for another's, so each word reads back. -/
theorem descriptor_descriptorBytes {l : VectorLayout} (h : l.wf = true) (ip cs : Word) :
    descriptor l (descriptorBytes l ip cs) = (ip, cs) := by
  have hnodup : [l.ipLo, l.ipHi, l.csLo, l.csHi].Nodup := of_decide_eq_true h
  simp only [List.nodup_cons, List.mem_cons, List.not_mem_nil, not_or] at hnodup
  simp only [descriptor, descriptorBytes_getD]
  simp [hnodup, Ne.symm]

/-- Where memory answers all four places of a descriptor, entry reads those bytes. -/
theorem readVector_eq_of_read {v : Byte} {s : State} {d : List Byte} (hd : d.length = 4)
    (h : ∀ k < 4, s.mem.read s.params.ioRouting false (vectorAddr v k) = d[k]?) : (readVector v s).1 = d := by
  have hlen : (readVector v s).1.length = d.length := (readVector_length v s).trans hd.symm
  refine List.ext_getElem? fun k => ?_
  by_cases hk : k < 4
  · have hget : d[k]? = some d[k] := List.getElem?_eq_getElem (hd ▸ hk)
    rw [hget]
    exact readVector_byte v s hk ((h k hk).trans hget)
  · rw [List.getElem?_eq_none (by simpa using hk), List.getElem?_eq_none (by simpa [hd] using hk)]

/-- What the pushes of an entry store does not depend on its kind or its vector. -/
theorem pushFrame_swapIfUser_mem (s : State) :
    (pushFrame (swapIfUser s)).mem = writeAll s.params.ioRouting false (entryFrame s) s.mem :=
  (interrupt_mem .sw s).symm.trans (interrupt_mem_eq_writeAll .sw s)

/-- Settles O38: entry reads the image's four bytes, and the layout takes them apart as the image put them together. -/
theorem descriptorRoundTrip : Obligations.DescriptorRoundTrip := by
  intro s v ip cs hwf hread
  have hstored : (pushFrame (swapIfUser (s.withSource v))).mem = (pushFrame (swapIfUser s)).mem := by
    rw [pushFrame_swapIfUser_mem, pushFrame_swapIfUser_mem]
    rfl
  have hbytes : (readVector v (entered .sw (s.withSource v))).1 = descriptorBytes s.params.vectorLayout ip cs := by
    refine readVector_eq_of_read (descriptorBytes_length _ _ _) fun k hk => ?_
    rw [vectorAddr, BitVec.mul_comm, ← hread k hk, ← hstored]
    simp [entered]
  have hregs := interrupt_regs .sw (s.withSource v)
  rw [show entryVector .sw (s.withSource v) = v from rfl, hbytes, State.withSource_params,
    descriptor_descriptorBytes hwf] at hregs
  rw [hregs]
  exact ⟨rfl, rfl⟩

end Sys2Proof.Machine

/-! The interrupt round trip (95_test_vectors.md S9, 60_exceptions.md R434). -/

namespace Sys2Proof.Machine

open Sys2Proof

/-- With SS:SP where entry left it, the pop `k` bytes on takes the frame byte `j = 5 - k` places below the stack that
entry pushed on, if that place lies in RAM. -/
theorem popped_eq_entryFrame {s t : State} {v b : Byte} {k j : Nat} (hn : k + j = 5)
    (hstores : storesOnly s t false (entryFrame s)) (hplatform : samePlatform s t) (hss : t.regs.ss = entrySS s)
    (hsp : t.regs.sp = entrySP s - 5) (hram : ∀ e ∈ entryFrame s, s.isRam false e.1 = true)
    (hmem : (phys (entrySS s) (entrySP s - BitVec.ofNat 16 j), v) ∈ entryFrame s) (hpop : popsByte t k b) : b = v := by
  have hplace : t.regs.sp + BitVec.ofNat 16 k = entrySP s - BitVec.ofNat 16 j := by
    rw [hsp, show (5 : Word) = BitVec.ofNat 16 (k + j) by rw [hn]; rfl, BitVec.ofNat_add]
    bv_omega
  apply hpop
  rw [hss, hplace]
  exact read_of_storesOnly hstores hplatform hmem (hram _ hmem)

/-- Settles O35: IRET runs in supervisor mode, pops the five bytes of the frame, and swaps the stack pair back exactly
where entry had swapped it. -/
theorem intThenIretRestores : Obligations.IntThenIretRestores := by
  intro s v hwf hint hram
  obtain ⟨t, ht, htflags, ⟨-, -, hplatform⟩, hstores, -, d, -, -, htregs⟩ := intEntersItsVector s v hint
  have hiret : t.blocked .iret = false := by
    rw [State.blocked, htflags]
    rfl
  obtain ⟨u, c0, c1, i0, i1, f, hu, hc0, hc1, hi0, hi1, hf, huflags, huregs, -, -⟩ := iretRestores t hiret
  have hpopped {k j : Nat} {v b : Byte} (hn : k + j = 5) :=
    popped_eq_entryFrame (v := v) (b := b) hn hstores hplatform (by rw [htregs]) (by rw [htregs]) hram
  obtain rfl : c0 = loByte s.regs.cs := hpopped (k := 0) (j := 5) rfl (by simp [entryFrame]) hc0
  obtain rfl : c1 = hiByte s.regs.cs := hpopped (k := 1) (j := 4) rfl (by simp [entryFrame]) hc1
  obtain rfl : i0 = loByte s.regs.ip := hpopped (k := 2) (j := 3) rfl (by simp [entryFrame]) hi0
  obtain rfl : i1 = hiByte s.regs.ip := hpopped (k := 3) (j := 2) rfl (by simp [entryFrame]) hi1
  obtain rfl : f = flagsByte s.params.flagsLayout s.flags :=
    hpopped (k := 4) (j := 1) rfl (by simp [entryFrame]) hf
  have hflags : u.flags = s.flags := by rw [huflags, hplatform.1, flagsOfByte_flagsByte hwf]
  refine ⟨t, u, ht, hu, ?_, hflags⟩
  rw [huregs, hflags, htregs]
  cases hus : s.flags.us <;> simp [entrySS, entrySP, hus]

end Sys2Proof.Machine

/-! The acknowledge output through the clocks of an entry (60_exceptions.md R428, R430): each clock of entry moves STAR
and the line as those two alone determine, so the 25 clocks are a run over the pair of them. -/

namespace Sys2Proof.Machine

open Sys2Proof

/-- The micro-states of interrupt entry (R430). -/
def MicroState.inEntry : MicroState → Bool
  | .intEntry _ | .intPushAddr _ _ | .intPushBus _ _ | .intClear _ | .intVecAddr _ | .intVecBus _ | .intVecLatch _
  | .intEnd => true
  | _ => false

/-- The micro-state after each one of entry: five pushes of two clocks, four descriptor reads of three. -/
@[simp] def entryNext : MicroState → MicroState
  | .intEntry kind => .intPushAddr kind 0
  | .intPushAddr kind k => .intPushBus kind k
  | .intPushBus kind k => (nextIndex k 5).elim (.intClear kind) (.intPushAddr kind)
  | .intClear _ => .intVecAddr 0
  | .intVecAddr k => .intVecBus k
  | .intVecBus k => .intVecLatch k
  | .intVecLatch k => (nextIndex k 4).elim .intEnd .intVecAddr
  | .intEnd => .fetchAddr
  | m => m

/-- `irq_ack` after a clock that starts in the given micro-state of entry: `INT_CLEAR` of a hardware entry raises it and
the set-up of the first descriptor read lowers it (R430). -/
@[simp] def ackNext : MicroState → Bool → Bool
  | .intClear .hw, _ => true
  | .intVecAddr k, ack => ack && k != 0
  | _, ack => ack

/-- One clock of entry on STAR and `irq_ack`. -/
@[simp] def entryClock (p : MicroState × Bool) : MicroState × Bool := (entryNext p.1, ackNext p.1 p.2)

/-- The part of the state that `entryClock` is about. -/
@[simp] def State.entryView (s : State) : MicroState × Bool := (s.micro.star, s.irq.ack)

@[simp] theorem busAccess_micro (s : State) : (busAccess s).micro = s.micro := by
  unfold busAccess
  split
  · exact busRead_micro ..
  · split <;> rfl

@[simp] theorem busAccess_irq (s : State) : (busAccess s).irq = s.irq := by
  unfold busAccess
  split
  · exact busRead_irq ..
  · split <;> rfl

/-- What a transition of entry does to STAR, `halted` and `irq_ack`. -/
theorem transition_of_inEntry {s : State} (he : s.micro.star.inEntry = true) :
    (transition s).entryView = entryClock s.entryView ∧ (transition s).micro.halted = s.micro.halted := by
  cases hs : s.micro.star
  case intEntry kind => simp [transition, hs, intEntry]
  case intPushAddr kind k => simp [transition, hs, aimPush]
  case intPushBus kind k => cases hk : nextIndex k 5 <;> simp [transition, hs, hk]
  case intClear kind => cases kind <;> simp [transition, hs, intClear]
  case intVecAddr k => by_cases hk : k = 0 <;> simp [transition, hs, hk]
  case intVecBus k => simp [transition, hs]
  case intVecLatch k => cases hk : nextIndex k 4 <;> simp [transition, hs, hk]
  case intEnd => simp [transition, hs, intEnd]
  all_goals -- no micro-state of entry
    rw [hs] at he
    cases he

theorem clock_of_inEntry {s : State} (hh : s.micro.halted = false) (he : s.micro.star.inEntry = true) :
    (clock s).entryView = entryClock s.entryView ∧ (clock s).micro.halted = false := by
  obtain ⟨hview, hhalted⟩ := transition_of_inEntry he
  have hclock : clock s = busAccess (transition s) := by simp [clock, hh]
  rw [hclock, ← hview, busAccess_micro, hhalted]
  exact ⟨by simp, hh⟩

/-- As long as the run over the pair stays in entry, the machine's clocks follow it. -/
theorem clocks_of_inEntry (n : Nat) {s : State} (hh : s.micro.halted = false)
    (he : ∀ k < n, (entryClock^[k] s.entryView).1.inEntry = true) :
    (clocks n s).entryView = entryClock^[n] s.entryView := by
  induction n generalizing s with
  | zero => rfl
  | succ n ih =>
    obtain ⟨hview, hhalted⟩ := clock_of_inEntry hh (he 0 n.succ_pos)
    rw [clocks, Function.iterate_succ_apply, ← hview]
    refine ih hhalted fun k hk => ?_
    rw [hview, ← Function.iterate_succ_apply]
    exact he (k + 1) (Nat.succ_lt_succ hk)

/-- Entry of each kind is in entry for 25 clocks (R493). -/
theorem entryClock_inEntry (kind : IntKind) :
    ∀ k < 25, (entryClock^[k] (.intEntry kind, false)).1.inEntry = true := by
  cases kind <;> decide

/-- The pulse, on the run over STAR and `irq_ack` alone. -/
theorem entryClock_ack (kind : IntKind) :
    ∀ n ≤ 25, (entryClock^[n] (.intEntry kind, false)).2 = true ↔ kind = .hw ∧ n = 12 := by
  cases kind <;> decide

/-- Settles O50: the machine follows the run over STAR and `irq_ack`, which raises `irq_ack` at its twelfth clock and
lowers it at the next. -/
theorem acknowledgeIsOneClock : Obligations.AcknowledgeIsOneClock := by
  intro s kind n hs hh hq hn
  have hstart : s.entryView = (.intEntry kind, false) := by rw [State.entryView, hs, hq]
  have hview : (clocks n s).entryView = entryClock^[n] (.intEntry kind, false) := by
    rw [← hstart]
    refine clocks_of_inEntry n hh fun k hk => ?_
    rw [hstart]
    exact entryClock_inEntry kind k (hk.trans_le hn)
  rw [← entryClock_ack kind n hn, ← hview]
  rfl

end Sys2Proof.Machine

/-! Reset at any clock (70_reset_and_hazards.md R480, R482, R485): what `onReset` makes of each group of fields, that
it leads to a boundary from any micro-state, and that nothing is taken there. -/

namespace Sys2Proof.Machine

open Sys2Proof

section
variable (d : ResetDraws) (s : State)

/-! ### The groups of fields -/

@[simp] theorem onReset_regs : (onReset d s).regs =
    ⟨d.al, d.ah, d.ds, d.ss, d.sp, d.di, s.params.resetCS, s.params.resetIP, d.prevSS, d.prevSP⟩ := rfl

@[simp] theorem onReset_flags : (onReset d s).flags = Flags.cleared := rfl

@[simp] theorem onReset_bus : (onReset d s).bus = ⟨d.mar, d.mbr, false, false, false, false, false⟩ := rfl

@[simp] theorem onReset_micro : (onReset d s).micro = ⟨.fetchAddr, d.mjr, false, []⟩ := rfl

@[simp] theorem onReset_irq : (onReset d s).irq = { s.irq with ack := false } := rfl

@[simp] theorem onReset_mem : (onReset d s).mem = s.mem := rfl

@[simp] theorem onReset_params : (onReset d s).params = s.params := rfl

/-! ### The boundary after reset -/

/-- Reset abandons whatever is under way (R485): `s` may be in any micro-state, or halted. -/
theorem onReset_atBoundary : (onReset d s).atBoundary = true := by
  have hcalm : (onReset d s).calm := by simp [State.calm]
  exact State.atBoundary_iff.2 ⟨by simp, hcalm, by simp, by simp⟩

/-- IF is clear after reset, so a pending interrupt waits for STI (R482). -/
theorem boundaryCheck_onReset : boundaryCheck (onReset d s) = onReset d s :=
  boundaryCheck_of_masked (by simp [Flags.cleared])

end

/-- Settles O57: each group of fields by its equation, then the two facts about the boundary. -/
theorem resetAtAnyClock : Obligations.ResetAtAnyClock := by
  intro d s
  have hboundary := onReset_atBoundary d s
  have hcheck := boundaryCheck_onReset d s
  simp [hboundary, hcheck]

end Sys2Proof.Machine
